-- ==== Sys2Proof/Word.lean ====
section
/-!
DEFINITION. The plain types of WIMP: words, bytes, and the numbers that name registers, flags, ports,
threads and synchronisation points (spec/00_scope.md R5, R6).
-/

namespace Sys2Proof

/-- A 16-bit word: a general register, an address, an instruction (R5 `XLEN`, `PCLEN`, `ILEN`). -/
abbrev Word := BitVec 16

/-- A byte: one lane of a word (R14), one addressable unit of memory (R60). -/
abbrev Byte := BitVec 8

/-- The number of a general register, R0 to R7 (R21). -/
abbrev RegNum := Fin 8

/-- The number of a bit of FLAG, 0 to 7 (R26); a CB field. -/
abbrev FlagNum := Fin 8

/-- The number of an input or output port, 0 to 7 (R80). -/
abbrev Port := Fin 8

/-- The number of a hardware thread, 0 to 3 (R37, R225). -/
abbrev Tid := Fin 4

/-- The number of a synchronisation point, 0 to 3 (R35). -/
abbrev Point := Fin 4

end Sys2Proof
end

