-- ==== Sys2Proof/Config.lean ====
section
/-!
DEFINITION. The parameters of the machine (spec/00_scope.md R5). A parameter the spec gives a value is a
definition at that value; a parameter the spec leaves OPEN, and a value no rule fixes, is an opaque
constant, so that nothing can be proved of it but what holds for every value.
-/

namespace Sys2Proof

/-- Placement of a word's two bytes in memory (`BYTE_ORDER`, R64). -/
inductive ByteOrder where
  /-- The less significant byte stands at the lower (even) address. -/
  | little
  /-- The more significant byte stands at the lower (even) address. -/
  | big
deriving DecidableEq, Repr, Inhabited

/-- The shift SAVG applies to the difference (`SAVG_MODE`, R127, R128, D9). -/
inductive SavgMode where
  /-- The borrow enters the top bit: floor((a - b) / 2) in two's complement. -/
  | borrowIn
  /-- Logical right shift of the wrapped difference. -/
  | logical
  /-- Arithmetic right shift of the wrapped difference. -/
  | arithmetic
deriving DecidableEq, Repr

/-- Which register is offset, data and stepped in the video stores (`VSTORE_ROLES`, R209, C5). -/
inductive VStoreRoles where
  /-- Offset RA, data RB, RA stepped. -/
  | A
  /-- Offset RB, data RA, RB stepped. -/
  | B
  /-- Offset RB, data RA, RA stepped. -/
  | C
deriving DecidableEq, Repr

/-- One of the four source bytes of MIX and MUX (R175). -/
inductive SourceByte where
  | raLo | raHi | rbLo | rbHi
deriving DecidableEq, Repr

/-- Where the two bytes of a MIX or MUX result come from (R175). -/
structure Placement where
  hi : SourceByte
  lo : SourceByte
deriving DecidableEq, Repr

/-- The byte placement of the four instructions (`MIXMUX`, R175, D11). -/
structure MixMux where
  mixLo : Placement
  mixHi : Placement
  muxLo : Placement
  muxHi : Placement
deriving DecidableEq, Repr

namespace Config

/-- `BYTE_ORDER`: OPEN (R5, R64, D5, U26). A free value (log 1), safe: no instruction can observe it, only a
byte image of memory depends on it. -/
opaque byteOrder : ByteOrder

/-- What a byte of memory holds that nothing has written since reset: any value (R40, U11). A free value
for each address (log 2), safe. -/
opaque powerOnByte : Nat → Byte

/-- `OUT_QUEUE_DEPTH`: "Each queue is 256 deep" (R81). -/
def outQueueDepth : Nat := 256

/-- `IN_QUEUE_DEPTH` less one: OPEN, any value (R5, R82, D34). A free value (log 4), safe. -/
opaque inQueueSpare : Nat

/-- `IN_QUEUE_DEPTH`: any value of at least 1 (R5, D34). -/
def inQueueDepth : Nat := inQueueSpare + 1

/-- `WAIT_REG_VIEW`: the 8 bits GET.WAIT_REG returns, a function of the four rows, OPEN (R265, D35).
A free value (log 5), safe. -/
opaque waitRegView : Vector (BitVec 4) 4 → Byte

/-- Whether a pending interrupt is taken at the n-th eligible boundary or left for a later one: the
model must allow either (R312, D26). A free choice (log 6), safe. -/
opaque interruptTaken : Nat → Bool

/-- `CMP_SIGNED` = false: ordered compares are unsigned (R5, R150, D6). -/
@[simp] def cmpSigned : Bool := false

/-- `MUL_SIGNED` = false: byte products are unsigned (R5, R165, D7). -/
@[simp] def mulSigned : Bool := false

/-- `AVG_KEEPS_CARRY` = true: AVG shifts the sum with its carry (R5, R125, D8). -/
@[simp] def avgKeepsCarry : Bool := true

/-- `SAVG_MODE` = `borrow_in` (R5, R127, D9). -/
@[simp] def savgMode : SavgMode := .borrowIn

/-- `MIXMUX`: the spec's table (R5, R175, D11). -/
@[simp] def mixMux : MixMux where
  mixLo := ⟨.rbHi, .raLo⟩
  mixHi := ⟨.raHi, .rbLo⟩
  muxLo := ⟨.raLo, .rbHi⟩
  muxHi := ⟨.rbLo, .raHi⟩

/-- `VSTORE_ROLES` = `A` (R5, R209, D17). -/
@[simp] def vstoreRoles : VStoreRoles := .A

/-- `SWFT_PORT_FROM_REG` = false: the RD field itself is the port number (R5, R203, D19). -/
@[simp] def swftPortFromReg : Bool := false

/-- `LINK_ON_UNTAKEN` = false: an untaken JALR or JALI writes nothing (R5, R245, D21). -/
@[simp] def linkOnUntaken : Bool := false

end Config

end Sys2Proof
end

