-- ==== Sys2Proof/Syntax.lean ====
section
/-!
DEFINITION. The instructions of WIMP, one constructor for each row of spec/opcode_table.json, in the
table's order (spec/30_encoding.md R98). Operands are what the fields name (R91, R95): register, flag,
port, thread and point numbers, immediates, and for JMPI and JALI the signed byte offset itself.
-/

namespace Sys2Proof

inductive Instr where
  /-- `ADD.8 $RA, $RB, $RD`, R121. -/
  | add8 (ra rb rd : RegNum)
  /-- `ADD.16 $RA, $RB, $RD`, R122. -/
  | add16 (ra rb rd : RegNum)
  /-- `SUB.8 $RA, $RB, $RD`, R123. -/
  | sub8 (ra rb rd : RegNum)
  /-- `SUB.16 $RA, $RB, $RD`, R124. -/
  | sub16 (ra rb rd : RegNum)
  /-- `AVG.8 $RA, $RB, $RD`, R125. -/
  | avg8 (ra rb rd : RegNum)
  /-- `AVG.16 $RA, $RB, $RD`, R126. -/
  | avg16 (ra rb rd : RegNum)
  /-- `SAVG.8 $RA, $RB, $RD`, R127. -/
  | savg8 (ra rb rd : RegNum)
  /-- `SAVG.16 $RA, $RB, $RD`, R128. -/
  | savg16 (ra rb rd : RegNum)
  /-- `RSL.8 $RA, $RB, $RD`, R141. -/
  | rsl8 (ra rb rd : RegNum)
  /-- `RSL.16 $RA, $RB, $RD`, R142. -/
  | rsl16 (ra rb rd : RegNum)
  /-- `RSA.8 $RA, $RB, $RD`, R143. -/
  | rsa8 (ra rb rd : RegNum)
  /-- `RSA.16 $RA, $RB, $RD`, R144. -/
  | rsa16 (ra rb rd : RegNum)
  /-- `LSL.8 $RA, $RB, $RD`, R145. -/
  | lsl8 (ra rb rd : RegNum)
  /-- `LSL.16 $RA, $RB, $RD`, R146. -/
  | lsl16 (ra rb rd : RegNum)
  /-- `ROT.8 $RA, $RB, $RD`, R147. -/
  | rot8 (ra rb rd : RegNum)
  /-- `ROT.16 $RA, $RB, $RD`, R148. -/
  | rot16 (ra rb rd : RegNum)
  /-- `CMP.EQ.8 $RA, $RB, CB`, R151. -/
  | cmpEq8 (ra rb : RegNum) (cb : FlagNum)
  /-- `CMP.EQ.16 $RA, $RB, CB`, R152. -/
  | cmpEq16 (ra rb : RegNum) (cb : FlagNum)
  /-- `CMP.NE.8 $RA, $RB, CB`, R153. -/
  | cmpNe8 (ra rb : RegNum) (cb : FlagNum)
  /-- `CMP.NE.16 $RA, $RB, CB`, R154. -/
  | cmpNe16 (ra rb : RegNum) (cb : FlagNum)
  /-- `CMP.GT.8 $RA, $RB, CB`, R155. -/
  | cmpGt8 (ra rb : RegNum) (cb : FlagNum)
  /-- `CMP.GT.16 $RA, $RB, CB`, R156. -/
  | cmpGt16 (ra rb : RegNum) (cb : FlagNum)
  /-- `CMP.GE.8 $RA, $RB, CB`, R157. -/
  | cmpGe8 (ra rb : RegNum) (cb : FlagNum)
  /-- `CMP.GE.16 $RA, $RB, CB`, R158. -/
  | cmpGe16 (ra rb : RegNum) (cb : FlagNum)
  /-- `CMP.LT.8 $RA, $RB, CB`, R159. -/
  | cmpLt8 (ra rb : RegNum) (cb : FlagNum)
  /-- `CMP.LT.16 $RA, $RB, CB`, R160. -/
  | cmpLt16 (ra rb : RegNum) (cb : FlagNum)
  /-- `CMP.LE.8 $RA, $RB, CB`, R161. -/
  | cmpLe8 (ra rb : RegNum) (cb : FlagNum)
  /-- `CMP.LE.16 $RA, $RB, CB`, R162. -/
  | cmpLe16 (ra rb : RegNum) (cb : FlagNum)
  /-- `MAC.LO $RA, $RB, $RD`, R166. -/
  | macLo (ra rb rd : RegNum)
  /-- `MAC.HI $RA, $RB, $RD`, R167. -/
  | macHi (ra rb rd : RegNum)
  /-- `MUL.LO $RA, $RB, $RD`, R168. -/
  | mulLo (ra rb rd : RegNum)
  /-- `MUL.HI $RA, $RB, $RD`, R169. -/
  | mulHi (ra rb rd : RegNum)
  /-- `MIX.LO $RA, $RB, $RD`, R176. -/
  | mixLo (ra rb rd : RegNum)
  /-- `MIX.HI $RA, $RB, $RD`, R177. -/
  | mixHi (ra rb rd : RegNum)
  /-- `MUX.LO $RA, $RB, $RD`, R178. -/
  | muxLo (ra rb rd : RegNum)
  /-- `MUX.HI $RA, $RB, $RD`, R179. -/
  | muxHi (ra rb rd : RegNum)
  /-- `AND $RA, $RB, $RD`, R180. -/
  | andW (ra rb rd : RegNum)
  /-- `OR $RA, $RB, $RD`, R181. -/
  | orW (ra rb rd : RegNum)
  /-- `XOR $RA, $RB, $RD`, R182. -/
  | xorW (ra rb rd : RegNum)
  /-- `NOT $RA, $RD`, R183. -/
  | notW (ra rd : RegNum)
  /-- `COPY.LO $RA, $RD`, R184. -/
  | copyLo (ra rd : RegNum)
  /-- `COPY.HI $RA, $RD`, R185. -/
  | copyHi (ra rd : RegNum)
  /-- `SWAP $RA, $RD`, R186. -/
  | swap (ra rd : RegNum)
  /-- `LW $RA, $RD`, R196. -/
  | lw (ra rd : RegNum)
  /-- `LWI $RA, $RD`, R197. -/
  | lwi (ra rd : RegNum)
  /-- `LWD $RA, $RD`, R198. -/
  | lwd (ra rd : RegNum)
  /-- `SW $RA, $RB`, R200. -/
  | sw (ra rb : RegNum)
  /-- `SWI $RA, $RB`, R201. -/
  | swi (ra rb : RegNum)
  /-- `SWD $RA, $RB`, R202. -/
  | swd (ra rb : RegNum)
  /-- `READ IMM3, CB, $RD`, R216. -/
  | read (port : Port) (cb : FlagNum) (rd : RegNum)
  /-- `WRITE IMM3, CB, $RD`, R217. -/
  | write (port : Port) (cb : FlagNum) (rd : RegNum)
  /-- `WAIT IMM[3], IMM[2], IMM[1], IMM[0], S`, R227. -/
  | wait (mask : BitVec 4) (point : Point)
  /-- `KILL`, R230. -/
  | kill
  /-- `INIT $RA, IMM2`, R235. -/
  | init (ra : RegNum) (target : Tid)
  /-- `JMPR $RA, CB`, R246. -/
  | jmpr (ra : RegNum) (cb : FlagNum)
  /-- `JMP.SPR1`, R253. -/
  | jmpSpr1
  /-- `JALR $RA, CB`, R247. -/
  | jalr (ra : RegNum) (cb : FlagNum)
  /-- `JMPI IMM8, CB`, R248. -/
  | jmpi (offset : Int) (cb : FlagNum)
  /-- `JALI IMM8, CB`, R249. -/
  | jali (offset : Int) (cb : FlagNum)
  /-- `LI.HI IMM8, $RD`, R187. -/
  | liHi (imm : Byte) (rd : RegNum)
  /-- `LI.LO IMM8, $RD`, R188. -/
  | liLo (imm : Byte) (rd : RegNum)
  /-- `GET.FLAG $RD`, R261. -/
  | getFlag (rd : RegNum)
  /-- `GET.SPR1 $RD`, R262. -/
  | getSpr1 (rd : RegNum)
  /-- `GET.SPR2 $RD`, R263. -/
  | getSpr2 (rd : RegNum)
  /-- `GET.EXR $RD`, R264. -/
  | getExr (rd : RegNum)
  /-- `GET.WAIT_REG $RD`, R265. -/
  | getWaitReg (rd : RegNum)
  /-- `GET.TAR $RD`, R266. -/
  | getTar (rd : RegNum)
  /-- `GET.WS $RD`, R267. -/
  | getWs (rd : RegNum)
  /-- `GET.INTR $RD`, R268. -/
  | getIntr (rd : RegNum)
  /-- `PUT.FLAG $RA`, R274. -/
  | putFlag (ra : RegNum)
  /-- `PUT.SPR1 $RA`, R275. -/
  | putSpr1 (ra : RegNum)
  /-- `PUT.DEBUG IMM1`, R276. -/
  | putDebug (value : Bool)
  /-- `PUT.INTRMASK IMM1`, R277. -/
  | putIntrMask (value : Bool)
  /-- `ADDI.8 $RA, IMM3, $RD`, R129. -/
  | addi8 (ra : RegNum) (imm : BitVec 3) (rd : RegNum)
  /-- `ADDI.16 $RA, IMM3, $RD`, R130. -/
  | addi16 (ra : RegNum) (imm : BitVec 3) (rd : RegNum)
  /-- `SUBI.8 $RA, IMM3, $RD`, R131. -/
  | subi8 (ra : RegNum) (imm : BitVec 3) (rd : RegNum)
  /-- `SUBI.16 $RA, IMM3, $RD`, R132. -/
  | subi16 (ra : RegNum) (imm : BitVec 3) (rd : RegNum)
  /-- `GET.THREAD $RD`, R269. -/
  | getThread (rd : RegNum)
  /-- `SWFT $RA, $RB, $RD`, R203. -/
  | swft (ra rb rd : RegNum)
  /-- `SWSG $RA, $RB, $RD`, R210. -/
  | swsg (ra rb rd : RegNum)
  /-- `SWSGI $RA, $RB, $RD`, R211. -/
  | swsgi (ra rb rd : RegNum)
  /-- `SWSGD $RA, $RB, $RD`, R212. -/
  | swsgd (ra rb rd : RegNum)
  /-- `NOP`, R280. -/
  | nop
deriving DecidableEq, Repr

end Sys2Proof
end

