-- ==== Sys2Proof/WellFormed.lean ====
section
/-!
DEFINITION. Which terms of `Instr` stand for an instruction word. The types of the operands bound every
register, flag, port, thread and point number; what is left to check is the reach of the jump offset of
JMPI and JALI, a signed 8-bit byte offset (spec/30_encoding.md R95, spec/48_jump.md R245).
-/

namespace Sys2Proof

/-- An offset that the 8-bit field holds: -128 to 127 bytes (R95, R245). -/
def offsetFits (offset : Int) : Bool := decide (-128 ≤ offset) && decide (offset ≤ 127)

/-- Every field of the instruction is one its encoding can hold. -/
def Instr.wellFormed : Instr → Bool
  | .jmpi offset _ => offsetFits offset
  | .jali offset _ => offsetFits offset
  | _ => true

end Sys2Proof
end

