-- ==== Sys2Proof/Decode.lean ====
section
/-!
DEFINITION. Instruction words: the byte order of a word in memory, the fields of a word
(spec/30_encoding.md R90 to R92), the decoder by opcode and sub-op (R97, R102), the encoder with every
don't-care bit 0 (R94, D3), and the encoding table row of each instruction (R98).
-/

namespace Sys2Proof

/-! ## Bytes of a word (R64) -/

/-- The word whose byte at the even address is `b0` and at the odd address is `b1`. -/
def wordOfBytes (o : ByteOrder) (b0 b1 : Byte) : Word :=
  match o with
  | .little => b1 ++ b0
  | .big => b0 ++ b1

/-- The two bytes of a word, the one for the even address first. -/
def bytesOfWord (o : ByteOrder) (w : Word) : Byte × Byte :=
  match o with
  | .little => (w.extractLsb' 0 8, w.extractLsb' 8 8)
  | .big => (w.extractLsb' 8 8, w.extractLsb' 0 8)

/-! ## Fields (R90, R91) -/

/-- The five fields every format is made of: opcode 15:11, sub-op 10:9, and bits 8:6, 5:3, 2:0. -/
structure Fields where
  op : BitVec 5
  sub : BitVec 2
  a : BitVec 3
  b : BitVec 3
  d : BitVec 3
deriving DecidableEq, Repr

/-- The fields of a word. -/
def fieldsOf (w : Word) : Fields where
  op := w.extractLsb' 11 5
  sub := w.extractLsb' 9 2
  a := w.extractLsb' 6 3
  b := w.extractLsb' 3 3
  d := w.extractLsb' 0 3

/-- The word made of the fields. -/
def wordOf (f : Fields) : Word := f.op ++ f.sub ++ f.a ++ f.b ++ f.d

/-- A register number from its field. -/
def regOf (x : BitVec 3) : RegNum := x.toFin

/-- A flag number from its field. -/
def flagOf (x : BitVec 3) : FlagNum := x.toFin

/-- A port number from its field. -/
def portOf (x : BitVec 3) : Port := x.toFin

/-- The field of a register, flag or port number. -/
def numField (n : Fin 8) : BitVec 3 := BitVec.ofFin n

/-- IMM8, bits 10:3 (R92 formats I8C and I8R): the sub-op and the first two 3-bit fields. -/
def imm8Of (f : Fields) : Byte := f.sub ++ f.a ++ f.b

/-- IMM4 of WAIT, bits 8:5 (R95): bit u is thread u's mask bit. -/
def maskField (f : Fields) : BitVec 4 := f.a ++ f.b.extractLsb' 2 1

/-- S of WAIT and IMM2 of INIT, bits 4:3 (R95). -/
def pairField (f : Fields) : Fin 4 := (f.b.extractLsb' 0 2).toFin

/-- IMM1 of PUT.DEBUG and PUT.INTRMASK, bit 3 (R95). -/
def bitField (f : Fields) : Bool := f.b.getLsbD 0

/-- Bit 9, the subword size or the LO/HI selector where bit 10 is a don't-care (R93). -/
def sizeBit (f : Fields) : Bool := f.sub.getLsbD 0

/-! ## The decoder (R97, R99, R102) -/

/-- Why bytes are no instruction. -/
inductive DecodeError where
  /-- Fewer than two bytes were given. -/
  | truncated (got : Nat)
  /-- The opcode/sub-op pair is one Table 6 leaves empty (R99). -/
  | unassigned (op sub : Nat)
deriving DecidableEq, Repr

/-- The opcode map of R97 over the fields of a word. -/
def decodeFields (f : Fields) : Except DecodeError Instr :=
  match f.op.toNat, f.sub.toNat with
  | 0, 0 => .ok (.add8 (regOf f.a) (regOf f.b) (regOf f.d))
  | 0, 1 => .ok (.add16 (regOf f.a) (regOf f.b) (regOf f.d))
  | 0, 2 => .ok (.sub8 (regOf f.a) (regOf f.b) (regOf f.d))
  | 0, 3 => .ok (.sub16 (regOf f.a) (regOf f.b) (regOf f.d))
  | 1, 0 => .ok (.avg8 (regOf f.a) (regOf f.b) (regOf f.d))
  | 1, 1 => .ok (.avg16 (regOf f.a) (regOf f.b) (regOf f.d))
  | 1, 2 => .ok (.savg8 (regOf f.a) (regOf f.b) (regOf f.d))
  | 1, 3 => .ok (.savg16 (regOf f.a) (regOf f.b) (regOf f.d))
  | 2, _ => if sizeBit f then .ok (.rsl16 (regOf f.a) (regOf f.b) (regOf f.d)) else .ok (.rsl8 (regOf f.a) (regOf f.b) (regOf f.d))
  | 3, _ => if sizeBit f then .ok (.rsa16 (regOf f.a) (regOf f.b) (regOf f.d)) else .ok (.rsa8 (regOf f.a) (regOf f.b) (regOf f.d))
  | 4, _ => if sizeBit f then .ok (.lsl16 (regOf f.a) (regOf f.b) (regOf f.d)) else .ok (.lsl8 (regOf f.a) (regOf f.b) (regOf f.d))
  | 5, _ => if sizeBit f then .ok (.rot16 (regOf f.a) (regOf f.b) (regOf f.d)) else .ok (.rot8 (regOf f.a) (regOf f.b) (regOf f.d))
  | 6, 0 => .ok (.cmpEq8 (regOf f.a) (regOf f.b) (flagOf f.d))
  | 6, 1 => .ok (.cmpEq16 (regOf f.a) (regOf f.b) (flagOf f.d))
  | 6, 2 => .ok (.cmpNe8 (regOf f.a) (regOf f.b) (flagOf f.d))
  | 6, 3 => .ok (.cmpNe16 (regOf f.a) (regOf f.b) (flagOf f.d))
  | 7, 0 => .ok (.cmpGt8 (regOf f.a) (regOf f.b) (flagOf f.d))
  | 7, 1 => .ok (.cmpGt16 (regOf f.a) (regOf f.b) (flagOf f.d))
  | 7, 2 => .ok (.cmpGe8 (regOf f.a) (regOf f.b) (flagOf f.d))
  | 7, 3 => .ok (.cmpGe16 (regOf f.a) (regOf f.b) (flagOf f.d))
  | 8, 0 => .ok (.cmpLt8 (regOf f.a) (regOf f.b) (flagOf f.d))
  | 8, 1 => .ok (.cmpLt16 (regOf f.a) (regOf f.b) (flagOf f.d))
  | 8, 2 => .ok (.cmpLe8 (regOf f.a) (regOf f.b) (flagOf f.d))
  | 8, 3 => .ok (.cmpLe16 (regOf f.a) (regOf f.b) (flagOf f.d))
  | 9, _ => if sizeBit f then .ok (.macHi (regOf f.a) (regOf f.b) (regOf f.d)) else .ok (.macLo (regOf f.a) (regOf f.b) (regOf f.d))
  | 10, _ => if sizeBit f then .ok (.mulHi (regOf f.a) (regOf f.b) (regOf f.d)) else .ok (.mulLo (regOf f.a) (regOf f.b) (regOf f.d))
  | 11, _ => if sizeBit f then .ok (.mixHi (regOf f.a) (regOf f.b) (regOf f.d)) else .ok (.mixLo (regOf f.a) (regOf f.b) (regOf f.d))
  | 12, _ => if sizeBit f then .ok (.muxHi (regOf f.a) (regOf f.b) (regOf f.d)) else .ok (.muxLo (regOf f.a) (regOf f.b) (regOf f.d))
  | 13, 0 => .ok (.andW (regOf f.a) (regOf f.b) (regOf f.d))
  | 13, 1 => .ok (.orW (regOf f.a) (regOf f.b) (regOf f.d))
  | 13, 2 => .ok (.xorW (regOf f.a) (regOf f.b) (regOf f.d))
  | 13, 3 => .ok (.notW (regOf f.a) (regOf f.d))
  | 14, 0 => .ok (.copyLo (regOf f.a) (regOf f.d))
  | 14, 1 => .ok (.copyHi (regOf f.a) (regOf f.d))
  | 14, 2 => .ok (.swap (regOf f.a) (regOf f.d))
  | 14, 3 => .ok (.swap (regOf f.a) (regOf f.d))
  | 15, 0 => .ok (.lw (regOf f.a) (regOf f.d))
  | 15, 1 => .ok (.lwi (regOf f.a) (regOf f.d))
  | 15, 2 => .ok (.lwd (regOf f.a) (regOf f.d))
  | 16, 0 => .ok (.sw (regOf f.a) (regOf f.b))
  | 16, 1 => .ok (.swi (regOf f.a) (regOf f.b))
  | 16, 2 => .ok (.swd (regOf f.a) (regOf f.b))
  | 17, _ => if sizeBit f then .ok (.write (portOf f.a) (flagOf f.b) (regOf f.d)) else .ok (.read (portOf f.a) (flagOf f.b) (regOf f.d))
  | 18, 0 => .ok (.wait (maskField f) (pairField f))
  | 18, 1 => .ok .kill
  | 18, 2 => .ok (.init (regOf f.a) (pairField f))
  | 19, _ => if sizeBit f then .ok .jmpSpr1 else .ok (.jmpr (regOf f.a) (flagOf f.d))
  | 20, _ => .ok (.jalr (regOf f.a) (flagOf f.d))
  | 21, _ => .ok (.jmpi (imm8Of f).toInt (flagOf f.d))
  | 22, _ => .ok (.jali (imm8Of f).toInt (flagOf f.d))
  | 23, _ => .ok (.liHi (imm8Of f) (regOf f.d))
  | 24, _ => .ok (.liLo (imm8Of f) (regOf f.d))
  | 25, 0 => .ok (.getFlag (regOf f.d))
  | 25, 1 => .ok (.getSpr1 (regOf f.d))
  | 25, 2 => .ok (.getSpr2 (regOf f.d))
  | 25, 3 => .ok (.getExr (regOf f.d))
  | 26, 0 => .ok (.getWaitReg (regOf f.d))
  | 26, 1 => .ok (.getTar (regOf f.d))
  | 26, 2 => .ok (.getWs (regOf f.d))
  | 26, 3 => .ok (.getIntr (regOf f.d))
  | 27, 0 => .ok (.putFlag (regOf f.a))
  | 27, 1 => .ok (.putSpr1 (regOf f.a))
  | 27, 2 => .ok (.putDebug (bitField f))
  | 27, 3 => .ok (.putIntrMask (bitField f))
  | 28, 0 => .ok (.addi8 (regOf f.a) f.b (regOf f.d))
  | 28, 1 => .ok (.addi16 (regOf f.a) f.b (regOf f.d))
  | 28, 2 => .ok (.subi8 (regOf f.a) f.b (regOf f.d))
  | 28, 3 => .ok (.subi16 (regOf f.a) f.b (regOf f.d))
  | 29, 0 => .ok (.getThread (regOf f.d))
  | 30, 0 => .ok (.swft (regOf f.a) (regOf f.b) (regOf f.d))
  | 30, 1 => .ok (.swsg (regOf f.a) (regOf f.b) (regOf f.d))
  | 30, 2 => .ok (.swsgi (regOf f.a) (regOf f.b) (regOf f.d))
  | 30, 3 => .ok (.swsgd (regOf f.a) (regOf f.b) (regOf f.d))
  | 31, _ => .ok .nop
  | op, sub => .error (.unassigned op sub)

/-- The decoder on one instruction word, total (R102). -/
def decodeWord (w : Word) : Except DecodeError Instr := decodeFields (fieldsOf w)

/-- The decoder on any bytes of an image in a byte order: the instruction and the bytes left over. -/
def decodeBytes (o : ByteOrder) : List Byte → Except DecodeError (Instr × List Byte)
  | b0 :: b1 :: rest =>
    match decodeWord (wordOfBytes o b0 b1) with
    | .ok i => .ok (i, rest)
    | .error e => .error e
  | short => .error (.truncated short.length)

/-! ## The encoder (R92, R98) -/

/-- Fields from an opcode, a sub-op and the three low fields. -/
def mkFields (op : BitVec 5) (sub : BitVec 2) (a b d : BitVec 3) : Fields := ⟨op, sub, a, b, d⟩

/-- Fields of a format with IMM8 in bits 10:3. -/
def imm8Fields (op : BitVec 5) (imm : Byte) (d : BitVec 3) : Fields :=
  ⟨op, imm.extractLsb' 6 2, imm.extractLsb' 3 3, imm.extractLsb' 0 3, d⟩

/-- Bits 5:3 of an INIT: a don't-care and IMM2. -/
def pairBits (n : Fin 4) : BitVec 3 := 0#1 ++ (BitVec.ofFin n : BitVec 2)

/-- Bits 5:3 of a PUT with an immediate: two don't-cares and IMM1. -/
def lowBit (b : Bool) : BitVec 3 := 0#2 ++ BitVec.ofBool b

/-- The fields of an instruction, every don't-care bit 0. -/
def encodeFields : Instr → Fields
  | .add8 ra rb rd => mkFields 0 0 (numField ra) (numField rb) (numField rd)
  | .add16 ra rb rd => mkFields 0 1 (numField ra) (numField rb) (numField rd)
  | .sub8 ra rb rd => mkFields 0 2 (numField ra) (numField rb) (numField rd)
  | .sub16 ra rb rd => mkFields 0 3 (numField ra) (numField rb) (numField rd)
  | .avg8 ra rb rd => mkFields 1 0 (numField ra) (numField rb) (numField rd)
  | .avg16 ra rb rd => mkFields 1 1 (numField ra) (numField rb) (numField rd)
  | .savg8 ra rb rd => mkFields 1 2 (numField ra) (numField rb) (numField rd)
  | .savg16 ra rb rd => mkFields 1 3 (numField ra) (numField rb) (numField rd)
  | .rsl8 ra rb rd => mkFields 2 0 (numField ra) (numField rb) (numField rd)
  | .rsl16 ra rb rd => mkFields 2 1 (numField ra) (numField rb) (numField rd)
  | .rsa8 ra rb rd => mkFields 3 0 (numField ra) (numField rb) (numField rd)
  | .rsa16 ra rb rd => mkFields 3 1 (numField ra) (numField rb) (numField rd)
  | .lsl8 ra rb rd => mkFields 4 0 (numField ra) (numField rb) (numField rd)
  | .lsl16 ra rb rd => mkFields 4 1 (numField ra) (numField rb) (numField rd)
  | .rot8 ra rb rd => mkFields 5 0 (numField ra) (numField rb) (numField rd)
  | .rot16 ra rb rd => mkFields 5 1 (numField ra) (numField rb) (numField rd)
  | .cmpEq8 ra rb cb => mkFields 6 0 (numField ra) (numField rb) (numField cb)
  | .cmpEq16 ra rb cb => mkFields 6 1 (numField ra) (numField rb) (numField cb)
  | .cmpNe8 ra rb cb => mkFields 6 2 (numField ra) (numField rb) (numField cb)
  | .cmpNe16 ra rb cb => mkFields 6 3 (numField ra) (numField rb) (numField cb)
  | .cmpGt8 ra rb cb => mkFields 7 0 (numField ra) (numField rb) (numField cb)
  | .cmpGt16 ra rb cb => mkFields 7 1 (numField ra) (numField rb) (numField cb)
  | .cmpGe8 ra rb cb => mkFields 7 2 (numField ra) (numField rb) (numField cb)
  | .cmpGe16 ra rb cb => mkFields 7 3 (numField ra) (numField rb) (numField cb)
  | .cmpLt8 ra rb cb => mkFields 8 0 (numField ra) (numField rb) (numField cb)
  | .cmpLt16 ra rb cb => mkFields 8 1 (numField ra) (numField rb) (numField cb)
  | .cmpLe8 ra rb cb => mkFields 8 2 (numField ra) (numField rb) (numField cb)
  | .cmpLe16 ra rb cb => mkFields 8 3 (numField ra) (numField rb) (numField cb)
  | .macLo ra rb rd => mkFields 9 0 (numField ra) (numField rb) (numField rd)
  | .macHi ra rb rd => mkFields 9 1 (numField ra) (numField rb) (numField rd)
  | .mulLo ra rb rd => mkFields 10 0 (numField ra) (numField rb) (numField rd)
  | .mulHi ra rb rd => mkFields 10 1 (numField ra) (numField rb) (numField rd)
  | .mixLo ra rb rd => mkFields 11 0 (numField ra) (numField rb) (numField rd)
  | .mixHi ra rb rd => mkFields 11 1 (numField ra) (numField rb) (numField rd)
  | .muxLo ra rb rd => mkFields 12 0 (numField ra) (numField rb) (numField rd)
  | .muxHi ra rb rd => mkFields 12 1 (numField ra) (numField rb) (numField rd)
  | .andW ra rb rd => mkFields 13 0 (numField ra) (numField rb) (numField rd)
  | .orW ra rb rd => mkFields 13 1 (numField ra) (numField rb) (numField rd)
  | .xorW ra rb rd => mkFields 13 2 (numField ra) (numField rb) (numField rd)
  | .notW ra rd => mkFields 13 3 (numField ra) 0 (numField rd)
  | .copyLo ra rd => mkFields 14 0 (numField ra) 0 (numField rd)
  | .copyHi ra rd => mkFields 14 1 (numField ra) 0 (numField rd)
  | .swap ra rd => mkFields 14 2 (numField ra) 0 (numField rd)
  | .lw ra rd => mkFields 15 0 (numField ra) 0 (numField rd)
  | .lwi ra rd => mkFields 15 1 (numField ra) 0 (numField rd)
  | .lwd ra rd => mkFields 15 2 (numField ra) 0 (numField rd)
  | .sw ra rb => mkFields 16 0 (numField ra) (numField rb) 0
  | .swi ra rb => mkFields 16 1 (numField ra) (numField rb) 0
  | .swd ra rb => mkFields 16 2 (numField ra) (numField rb) 0
  | .read port cb rd => mkFields 17 0 (numField port) (numField cb) (numField rd)
  | .write port cb rd => mkFields 17 1 (numField port) (numField cb) (numField rd)
  | .wait mask point => mkFields 18 0 (mask.extractLsb' 1 3) (mask.extractLsb' 0 1 ++ (BitVec.ofFin point : BitVec 2)) 0
  | .kill => mkFields 18 1 0 0 0
  | .init ra target => mkFields 18 2 (numField ra) (pairBits target) 0
  | .jmpr ra cb => mkFields 19 0 (numField ra) 0 (numField cb)
  | .jmpSpr1 => mkFields 19 1 0 0 0
  | .jalr ra cb => mkFields 20 0 (numField ra) 0 (numField cb)
  | .jmpi offset cb => imm8Fields 21 (BitVec.ofInt 8 offset) (numField cb)
  | .jali offset cb => imm8Fields 22 (BitVec.ofInt 8 offset) (numField cb)
  | .liHi imm rd => imm8Fields 23 imm (numField rd)
  | .liLo imm rd => imm8Fields 24 imm (numField rd)
  | .getFlag rd => mkFields 25 0 0 0 (numField rd)
  | .getSpr1 rd => mkFields 25 1 0 0 (numField rd)
  | .getSpr2 rd => mkFields 25 2 0 0 (numField rd)
  | .getExr rd => mkFields 25 3 0 0 (numField rd)
  | .getWaitReg rd => mkFields 26 0 0 0 (numField rd)
  | .getTar rd => mkFields 26 1 0 0 (numField rd)
  | .getWs rd => mkFields 26 2 0 0 (numField rd)
  | .getIntr rd => mkFields 26 3 0 0 (numField rd)
  | .putFlag ra => mkFields 27 0 (numField ra) 0 0
  | .putSpr1 ra => mkFields 27 1 (numField ra) 0 0
  | .putDebug value => mkFields 27 2 0 (lowBit value) 0
  | .putIntrMask value => mkFields 27 3 0 (lowBit value) 0
  | .addi8 ra imm rd => mkFields 28 0 (numField ra) imm (numField rd)
  | .addi16 ra imm rd => mkFields 28 1 (numField ra) imm (numField rd)
  | .subi8 ra imm rd => mkFields 28 2 (numField ra) imm (numField rd)
  | .subi16 ra imm rd => mkFields 28 3 (numField ra) imm (numField rd)
  | .getThread rd => mkFields 29 0 0 0 (numField rd)
  | .swft ra rb rd => mkFields 30 0 (numField ra) (numField rb) (numField rd)
  | .swsg ra rb rd => mkFields 30 1 (numField ra) (numField rb) (numField rd)
  | .swsgi ra rb rd => mkFields 30 2 (numField ra) (numField rb) (numField rd)
  | .swsgd ra rb rd => mkFields 30 3 (numField ra) (numField rb) (numField rd)
  | .nop => mkFields 31 0 0 0 0

/-- The word of an instruction (of a well-formed one: the word that decodes to it). -/
def encodeWord (i : Instr) : Word := wordOf (encodeFields i)

/-- The words of a well-formed instruction: one 16-bit word (R90). -/
def encode (i : Instr) : List Word := [encodeWord i]

/-- The bytes of an instruction in an image of a byte order, the lower address first. -/
def encodeBytes (o : ByteOrder) (i : Instr) : List Byte :=
  let p := bytesOfWord o (encodeWord i)
  [p.1, p.2]

/-! ## The encoding table (R98) -/

/-- A row of the encoding table: a word `w` is the instruction exactly when `w &&& mask = value`. -/
structure Row where
  mnemonic : String
  value : Word
  mask : Word
deriving DecidableEq, Repr

/-- The row of R98 (of spec/opcode_table.json) an instruction belongs to. -/
def rowOf : Instr → Row
  | .add8 _ _ _ => ⟨"ADD.8", 0x0000, 0xFE00⟩
  | .add16 _ _ _ => ⟨"ADD.16", 0x0200, 0xFE00⟩
  | .sub8 _ _ _ => ⟨"SUB.8", 0x0400, 0xFE00⟩
  | .sub16 _ _ _ => ⟨"SUB.16", 0x0600, 0xFE00⟩
  | .avg8 _ _ _ => ⟨"AVG.8", 0x0800, 0xFE00⟩
  | .avg16 _ _ _ => ⟨"AVG.16", 0x0A00, 0xFE00⟩
  | .savg8 _ _ _ => ⟨"SAVG.8", 0x0C00, 0xFE00⟩
  | .savg16 _ _ _ => ⟨"SAVG.16", 0x0E00, 0xFE00⟩
  | .rsl8 _ _ _ => ⟨"RSL.8", 0x1000, 0xFA00⟩
  | .rsl16 _ _ _ => ⟨"RSL.16", 0x1200, 0xFA00⟩
  | .rsa8 _ _ _ => ⟨"RSA.8", 0x1800, 0xFA00⟩
  | .rsa16 _ _ _ => ⟨"RSA.16", 0x1A00, 0xFA00⟩
  | .lsl8 _ _ _ => ⟨"LSL.8", 0x2000, 0xFA00⟩
  | .lsl16 _ _ _ => ⟨"LSL.16", 0x2200, 0xFA00⟩
  | .rot8 _ _ _ => ⟨"ROT.8", 0x2800, 0xFA00⟩
  | .rot16 _ _ _ => ⟨"ROT.16", 0x2A00, 0xFA00⟩
  | .cmpEq8 _ _ _ => ⟨"CMP.EQ.8", 0x3000, 0xFE00⟩
  | .cmpEq16 _ _ _ => ⟨"CMP.EQ.16", 0x3200, 0xFE00⟩
  | .cmpNe8 _ _ _ => ⟨"CMP.NE.8", 0x3400, 0xFE00⟩
  | .cmpNe16 _ _ _ => ⟨"CMP.NE.16", 0x3600, 0xFE00⟩
  | .cmpGt8 _ _ _ => ⟨"CMP.GT.8", 0x3800, 0xFE00⟩
  | .cmpGt16 _ _ _ => ⟨"CMP.GT.16", 0x3A00, 0xFE00⟩
  | .cmpGe8 _ _ _ => ⟨"CMP.GE.8", 0x3C00, 0xFE00⟩
  | .cmpGe16 _ _ _ => ⟨"CMP.GE.16", 0x3E00, 0xFE00⟩
  | .cmpLt8 _ _ _ => ⟨"CMP.LT.8", 0x4000, 0xFE00⟩
  | .cmpLt16 _ _ _ => ⟨"CMP.LT.16", 0x4200, 0xFE00⟩
  | .cmpLe8 _ _ _ => ⟨"CMP.LE.8", 0x4400, 0xFE00⟩
  | .cmpLe16 _ _ _ => ⟨"CMP.LE.16", 0x4600, 0xFE00⟩
  | .macLo _ _ _ => ⟨"MAC.LO", 0x4800, 0xFA00⟩
  | .macHi _ _ _ => ⟨"MAC.HI", 0x4A00, 0xFA00⟩
  | .mulLo _ _ _ => ⟨"MUL.LO", 0x5000, 0xFA00⟩
  | .mulHi _ _ _ => ⟨"MUL.HI", 0x5200, 0xFA00⟩
  | .mixLo _ _ _ => ⟨"MIX.LO", 0x5800, 0xFA00⟩
  | .mixHi _ _ _ => ⟨"MIX.HI", 0x5A00, 0xFA00⟩
  | .muxLo _ _ _ => ⟨"MUX.LO", 0x6000, 0xFA00⟩
  | .muxHi _ _ _ => ⟨"MUX.HI", 0x6200, 0xFA00⟩
  | .andW _ _ _ => ⟨"AND", 0x6800, 0xFE00⟩
  | .orW _ _ _ => ⟨"OR", 0x6A00, 0xFE00⟩
  | .xorW _ _ _ => ⟨"XOR", 0x6C00, 0xFE00⟩
  | .notW _ _ => ⟨"NOT", 0x6E00, 0xFE00⟩
  | .copyLo _ _ => ⟨"COPY.LO", 0x7000, 0xFE00⟩
  | .copyHi _ _ => ⟨"COPY.HI", 0x7200, 0xFE00⟩
  | .swap _ _ => ⟨"SWAP", 0x7400, 0xFC00⟩
  | .lw _ _ => ⟨"LW", 0x7800, 0xFE00⟩
  | .lwi _ _ => ⟨"LWI", 0x7A00, 0xFE00⟩
  | .lwd _ _ => ⟨"LWD", 0x7C00, 0xFE00⟩
  | .sw _ _ => ⟨"SW", 0x8000, 0xFE00⟩
  | .swi _ _ => ⟨"SWI", 0x8200, 0xFE00⟩
  | .swd _ _ => ⟨"SWD", 0x8400, 0xFE00⟩
  | .read _ _ _ => ⟨"READ", 0x8800, 0xFA00⟩
  | .write _ _ _ => ⟨"WRITE", 0x8A00, 0xFA00⟩
  | .wait _ _ => ⟨"WAIT", 0x9000, 0xFE00⟩
  | .kill => ⟨"KILL", 0x9200, 0xFE00⟩
  | .init _ _ => ⟨"INIT", 0x9400, 0xFE00⟩
  | .jmpr _ _ => ⟨"JMPR", 0x9800, 0xFA00⟩
  | .jmpSpr1 => ⟨"JMP.SPR1", 0x9A00, 0xFA00⟩
  | .jalr _ _ => ⟨"JALR", 0xA000, 0xF800⟩
  | .jmpi _ _ => ⟨"JMPI", 0xA800, 0xF800⟩
  | .jali _ _ => ⟨"JALI", 0xB000, 0xF800⟩
  | .liHi _ _ => ⟨"LI.HI", 0xB800, 0xF800⟩
  | .liLo _ _ => ⟨"LI.LO", 0xC000, 0xF800⟩
  | .getFlag _ => ⟨"GET.FLAG", 0xC800, 0xFE00⟩
  | .getSpr1 _ => ⟨"GET.SPR1", 0xCA00, 0xFE00⟩
  | .getSpr2 _ => ⟨"GET.SPR2", 0xCC00, 0xFE00⟩
  | .getExr _ => ⟨"GET.EXR", 0xCE00, 0xFE00⟩
  | .getWaitReg _ => ⟨"GET.WAIT_REG", 0xD000, 0xFE00⟩
  | .getTar _ => ⟨"GET.TAR", 0xD200, 0xFE00⟩
  | .getWs _ => ⟨"GET.WS", 0xD400, 0xFE00⟩
  | .getIntr _ => ⟨"GET.INTR", 0xD600, 0xFE00⟩
  | .putFlag _ => ⟨"PUT.FLAG", 0xD800, 0xFE00⟩
  | .putSpr1 _ => ⟨"PUT.SPR1", 0xDA00, 0xFE00⟩
  | .putDebug _ => ⟨"PUT.DEBUG", 0xDC00, 0xFE00⟩
  | .putIntrMask _ => ⟨"PUT.INTRMASK", 0xDE00, 0xFE00⟩
  | .addi8 _ _ _ => ⟨"ADDI.8", 0xE000, 0xFE00⟩
  | .addi16 _ _ _ => ⟨"ADDI.16", 0xE200, 0xFE00⟩
  | .subi8 _ _ _ => ⟨"SUBI.8", 0xE400, 0xFE00⟩
  | .subi16 _ _ _ => ⟨"SUBI.16", 0xE600, 0xFE00⟩
  | .getThread _ => ⟨"GET.THREAD", 0xE800, 0xFE00⟩
  | .swft _ _ _ => ⟨"SWFT", 0xF000, 0xFE00⟩
  | .swsg _ _ _ => ⟨"SWSG", 0xF200, 0xFE00⟩
  | .swsgi _ _ _ => ⟨"SWSGI", 0xF400, 0xFE00⟩
  | .swsgd _ _ _ => ⟨"SWSGD", 0xF600, 0xFE00⟩
  | .nop => ⟨"NOP", 0xF800, 0xF800⟩

/-! ## The host's question -/

/-- The instruction the decoder reads from a word of `nbits` bits laid out in a byte order. -/
def decodeLaidOut (o : ByteOrder) (nbits w : Nat) : Option Instr :=
  let p := bytesOfWord o (BitVec.ofNat 16 (w % 2 ^ nbits))
  match decodeBytes o [p.1, p.2] with
  | .ok (i, _) => some i
  | .error _ => none

/-- The instruction the decoder reads from a table row's word `w` of `nbits` bits (16 for every row). The word is
laid out in one byte order here; every byte order gives the same answer (`decodeLaidOut_eq`, log 1). -/
def decodeTableWord (nbits w : Nat) : Option Instr := decodeLaidOut .little nbits w

end Sys2Proof
end

