-- ==== Sys2Proof/Machine/State.lean ====
section
/-!
DEFINITION. The state of WIMP as plain data (spec/10_state.md), the reasons a step can stop, and the
state right after reset (R40). Definitions of this file hold no behaviour: every read and write goes
through the operations of Sys2Proof/Machine/Ops.lean.
-/

namespace Sys2Proof.Machine

/-- The program/data memory: the bytes something has stored, in strictly rising address order (R38,
R60). A byte that is not listed has no stored value and reads as `Config.powerOnByte` (log 2). -/
abbrev Memory := List Host.Cell

/-- The five exceptions; the number of each is its bit in EXR (R28, R301). -/
inductive Exc where
  | illegalInstruction
  | unalignedAddress
  | illegalAddress
  | initThread
  | illegalWait
deriving DecidableEq, Repr

/-- The private state of one hardware thread (R20 to R33). -/
structure Thread where
  /-- R0 to R7 (R21). -/
  regs : Vector Word 8
  /-- The program counter (R24). -/
  pc : Word
  /-- FLAG; bit 0 is hard-wired to 1 (R26). -/
  flag : BitVec 8
  /-- The exception register (R28). -/
  exr : Word
  /-- Return address of an interrupt (R29). -/
  spr1 : Word
  /-- Address of the instruction that raised (R30). -/
  spr2 : Word
  /-- ISR address latched at acknowledgement (R31). -/
  intr : Word
  /-- R0 is writable (R32). -/
  debug : Bool
  /-- INTRMASK (R33). -/
  imask : Bool
deriving DecidableEq, Repr

/-- A row of the Wait State register (R36): is the thread stalled, and at which point. -/
structure WaitState where
  w : Bool
  s : Point
deriving DecidableEq, Repr

/-- One write to Video RAM: selector, offset, value (R78). -/
structure VramWrite where
  sel : BitVec 2
  off : Word
  val : Word
deriving DecidableEq, Repr

/-- An INIT that has executed and whose target has not yet become active (R39 b, R236). -/
structure Activation where
  target : Tid
  initiator : Tid
deriving DecidableEq, Repr

/-- What a device can do between two cycles (R83, R311). -/
inductive DeviceMove where
  /-- An input device appends a word to an input queue. -/
  | offer (p : Port) (v : Word)
  /-- An output device removes the oldest word of an output queue. -/
  | drain (p : Port)
  /-- An interrupting device raises a request for a thread with its ISR address. -/
  | request (u : Tid) (isr : Word)
deriving DecidableEq, Repr

/-- The whole machine at the boundary between two clock cycles. -/
structure State where
  /-- The four threads' private state (R20). -/
  threads : Vector Thread 4
  /-- Thread Active Register: bit u is thread u (R34). -/
  tar : BitVec 4
  /-- WAIT_REG: row S holds the threads still awaited at point S (R35). -/
  wr : Vector (BitVec 4) 4
  /-- WS: one row for each thread (R36). -/
  ws : Vector WaitState 4
  /-- Program/data memory (R38, R60). -/
  mem : Memory
  /-- Input queues, oldest word first (R82). -/
  inq : Vector (List Word) 8
  /-- Output queues, oldest word first (R81). -/
  outq : Vector (List Word) 8
  /-- The words each output port's device has taken, oldest first: with `outq` the sequence of words the port
  received, which a host can observe (R83, R365). -/
  taken : Vector (List Word) 8
  /-- Video RAM writes, oldest first (R78). -/
  vram : List VramWrite
  /-- Pending interrupt requests with their ISR addresses (R39 a, R311). -/
  irq : Vector (Option Word) 4
  /-- The activation an INIT left pending (R39 b, R236). -/
  activation : Option Activation
  /-- The thread the next clock cycle belongs to (R39 c, R360). -/
  turn : Tid
  /-- The model's own: device moves to come, one list for each coming cycle (log 7). -/
  inputs : List (List DeviceMove)
  /-- The model's own: how many free choices of an interrupt boundary were made (log 6). -/
  freeTicks : Nat
deriving DecidableEq, Repr

/-- What a host can observe of a run (R365): memory, the sequence of words each output port received, the
sequence of Video RAM writes, and the registers of each thread. -/
structure Observed where
  mem : Memory
  received : Vector (List Word) 8
  vram : List VramWrite
  threads : Vector Thread 4
deriving DecidableEq, Repr

/-- Why a step stops the machine where the spec calls it a fault that is none of the five exceptions. -/
inductive Fault where
  /-- Raised by a step whose thread would fetch at an odd pc (R72, D23, U9). Safe: the spec gives such a
  fetch no meaning. -/
  | fetchOdd
  /-- Raised by a step whose thread would fetch at an even pc of 0x8000 or above (R72, D23, U9). Safe:
  the spec gives such a fetch no meaning. -/
  | fetchOutsideProgramMemory
deriving DecidableEq, Repr

/-- Why an instruction has no successor state: executions to which the spec gives no result. -/
inductive Refusal where
  /-- An instruction whose meaning is not written; raised by no instruction of this model. Safe. -/
  | notModelled (mnemonic : String)
  /-- LWI or LWD with RA = RD naming a writable register: two writes, no stated winner (R195, U8). Safe:
  the spec gives no result. -/
  | loadIntoItsAddress
  /-- SWSG, SWSGI or SWSGD with x[RD] other than 0, 1 or 2 (R209, U5). Safe: the spec gives no result. -/
  | videoSelector
  /-- WAIT whose mask names only active threads but not the executing one (R227 case (i), U6). Safe: the
  spec gives no result. -/
  | waitWithoutSelf
  /-- WAIT at a point whose barrier in progress does not await the executing thread or has another mask
  (R227 case (ii), U7). Safe: the spec gives no result. -/
  | waitBarrierMismatch
  /-- INIT while an activation is pending (R237, U1, U2): "undefined", "unpredictable". Safe. -/
  | concurrentInit
deriving DecidableEq, Repr

/-- A thread after system reset (R40). R1 to R7, FLAG[7:1], SPR1, SPR2 and INTR are unspecified there;
DESIGN CHOICE (log 3), unsafe: zero. -/
def Thread.reset : Thread where
  regs := Vector.replicate 8 0
  pc := 0
  flag := 1
  exr := 0
  spr1 := 0
  spr2 := 0
  intr := 0
  debug := false
  imask := false

/-- The machine after system reset (R40): thread 0 active at 0x0000, nothing pending, queues empty, no
memory listed, the first cycle thread 0's. -/
def State.reset : State where
  threads := Vector.replicate 4 Thread.reset
  tar := 1
  wr := Vector.replicate 4 0
  ws := Vector.replicate 4 ⟨false, 0⟩
  mem := []
  inq := Vector.replicate 8 []
  outq := Vector.replicate 8 []
  taken := Vector.replicate 8 []
  vram := []
  irq := Vector.replicate 4 none
  activation := none
  turn := 0
  inputs := []
  freeTicks := 0

end Sys2Proof.Machine
end

