-- ==== Sys2Proof/Machine/Ops.lean ====
section
/-!
DEFINITION. The named operations of the machine: memory and its protection, registers and FLAG of a
thread, ports, Video RAM, exception entry and its counterpart for interrupts, the return from an
interrupt, and the ways an instruction ends (spec/00_scope.md R8 to R13, spec/20_memory.md,
spec/60_exceptions.md R305, R315, R317).
-/

namespace Sys2Proof.Machine

/-- What one instruction, or one clock cycle, leads to. -/
abbrev Result := Host.Outcome State Fault Refusal

/-- Continue a result that has a next state. -/
def onNext (f : State → Result) : Result → Result
  | .next s => f s
  | .fault r => .fault r
  | .refused r => .refused r

/-! ## Memory (R11, R60 to R64) -/

/-- Addresses strictly rise from `lo` and lie in the 64 KiB space (R60). -/
def Memory.wfFrom (lo : Nat) : Memory → Bool
  | [] => true
  | (k, _) :: rest => decide (lo ≤ k) && decide (k < 65536) && Memory.wfFrom (k + 1) rest

/-- The canonical form of a memory: each stored byte listed once, in rising address order. -/
def Memory.wf (m : Memory) : Bool := Memory.wfFrom 0 m

/-- The stored byte at an address, if something has stored one. -/
def Memory.stored : Memory → Nat → Option Byte
  | [], _ => none
  | (k, v) :: rest, a => if a = k then some v else Memory.stored rest a

/-- The byte at an address; a byte nothing has written holds any value (R40, U11, log 2). -/
def Memory.readByte (m : Memory) (a : Nat) : Byte :=
  match Memory.stored m a with
  | some v => v
  | none => Config.powerOnByte a

/-- Store a byte, keeping the canonical form. -/
def Memory.writeByte (a : Nat) (b : Byte) : Memory → Memory
  | [] => [(a, b)]
  | (k, v) :: rest =>
    if a < k then (a, b) :: (k, v) :: rest
    else if a = k then (a, b) :: rest
    else (k, v) :: Memory.writeByte a b rest

/-- The even address of the aligned word an address lies in: memory is words indexed by `a[15:1]` (R64). -/
def wordBase (a : Word) : Nat := 2 * (a.toNat / 2)

/-- `MemRead(a, 2)` (R11). Memory is words (R64): entry 2k of the list is the less significant byte of the word at
address 2k and entry 2k + 1 the more significant one, whatever `BYTE_ORDER` is (log 1). -/
def Memory.readWord (m : Memory) (a : Word) : Word :=
  Memory.readByte m (wordBase a + 1) ++ Memory.readByte m (wordBase a)

/-- `MemWrite(a, 2, v)` (R11). -/
def Memory.writeWord (m : Memory) (a v : Word) : Memory :=
  Memory.writeByte (wordBase a + 1) (v.extractLsb' 8 8)
    (Memory.writeByte (wordBase a) (v.extractLsb' 0 8) m)

/-- The word at an address. -/
def State.loadWord (s : State) (a : Word) : Word := Memory.readWord s.mem a

/-- The state with a word stored at an address. -/
def State.storeWord (s : State) (a v : Word) : State := { s with mem := Memory.writeWord s.mem a v }

/-! ## Byte images (R64, R352): the only place where `BYTE_ORDER` is seen -/

/-- The entry of memory that is the byte at byte address `a` of an image in a byte order. -/
def byteCell (o : ByteOrder) (a : Nat) : Nat :=
  match o with
  | .little => a
  | .big => if a % 2 = 0 then a + 1 else a - 1

/-- The byte at byte address `a` of the image of a memory in a byte order. -/
def Memory.imageByte (o : ByteOrder) (m : Memory) (a : Nat) : Byte := Memory.readByte m (byteCell o a)

/-- The byte at byte address `a` as the machine's own `BYTE_ORDER` has it. -/
def State.imageByte (s : State) (a : Word) : Byte := Memory.imageByte Config.byteOrder s.mem a.toNat

/-- The platform loads a byte image from address `a` on, in the machine's own `BYTE_ORDER` (R352). -/
def State.loadImage (s : State) (a : Word) : List Byte → State
  | [] => s
  | b :: rest =>
    { s with mem := Memory.writeByte (byteCell Config.byteOrder a.toNat) b s.mem }.loadImage (a + 1) rest

/-- An address that is not word-aligned: `a[0] = 1` (R63). -/
def isOdd (a : Word) : Bool := a.getLsbD 0

/-- `StoreIllegal(pc, a)` of R70: a target below 0x4000, or below 0x8000 from code at 0x4000 or above. -/
def storeIllegal (pc a : Word) : Bool :=
  a.extractLsb' 14 2 == 0b00#2 || (a.extractLsb' 14 2 == 0b01#2 && pc.extractLsb' 14 2 != 0b00#2)

/-! ## A thread's registers and program counter (R9, R21 to R25) -/

/-- `x[r]`: the stored value of a general register (R9). -/
def Thread.readReg (th : Thread) (r : RegNum) : Word := th.regs[r]

/-- R0 is writable only while DEBUG is 1, the others always (R9, R22). -/
def Thread.writable (th : Thread) (r : RegNum) : Bool := r != 0 || th.debug

/-- `x[r] <- v`; a write to R0 with DEBUG = 0 is dropped (R9, R22). -/
def Thread.writeReg (th : Thread) (r : RegNum) (v : Word) : Thread :=
  { th with regs := if th.writable r then th.regs.set r v else th.regs }

/-- `pc <- pc + 2` (R25). -/
def Thread.advance (th : Thread) : Thread := { th with pc := th.pc + 2 }

/-- `pc <- a`. -/
def Thread.jumpTo (th : Thread) (a : Word) : Thread := { th with pc := a }

/-! ## FLAG (R10, R26) -/

/-- `flag[i]`; bit 0 always reads 1. -/
def Thread.readFlag (th : Thread) (i : FlagNum) : Bool := i == 0 || th.flag.getLsbD i

/-- The byte with bit `i` set to `b`. -/
def setBit (x : BitVec 8) (i : Fin 8) (b : Bool) : BitVec 8 :=
  if b then x ||| (1#8 <<< i.val) else x &&& ~~~(1#8 <<< i.val)

/-- `flag[i] <- b`; no effect for i = 0. -/
def Thread.writeFlag (th : Thread) (i : FlagNum) (b : Bool) : Thread :=
  { th with flag := if i = 0 then th.flag else setBit th.flag i b }

/-- The whole register as GET.FLAG sees it: bit 0 reads 1 (R26, R261). -/
def Thread.flagByte (th : Thread) : Byte := th.flag ||| 1#8

/-- `flag[7:1] <- v[7:1]`; bit 0 stays 1 (R274). -/
def Thread.putFlags (th : Thread) (v : Byte) : Thread := { th with flag := v ||| 1#8 }

/-! ## Threads of the machine (R8) -/

/-- A thread's private state. -/
def State.thread (s : State) (t : Tid) : Thread := s.threads[t]

/-- Replace a thread's private state. -/
def State.setThread (s : State) (t : Tid) (th : Thread) : State :=
  { s with threads := s.threads.set t th }

/-- The executing thread, the one the clock cycle belongs to (R8, R360). -/
def State.cur (s : State) : Thread := s.thread s.turn

/-- Change the executing thread's private state. -/
def State.updCur (s : State) (f : Thread → Thread) : State := s.setThread s.turn (f s.cur)

/-- `x[r]` of the executing thread. -/
def State.reg (s : State) (r : RegNum) : Word := s.cur.readReg r

/-- The instruction completes: the thread's own changes, then `pc <- pc + 2` (R13, R25). -/
def State.retire (s : State) (f : Thread → Thread) : Result :=
  .next (s.updCur fun th => (f th).advance)

/-- The instruction completes with one register written. -/
def State.retireReg (s : State) (rd : RegNum) (v : Word) : Result :=
  s.retire fun th => th.writeReg rd v

/-- Four bits, bit u from thread u. -/
def maskOf (f : Tid → Bool) : BitVec 4 :=
  BitVec.ofBool (f 3) ++ BitVec.ofBool (f 2) ++ BitVec.ofBool (f 1) ++ BitVec.ofBool (f 0)

/-- Four bits with thread t's bit cleared. -/
def clearBit (m : BitVec 4) (t : Tid) : BitVec 4 := m &&& ~~~(1#4 <<< t.val)

/-- Four bits with thread t's bit set. -/
def withBit (m : BitVec 4) (t : Tid) : BitVec 4 := m ||| (1#4 <<< t.val)

/-- `tar[u] = 1` (R34). -/
def State.active (s : State) (u : Tid) : Bool := s.tar.getLsbD u

/-- `ws[u].w = 1` (R36). -/
def State.stalled (s : State) (u : Tid) : Bool := s.ws[u].w

/-- Thread u is in `W(S)`, the threads stalled at point S (R227). -/
def State.stalledAt (s : State) (p : Point) (u : Tid) : Bool := s.ws[u].w && s.ws[u].s == p

/-- `W(S)` as four bits. -/
def State.stalledMask (s : State) (p : Point) : BitVec 4 := maskOf (s.stalledAt p)

/-- Active and not stalled: the thread executes in its cycle (R360). -/
def State.runnable (s : State) (u : Tid) : Bool := s.active u && !s.stalled u

/-- All threads dead and no activation pending (R232). -/
def State.halted (s : State) : Bool := s.tar == 0 && s.activation.isNone

/-! ## Exceptions (R13, R301 to R305) -/

/-- The bit of EXR an exception sets (R28, R301). -/
def Exc.code : Exc → Nat
  | .illegalInstruction => 0
  | .unalignedAddress => 1
  | .illegalAddress => 2
  | .initThread => 3
  | .illegalWait => 4

/-- The EXR bits of a set of exceptions (R305). -/
def excBits : List Exc → Word
  | [] => 0
  | e :: es => (1#16 <<< e.code) ||| excBits es

/-- The first address of thread t's exception handler: 0x0010 + 0x0400 t (R305, R326, D24). -/
def exceptionVector (t : Tid) : Word := 0x0010 + 0x0400 * BitVec.ofNat 16 t.val

/-- The first address of thread t's interrupt handler: 0x0100 + 0x0400 t (R315, R326, D25). -/
def interruptVector (t : Tid) : Word := 0x0100 + 0x0400 * BitVec.ofNat 16 t.val

/-- Exception entry of thread t with a set of exceptions (R305). -/
def Thread.enterException (t : Tid) (es : List Exc) (th : Thread) : Thread :=
  { th with
    exr := th.exr ||| excBits es
    spr2 := th.pc
    debug := true
    imask := true
    pc := exceptionVector t }

/-- `raise E` in the executing thread: exception entry and nothing else (R13, R304). -/
def State.raise (s : State) (es : List Exc) : State :=
  s.updCur (Thread.enterException s.turn es)

/-- An instruction that checks its conditions first: with any exception it raises them all together and
has no effect of its own (R13, R303, R304), else it goes on. -/
def State.guarded (s : State) (es : List Exc) (go : Result) : Result :=
  if es.isEmpty then go else .next (s.raise es)

/-- The exceptions of a word access for loads: an odd address (R195). -/
def loadExc (a : Word) : List Exc := if isOdd a then [.unalignedAddress] else []

/-- The exceptions of a store at `pc` to address `a` (R199, R200). -/
def storeExc (pc a : Word) : List Exc :=
  (if isOdd a then [.unalignedAddress] else []) ++ (if storeIllegal pc a then [.illegalAddress] else [])

/-- The exceptions of a taken jump to `a`: odd, or in data memory (R245). -/
def jumpExc (a : Word) : List Exc :=
  (if isOdd a then [.unalignedAddress] else []) ++ (if a.getLsbD 15 then [.illegalAddress] else [])

/-! ## Interrupts (R312 to R317) -/

/-- Interrupt entry of thread t with the ISR address of the request, the pc being already that of the
next instruction (R315). -/
def Thread.enterInterrupt (t : Tid) (isr : Word) (th : Thread) : Thread :=
  { th with
    intr := isr
    spr1 := th.pc
    debug := true
    imask := true
    pc := interruptVector t }

/-- Interrupt entry of the executing thread: acknowledge the request and enter (R314, R315). -/
def State.takeInterrupt (s : State) (isr : Word) : State :=
  { s.updCur (Thread.enterInterrupt s.turn isr) with irq := s.irq.set s.turn none }

/-- The return from an interrupt: pc from SPR1, mask cleared, nothing else (R253, R317). -/
def Thread.returnFromInterrupt (th : Thread) : Thread := { th with pc := th.spr1, imask := false }

/-! ## Ports and Video RAM (R12, R78, R80 to R82) -/

/-- `PortRead(p)`: the oldest word of an input queue and the state without it, or nothing. -/
def State.portRead (s : State) (p : Port) : Option (Word × State) :=
  match s.inq[p] with
  | [] => none
  | v :: rest => some (v, { s with inq := s.inq.set p rest })

/-- Whether an output queue has room: fewer than 256 entries (R81). -/
def State.portHasRoom (s : State) (p : Port) : Bool := decide (s.outq[p].length < Config.outQueueDepth)

/-- `PortWrite(p, v)`: append if there is room, else change nothing. -/
def State.portWrite (s : State) (p : Port) (v : Word) : State :=
  { s with outq := if s.portHasRoom p then s.outq.set p (s.outq[p] ++ [v]) else s.outq }

/-- The sequence of words an output port has received since reset (R365): those its device has taken and those
still queued. -/
def State.portReceived (s : State) (p : Port) : List Word := s.taken[p] ++ s.outq[p]

/-- `VramWrite(sel, off, v)` (R11, R78). -/
def State.vramWrite (s : State) (sel : BitVec 2) (off v : Word) : State :=
  { s with vram := s.vram ++ [⟨sel, off, v⟩] }

/-! ## What a run shows (R365) -/

/-- What a host can observe of the run so far (R365). -/
def State.observed (s : State) : Observed where
  mem := s.mem
  received := Vector.ofFn s.portReceived
  vram := s.vram
  threads := s.threads

end Sys2Proof.Machine
end

