-- ==== Sys2Proof/Machine/Cycle.lean ====
section
/-!
DEFINITION. What surrounds an instruction in a clock cycle (spec/70_reset_and_hazards.md R360): the moves
of the devices between cycles (spec/20_memory.md R83, spec/60_exceptions.md R311), the activation an INIT
left pending (spec/47_thread.md R236), the fetch (R72), the boundary at which an interrupt can be taken
(spec/60_exceptions.md R312, R313) and the rotation. Within a cycle they happen in that order (log 20).
-/

namespace Sys2Proof.Machine

/-! ## The devices -/

/-- A device move; one that is not possible changes nothing (R83, R311, log 18): an input queue that is
full, an output queue that is empty, a request where one is pending. A word an output device removes joins those
the device has taken. -/
def State.deviceMove (s : State) : DeviceMove → State
  | .offer p v =>
    { s with inq := if s.inq[p].length < Config.inQueueDepth then s.inq.set p (s.inq[p] ++ [v]) else s.inq }
  | .drain p =>
    { s with
      outq := s.outq.set p s.outq[p].tail
      taken := s.taken.set p (s.taken[p] ++ s.outq[p].take 1) }
  | .request u isr =>
    { s with irq := if s.irq[u].isNone then s.irq.set u (some isr) else s.irq }

/-- Device moves one after another. -/
def State.deviceMoves (s : State) : List DeviceMove → State
  | [] => s
  | m :: ms => (s.deviceMove m).deviceMoves ms

/-- The moves scheduled for this cycle happen and leave the list of moves to come (log 7). -/
def State.takeInputs (s : State) : State :=
  { s.deviceMoves (s.inputs.headD []) with inputs := s.inputs.tail }

/-! ## Activation (R236) -/

/-- The pending activation completes: the target's TAR bit is set and nothing is pending any more. -/
def State.completeActivation (s : State) : State :=
  match s.activation with
  | none => s
  | some p => { s with tar := withBit s.tar p.target, activation := none }

/-- The pending activation was made by the executing thread, in its last cycle: four cycles ago. -/
def State.activationDue (s : State) : Bool :=
  match s.activation with
  | none => false
  | some p => p.initiator == s.turn

/-- At the start of the initiator's next cycle the activation completes. -/
def State.activate (s : State) : State := if s.activationDue then s.completeActivation else s

/-- The start of a clock cycle: the devices' moves, then the activation that is due. -/
def State.beginCycle (s : State) : State := s.takeInputs.activate

/-! ## Fetch (R72) -/

/-- The fetch of the executing thread: the word at its pc, or the fault of a pc outside the rules. -/
def State.fetch (s : State) : Except Fault Word :=
  if isOdd s.cur.pc then .error .fetchOdd
  else if s.cur.pc.getLsbD 15 then .error .fetchOutsideProgramMemory
  else .ok (s.loadWord s.cur.pc)

/-! ## The interrupt boundary (R312, R313) -/

/-- The instructions at whose end no interrupt is taken: the five jumps and PUT.INTRMASK (R313, D40). -/
def holdsOff : Instr → Bool
  | .jmpr _ _ | .jalr _ _ | .jmpi _ _ | .jali _ _ | .jmpSpr1 | .putIntrMask _ => true
  | _ => false

/-- Conditions (c) to (f) of R312 after instruction i, for the executing thread. An instruction that
raised has set the mask, so (b) is part of (e) (R319). -/
def State.boundaryOpen (s : State) (i : Instr) : Bool :=
  s.runnable s.turn && !s.cur.imask && !holdsOff i

/-- The end of instruction i: a pending request may be taken at an open boundary or left for a later one,
as a free choice decides (R312, D26, log 6). -/
def State.boundary (s : State) (i : Instr) : State :=
  match s.irq[s.turn] with
  | none => s
  | some isr =>
    if s.boundaryOpen i then
      let s' := { s with freeTicks := s.freeTicks + 1 }
      if Config.interruptTaken s.freeTicks then s'.takeInterrupt isr else s'
    else s

/-! ## Rotation (R360) -/

/-- The thread after t in the rotation. -/
def nextTurn (t : Tid) : Tid := t + 1

/-- The cycle ends; the next one belongs to the next thread, dead and stalled threads included. -/
def State.rotate (s : State) : State := { s with turn := nextTurn s.turn }

end Sys2Proof.Machine
end

