-- ==== Sys2Proof/Machine/Operands.lean ====
section
/-!
DEFINITION. The operand forms: byte lanes (spec/00_scope.md R14), immediates (spec/30_encoding.md R95),
shift amounts (R140), source bytes of MIX and MUX (R175), jump targets (R245), the roles of the video
stores (R209).
-/

namespace Sys2Proof.Machine

/-- `lo(v) = v[7:0]` (R14). -/
def loByte (v : Word) : Byte := v.extractLsb' 0 8

/-- `hi(v) = v[15:8]` (R14). -/
def hiByte (v : Word) : Byte := v.extractLsb' 8 8

/-- `{h, l}` (R6). -/
def joinBytes (h l : Byte) : Word := h ++ l

/-- Apply an operation to both lanes: the `.8` forms (R14). -/
def onLanes (f : Byte → Byte) (v : Word) : Word := joinBytes (f (hiByte v)) (f (loByte v))

/-- IMM3 of ADDI and SUBI, zero-extended to a word (R95, D13). -/
def imm3Word (imm : BitVec 3) : Word := imm.zeroExtend 16

/-- IMM3 of ADDI.8 and SUBI.8 in each lane (R129, R131): the word with the immediate in both bytes. -/
def imm3Lanes (imm : BitVec 3) : Word := joinBytes (imm.zeroExtend 8) (imm.zeroExtend 8)

/-- The shift amount of the `.16` forms: `x[RB][3:0]` (R140, D10). -/
def shiftAmount16 (v : Word) : Nat := (v.extractLsb' 0 4).toNat

/-- The shift amount of both lanes of the `.8` forms: `x[RB][2:0]` (R140, D10). -/
def shiftAmount8 (v : Word) : Nat := (v.extractLsb' 0 3).toNat

/-- One source byte of MIX and MUX (R175). -/
def sourceByte (a b : Word) : SourceByte → Byte
  | .raLo => loByte a
  | .raHi => hiByte a
  | .rbLo => loByte b
  | .rbHi => hiByte b

/-- The result of MIX and MUX under a placement (R175). -/
def placeBytes (p : Placement) (a b : Word) : Word :=
  joinBytes (sourceByte a b p.hi) (sourceByte a b p.lo)

/-- The target of JMPI and JALI: `(pc + sext_16(IMM8)) mod 2^16` (R245, D20). -/
def relativeTarget (pc : Word) (offset : Int) : Word := pc + BitVec.ofInt 16 offset

/-- The register that holds the Video RAM offset (R209). -/
def videoOffsetReg (roles : VStoreRoles) (ra rb : RegNum) : RegNum :=
  match roles with
  | .A => ra
  | .B => rb
  | .C => rb

/-- The register that holds the data of a video store (R209). -/
def videoDataReg (roles : VStoreRoles) (ra rb : RegNum) : RegNum :=
  match roles with
  | .A => rb
  | .B => ra
  | .C => ra

/-- The register SWSGI and SWSGD step (R209). -/
def videoSteppedReg (roles : VStoreRoles) (ra rb : RegNum) : RegNum :=
  match roles with
  | .A => ra
  | .B => rb
  | .C => ra

/-- The output port of SWFT: the RD field itself, or `x[RD][2:0]` under the other reading (R203, D19). -/
def swftPort (fromReg : Bool) (rd : RegNum) (v : Word) : Port :=
  if fromReg then (v.extractLsb' 0 3).toFin else rd

end Sys2Proof.Machine
end

