-- ==== Sys2Proof/Machine/Flags.lean ====
section
/-!
DEFINITION. The results and flags of the arithmetic, multiply and compare instructions
(spec/40_arithmetic.md, spec/42_compare.md, spec/43_multiply.md), and how they are written back
(spec/10_state.md R27).
-/

namespace Sys2Proof.Machine

/-- What an arithmetic instruction writes: RD, flag 6, and flag 7 where the form names it. -/
structure AluOut where
  value : Word
  flag6 : Bool
  flag7 : Option Bool
deriving DecidableEq, Repr

/-- Write a flag where the instruction names it. -/
def Thread.writeFlagOpt (th : Thread) (i : FlagNum) : Option Bool → Thread
  | some b => th.writeFlag i b
  | none => th

/-- Write back an arithmetic result (R120): RD by the write rule, then the flags. -/
def Thread.writeAlu (th : Thread) (rd : RegNum) (r : AluOut) : Thread :=
  ((th.writeReg rd r.value).writeFlag 6 r.flag6).writeFlagOpt 7 r.flag7

/-- The instruction completes with an arithmetic result. -/
def State.retireAlu (s : State) (rd : RegNum) (r : AluOut) : Result :=
  s.retire fun th => th.writeAlu rd r

/-! ## Sums (R121, R122, R129, R130) -/

/-- `zext_9(a) + zext_9(b)`. -/
def sum9 (a b : Byte) : BitVec 9 := a.zeroExtend 9 + b.zeroExtend 9

/-- `zext_17(a) + zext_17(b)`. -/
def sum17 (a b : Word) : BitVec 17 := a.zeroExtend 17 + b.zeroExtend 17

/-- Two byte sums, wrapped; each carry is its lane's flag. -/
def addLanes (a b : Word) : AluOut :=
  let sl := sum9 (loByte a) (loByte b)
  let sh := sum9 (hiByte a) (hiByte b)
  ⟨joinBytes (sh.extractLsb' 0 8) (sl.extractLsb' 0 8), sl.getLsbD 8, some (sh.getLsbD 8)⟩

/-- One word sum, wrapped; the carry is flag 6. -/
def addWords (a b : Word) : AluOut :=
  let s := sum17 a b
  ⟨s.extractLsb' 0 16, s.getLsbD 16, none⟩

/-! ## Differences (R123, R124, R131, R132) -/

/-- Two byte differences, wrapped; each borrow is its lane's flag. -/
def subLanes (a b : Word) : AluOut :=
  ⟨joinBytes (hiByte a - hiByte b) (loByte a - loByte b), (loByte a).ult (loByte b),
    some ((hiByte a).ult (hiByte b))⟩

/-- One word difference, wrapped; the borrow is flag 6. -/
def subWords (a b : Word) : AluOut := ⟨a - b, a.ult b, none⟩

/-! ## Averages (R125, R126) -/

/-- The mean of two bytes: the sum with its carry shifted right, or the wrapped sum shifted. -/
def meanByte (keepsCarry : Bool) (a b : Byte) : Byte :=
  if keepsCarry then (sum9 a b).extractLsb' 1 8 else (a + b) >>> 1

/-- The mean of two words. -/
def meanWord (keepsCarry : Bool) (a b : Word) : Word :=
  if keepsCarry then (sum17 a b).extractLsb' 1 16 else (a + b) >>> 1

/-- AVG.8: both flags cleared. -/
def avgLanes (a b : Word) : AluOut :=
  ⟨joinBytes (meanByte Config.avgKeepsCarry (hiByte a) (hiByte b))
    (meanByte Config.avgKeepsCarry (loByte a) (loByte b)), false, some false⟩

/-- AVG.16: flag 6 cleared. -/
def avgWords (a b : Word) : AluOut := ⟨meanWord Config.avgKeepsCarry a b, false, none⟩

/-! ## Halved differences (R127, R128) -/

/-- The halved difference of two bytes. -/
def halfDiffByte (mode : SavgMode) (a b : Byte) : Byte :=
  match mode with
  | .borrowIn => (a.zeroExtend 9 - b.zeroExtend 9).extractLsb' 1 8
  | .logical => (a - b) >>> 1
  | .arithmetic => (a - b).sshiftRight 1

/-- The halved difference of two words. -/
def halfDiffWord (mode : SavgMode) (a b : Word) : Word :=
  match mode with
  | .borrowIn => (a.zeroExtend 17 - b.zeroExtend 17).extractLsb' 1 16
  | .logical => (a - b) >>> 1
  | .arithmetic => (a - b).sshiftRight 1

/-- The borrow of a byte difference: bit 8 of the 9-bit difference. -/
def borrow9 (a b : Byte) : Bool := (a.zeroExtend 9 - b.zeroExtend 9).getLsbD 8

/-- The borrow of a word difference: bit 16 of the 17-bit difference. -/
def borrow17 (a b : Word) : Bool := (a.zeroExtend 17 - b.zeroExtend 17).getLsbD 16

/-- SAVG.8. -/
def savgLanes (a b : Word) : AluOut :=
  ⟨joinBytes (halfDiffByte Config.savgMode (hiByte a) (hiByte b))
    (halfDiffByte Config.savgMode (loByte a) (loByte b)),
    borrow9 (loByte a) (loByte b), some (borrow9 (hiByte a) (hiByte b))⟩

/-- SAVG.16. -/
def savgWords (a b : Word) : AluOut := ⟨halfDiffWord Config.savgMode a b, borrow17 a b, none⟩

/-! ## Products (R165 to R169) -/

/-- The 16-bit product of two bytes, unsigned, or signed under the other reading (R165). -/
def mulBytes (signed : Bool) (a b : Byte) : Word :=
  if signed then a.signExtend 16 * b.signExtend 16 else a.zeroExtend 16 * b.zeroExtend 16

/-- MUL: the product, flag 6 cleared. -/
def mulOut (a b : Byte) : AluOut := ⟨mulBytes Config.mulSigned a b, false, none⟩

/-- MAC: the product added to the old RD; the carry is flag 6. -/
def macOut (a b : Byte) (acc : Word) : AluOut := addWords acc (mulBytes Config.mulSigned a b)

/-! ## Compares (R150) -/

/-- The relation a compare tests. -/
inductive Rel where
  | eq | ne | gt | ge | lt | le
deriving DecidableEq, Repr

/-- The relation on two values of one width: unsigned, or signed for the ordered relations under the
other reading (R150, D6). -/
def relHolds {n : Nat} (signed : Bool) (rel : Rel) (a b : BitVec n) : Bool :=
  match rel with
  | .eq => a == b
  | .ne => a != b
  | .gt => if signed then b.slt a else b.ult a
  | .ge => if signed then b.sle a else b.ule a
  | .lt => if signed then a.slt b else a.ult b
  | .le => if signed then a.sle b else a.ule b

/-- `cmp16(rel)`: FLAG[CB] from one word compare (R150). -/
def State.compareWords (s : State) (rel : Rel) (ra rb : RegNum) (cb : FlagNum) : Result :=
  s.retire fun th => th.writeFlag cb (relHolds Config.cmpSigned rel (s.reg ra) (s.reg rb))

/-- `cmp8(rel)`: FLAG[CB] from the low bytes, FLAG[CB + 1] from the high bytes if there is one (R150). -/
def State.compareLanes (s : State) (rel : Rel) (ra rb : RegNum) (cb : FlagNum) : Result :=
  let low := relHolds Config.cmpSigned rel (loByte (s.reg ra)) (loByte (s.reg rb))
  let high := relHolds Config.cmpSigned rel (hiByte (s.reg ra)) (hiByte (s.reg rb))
  s.retire fun th =>
    if cb = 7 then th.writeFlag cb low else (th.writeFlag cb low).writeFlag (cb + 1) high

end Sys2Proof.Machine
end

