-- ==== Sys2Proof/Machine/Arith.lean ====
section
/-!
DEFINITION. The add, subtract and average instructions (spec/40_arithmetic.md).
-/

namespace Sys2Proof.Machine

/-- ADD.8 (R120, R121). -/
def execAdd8 (ra rb rd : RegNum) (s : State) : Result :=
  s.retireAlu rd (addLanes (s.reg ra) (s.reg rb))

/-- ADD.16 (R120, R122). -/
def execAdd16 (ra rb rd : RegNum) (s : State) : Result :=
  s.retireAlu rd (addWords (s.reg ra) (s.reg rb))

/-- SUB.8 (R120, R123). -/
def execSub8 (ra rb rd : RegNum) (s : State) : Result :=
  s.retireAlu rd (subLanes (s.reg ra) (s.reg rb))

/-- SUB.16 (R120, R124). -/
def execSub16 (ra rb rd : RegNum) (s : State) : Result :=
  s.retireAlu rd (subWords (s.reg ra) (s.reg rb))

/-- AVG.8 (R120, R125). -/
def execAvg8 (ra rb rd : RegNum) (s : State) : Result :=
  s.retireAlu rd (avgLanes (s.reg ra) (s.reg rb))

/-- AVG.16 (R120, R126). -/
def execAvg16 (ra rb rd : RegNum) (s : State) : Result :=
  s.retireAlu rd (avgWords (s.reg ra) (s.reg rb))

/-- SAVG.8 (R120, R127). -/
def execSavg8 (ra rb rd : RegNum) (s : State) : Result :=
  s.retireAlu rd (savgLanes (s.reg ra) (s.reg rb))

/-- SAVG.16 (R120, R128). -/
def execSavg16 (ra rb rd : RegNum) (s : State) : Result :=
  s.retireAlu rd (savgWords (s.reg ra) (s.reg rb))

/-- ADDI.8 (R120, R129). -/
def execAddi8 (ra : RegNum) (imm : BitVec 3) (rd : RegNum) (s : State) : Result :=
  s.retireAlu rd (addLanes (s.reg ra) (imm3Lanes imm))

/-- ADDI.16 (R120, R130). -/
def execAddi16 (ra : RegNum) (imm : BitVec 3) (rd : RegNum) (s : State) : Result :=
  s.retireAlu rd (addWords (s.reg ra) (imm3Word imm))

/-- SUBI.8 (R120, R131). -/
def execSubi8 (ra : RegNum) (imm : BitVec 3) (rd : RegNum) (s : State) : Result :=
  s.retireAlu rd (subLanes (s.reg ra) (imm3Lanes imm))

/-- SUBI.16 (R120, R132). -/
def execSubi16 (ra : RegNum) (imm : BitVec 3) (rd : RegNum) (s : State) : Result :=
  s.retireAlu rd (subWords (s.reg ra) (imm3Word imm))

end Sys2Proof.Machine
end

