-- ==== Sys2Proof/Machine/Compare.lean ====
section
/-!
DEFINITION. The compare instructions (spec/42_compare.md). No general register is written.
-/

namespace Sys2Proof.Machine

/-- CMP.EQ.8 (R150, R151). -/
def execCmpEq8 (ra rb : RegNum) (cb : FlagNum) (s : State) : Result :=
  s.compareLanes .eq ra rb cb

/-- CMP.EQ.16 (R150, R152). -/
def execCmpEq16 (ra rb : RegNum) (cb : FlagNum) (s : State) : Result :=
  s.compareWords .eq ra rb cb

/-- CMP.NE.8 (R150, R153). -/
def execCmpNe8 (ra rb : RegNum) (cb : FlagNum) (s : State) : Result :=
  s.compareLanes .ne ra rb cb

/-- CMP.NE.16 (R150, R154). -/
def execCmpNe16 (ra rb : RegNum) (cb : FlagNum) (s : State) : Result :=
  s.compareWords .ne ra rb cb

/-- CMP.GT.8 (R150, R155). -/
def execCmpGt8 (ra rb : RegNum) (cb : FlagNum) (s : State) : Result :=
  s.compareLanes .gt ra rb cb

/-- CMP.GT.16 (R150, R156). -/
def execCmpGt16 (ra rb : RegNum) (cb : FlagNum) (s : State) : Result :=
  s.compareWords .gt ra rb cb

/-- CMP.GE.8 (R150, R157). -/
def execCmpGe8 (ra rb : RegNum) (cb : FlagNum) (s : State) : Result :=
  s.compareLanes .ge ra rb cb

/-- CMP.GE.16 (R150, R158). -/
def execCmpGe16 (ra rb : RegNum) (cb : FlagNum) (s : State) : Result :=
  s.compareWords .ge ra rb cb

/-- CMP.LT.8 (R150, R159). -/
def execCmpLt8 (ra rb : RegNum) (cb : FlagNum) (s : State) : Result :=
  s.compareLanes .lt ra rb cb

/-- CMP.LT.16 (R150, R160). -/
def execCmpLt16 (ra rb : RegNum) (cb : FlagNum) (s : State) : Result :=
  s.compareWords .lt ra rb cb

/-- CMP.LE.8 (R150, R161). -/
def execCmpLe8 (ra rb : RegNum) (cb : FlagNum) (s : State) : Result :=
  s.compareLanes .le ra rb cb

/-- CMP.LE.16 (R150, R162). -/
def execCmpLe16 (ra rb : RegNum) (cb : FlagNum) (s : State) : Result :=
  s.compareWords .le ra rb cb

end Sys2Proof.Machine
end

