-- ==== Sys2Proof/Machine/Jump.lean ====
section
/-!
DEFINITION. The jump instructions (spec/48_jump.md).
-/

namespace Sys2Proof.Machine

/-- A jump to a target if FLAG[CB] is 1, with or without the link; the target is checked only if the jump
is taken, and an untaken jump does nothing but step on (R245). -/
def State.jump (s : State) (cb : FlagNum) (link : Bool) (target : Word) : Result :=
  if s.cur.readFlag cb then
    s.guarded (jumpExc target)
      (.next (s.updCur fun th => (if link then th.writeReg 7 (th.pc + 2) else th).jumpTo target))
  else if link && Config.linkOnUntaken then s.retire fun th => th.writeReg 7 (th.pc + 2)
  else s.retire id

/-- JMPR (R245, R246). -/
def execJmpr (ra : RegNum) (cb : FlagNum) (s : State) : Result := s.jump cb false (s.reg ra)

/-- JALR (R245, R247). -/
def execJalr (ra : RegNum) (cb : FlagNum) (s : State) : Result := s.jump cb true (s.reg ra)

/-- JMPI (R245, R248). -/
def execJmpi (offset : Int) (cb : FlagNum) (s : State) : Result :=
  s.jump cb false (relativeTarget s.cur.pc offset)

/-- JALI (R245, R249). -/
def execJali (offset : Int) (cb : FlagNum) (s : State) : Result :=
  s.jump cb true (relativeTarget s.cur.pc offset)

/-- The exception of JMP.SPR1: no interrupt is being serviced (R253, D22). -/
def returnExc (imask : Bool) : List Exc := if imask then [] else [.illegalInstruction]

/-- JMP.SPR1, the return from an interrupt (R253, R317). -/
def execJmpSpr1 (s : State) : Result :=
  s.guarded (returnExc s.cur.imask) (.next (s.updCur Thread.returnFromInterrupt))

end Sys2Proof.Machine
end

