-- ==== Sys2Proof/Machine/LoadStore.lean ====
section
/-!
DEFINITION. The load and store instructions (spec/45_load_store.md).
-/

namespace Sys2Proof.Machine

/-- The address register after a load or store: stepped, or kept (R195, R199). -/
def Thread.stepReg (th : Thread) (ra : RegNum) (step : Option Word) : Thread :=
  match step with
  | some d => th.writeReg ra (th.readReg ra + d)
  | none => th

/-- A load that writes RA as well as RD, both the same writable register, has no result (R195, U8). -/
def Thread.loadClash (th : Thread) (ra rd : RegNum) (step : Option Word) : Bool :=
  step.isSome && ra == rd && th.writable ra

/-- A load with an optional step of RA (R195): the word is read at the address before the step. RA is
stepped before RD is written, from the value before the instruction (R9). -/
def State.load (s : State) (step : Option Word) (ra rd : RegNum) : Result :=
  let a := s.reg ra
  s.guarded (loadExc a)
    (if s.cur.loadClash ra rd step then .refused .loadIntoItsAddress
     else s.retire fun th => (th.stepReg ra step).writeReg rd (s.loadWord a))

/-- A store with an optional step of RA (R199): the value stored is `x[RB]` before the step. -/
def State.store (s : State) (step : Option Word) (ra rb : RegNum) : Result :=
  let a := s.reg ra
  s.guarded (storeExc s.cur.pc a)
    ((s.storeWord a (s.reg rb)).retire fun th => th.stepReg ra step)

/-- A video store with an optional step (R209): cancelled for selector register 0, performed for 1 and 2,
no result for any other value; the step happens whether or not the store is cancelled. -/
def State.videoStore (s : State) (step : Option Word) (ra rb rd : RegNum) : Result :=
  let sel := s.reg rd
  let off := s.reg (videoOffsetReg Config.vstoreRoles ra rb)
  let v := s.reg (videoDataReg Config.vstoreRoles ra rb)
  let stepped := fun th : Thread => th.stepReg (videoSteppedReg Config.vstoreRoles ra rb) step
  if sel = 0 then s.retire stepped
  else if sel = 1 ∨ sel = 2 then (s.vramWrite (sel.extractLsb' 0 2) off v).retire stepped
  else .refused .videoSelector

/-- LW (R196). -/
def execLw (ra rd : RegNum) (s : State) : Result := s.load none ra rd

/-- LWI: RA stepped by 2 (R197). -/
def execLwi (ra rd : RegNum) (s : State) : Result := s.load (some 2) ra rd

/-- LWD: RA stepped by -2 (R198). -/
def execLwd (ra rd : RegNum) (s : State) : Result := s.load (some (-2)) ra rd

/-- SW (R200). -/
def execSw (ra rb : RegNum) (s : State) : Result := s.store none ra rb

/-- SWI: RA stepped by 2 (R201). -/
def execSwi (ra rb : RegNum) (s : State) : Result := s.store (some 2) ra rb

/-- SWD: RA stepped by -2 (R202). -/
def execSwd (ra rb : RegNum) (s : State) : Result := s.store (some (-2)) ra rb

/-- SWFT: the store of SW, then the same word to an output port; flag 6 says whether the port took it, and
the store does not depend on that (R203). -/
def execSwft (ra rb rd : RegNum) (s : State) : Result :=
  let a := s.reg ra
  let v := s.reg rb
  let p := swftPort Config.swftPortFromReg rd (s.reg rd)
  s.guarded (storeExc s.cur.pc a)
    (((s.storeWord a v).portWrite p v).retire fun th => th.writeFlag 6 (s.portHasRoom p))

/-- SWSG (R210). -/
def execSwsg (ra rb rd : RegNum) (s : State) : Result := s.videoStore none ra rb rd

/-- SWSGI: the stepped register plus 1 (R211). -/
def execSwsgi (ra rb rd : RegNum) (s : State) : Result := s.videoStore (some 1) ra rb rd

/-- SWSGD: the stepped register minus 1 (R212). -/
def execSwsgd (ra rb rd : RegNum) (s : State) : Result := s.videoStore (some (-1)) ra rb rd

end Sys2Proof.Machine
end

