-- ==== Sys2Proof/Machine/Multiply.lean ====
section
/-!
DEFINITION. The multiply and multiply-accumulate instructions (spec/43_multiply.md).
-/

namespace Sys2Proof.Machine

/-- MAC.LO (R165, R166). -/
def execMacLo (ra rb rd : RegNum) (s : State) : Result :=
  s.retireAlu rd (macOut (loByte (s.reg ra)) (loByte (s.reg rb)) (s.reg rd))

/-- MAC.HI (R165, R167). -/
def execMacHi (ra rb rd : RegNum) (s : State) : Result :=
  s.retireAlu rd (macOut (hiByte (s.reg ra)) (hiByte (s.reg rb)) (s.reg rd))

/-- MUL.LO (R165, R168). -/
def execMulLo (ra rb rd : RegNum) (s : State) : Result :=
  s.retireAlu rd (mulOut (loByte (s.reg ra)) (loByte (s.reg rb)))

/-- MUL.HI (R165, R169). -/
def execMulHi (ra rb rd : RegNum) (s : State) : Result :=
  s.retireAlu rd (mulOut (hiByte (s.reg ra)) (hiByte (s.reg rb)))

end Sys2Proof.Machine
end

