-- ==== Sys2Proof/Machine/Permute.lean ====
section
/-!
DEFINITION. The byte permutation, logic and load-immediate instructions (spec/44_permute_logic.md).
No flag is written.
-/

namespace Sys2Proof.Machine

/-- MIX.LO (R175, R176). -/
def execMixLo (ra rb rd : RegNum) (s : State) : Result :=
  s.retireReg rd (placeBytes Config.mixMux.mixLo (s.reg ra) (s.reg rb))

/-- MIX.HI (R175, R177). -/
def execMixHi (ra rb rd : RegNum) (s : State) : Result :=
  s.retireReg rd (placeBytes Config.mixMux.mixHi (s.reg ra) (s.reg rb))

/-- MUX.LO (R175, R178). -/
def execMuxLo (ra rb rd : RegNum) (s : State) : Result :=
  s.retireReg rd (placeBytes Config.mixMux.muxLo (s.reg ra) (s.reg rb))

/-- MUX.HI (R175, R179). -/
def execMuxHi (ra rb rd : RegNum) (s : State) : Result :=
  s.retireReg rd (placeBytes Config.mixMux.muxHi (s.reg ra) (s.reg rb))

/-- AND (R180). -/
def execAndW (ra rb rd : RegNum) (s : State) : Result :=
  s.retireReg rd (s.reg ra &&& s.reg rb)

/-- OR (R181). -/
def execOrW (ra rb rd : RegNum) (s : State) : Result :=
  s.retireReg rd (s.reg ra ||| s.reg rb)

/-- XOR (R182). -/
def execXorW (ra rb rd : RegNum) (s : State) : Result :=
  s.retireReg rd (s.reg ra ^^^ s.reg rb)

/-- NOT (R183). -/
def execNotW (ra rd : RegNum) (s : State) : Result :=
  s.retireReg rd (~~~(s.reg ra))

/-- COPY.LO: both bytes of RD from the lower byte of RA (R184, C9). -/
def execCopyLo (ra rd : RegNum) (s : State) : Result :=
  s.retireReg rd (joinBytes (loByte (s.reg ra)) (loByte (s.reg ra)))

/-- COPY.HI: both bytes of RD from the higher byte of RA (R185, C9). -/
def execCopyHi (ra rd : RegNum) (s : State) : Result :=
  s.retireReg rd (joinBytes (hiByte (s.reg ra)) (hiByte (s.reg ra)))

/-- SWAP (R186, C19). -/
def execSwap (ra rd : RegNum) (s : State) : Result :=
  s.retireReg rd (joinBytes (loByte (s.reg ra)) (hiByte (s.reg ra)))

/-- LI.HI: the lower byte of RD stays (R187). -/
def execLiHi (imm : Byte) (rd : RegNum) (s : State) : Result :=
  s.retireReg rd (joinBytes imm (loByte (s.reg rd)))

/-- LI.LO: the higher byte of RD stays (R188). -/
def execLiLo (imm : Byte) (rd : RegNum) (s : State) : Result :=
  s.retireReg rd (joinBytes (hiByte (s.reg rd)) imm)

end Sys2Proof.Machine
end

