-- ==== Sys2Proof/Machine/PortIO.lean ====
section
/-!
DEFINITION. The port input/output instructions (spec/46_io.md). Neither blocks nor raises.
-/

namespace Sys2Proof.Machine

/-- READ: with a word available it goes to RD and FLAG[CB] is 1, else only FLAG[CB] is written, 0
(R215, R216). -/
def execRead (port : Port) (cb : FlagNum) (rd : RegNum) (s : State) : Result :=
  match s.portRead port with
  | some (v, s') => s'.retire fun th => (th.writeReg rd v).writeFlag cb true
  | none => s.retire fun th => th.writeFlag cb false

/-- WRITE: `x[RD]` to an output port, FLAG[CB] says whether it was taken (R215, R217). -/
def execWrite (port : Port) (cb : FlagNum) (rd : RegNum) (s : State) : Result :=
  (s.portWrite port (s.reg rd)).retire fun th => th.writeFlag cb (s.portHasRoom port)

end Sys2Proof.Machine
end

