-- ==== Sys2Proof/Machine/Shift.lean ====
section
/-!
DEFINITION. The shift and rotate instructions (spec/41_shift.md). No flag is written.
-/

namespace Sys2Proof.Machine

/-- The instruction completes with a shifted word: the value in RA by the amount in RB (R140). -/
def State.shiftWord (s : State) (f : Word → Nat → Word) (ra rb rd : RegNum) : Result :=
  s.retireReg rd (f (s.reg ra) (shiftAmount16 (s.reg rb)))

/-- The instruction completes with both lanes shifted by one amount (R140). -/
def State.shiftLanes (s : State) (f : Byte → Nat → Byte) (ra rb rd : RegNum) : Result :=
  s.retireReg rd (onLanes (fun x => f x (shiftAmount8 (s.reg rb))) (s.reg ra))

/-- RSL.8, right shift logical of each lane (R140, R141). -/
def execRsl8 (ra rb rd : RegNum) (s : State) : Result :=
  s.shiftLanes (fun x n => x >>> n) ra rb rd

/-- RSL.16, right shift logical (R140, R142). -/
def execRsl16 (ra rb rd : RegNum) (s : State) : Result :=
  s.shiftWord (fun x n => x >>> n) ra rb rd

/-- RSA.8, right shift arithmetic of each lane (R140, R143). -/
def execRsa8 (ra rb rd : RegNum) (s : State) : Result :=
  s.shiftLanes (fun x n => x.sshiftRight n) ra rb rd

/-- RSA.16, right shift arithmetic (R140, R144). -/
def execRsa16 (ra rb rd : RegNum) (s : State) : Result :=
  s.shiftWord (fun x n => x.sshiftRight n) ra rb rd

/-- LSL.8, left shift logical of each lane (R140, R145). -/
def execLsl8 (ra rb rd : RegNum) (s : State) : Result :=
  s.shiftLanes (fun x n => x <<< n) ra rb rd

/-- LSL.16, left shift logical (R140, R146). -/
def execLsl16 (ra rb rd : RegNum) (s : State) : Result :=
  s.shiftWord (fun x n => x <<< n) ra rb rd

/-- ROT.8, rotate left of each lane (R140, R147). -/
def execRot8 (ra rb rd : RegNum) (s : State) : Result :=
  s.shiftLanes (fun x n => x.rotateLeft n) ra rb rd

/-- ROT.16, rotate left (R140, R148). -/
def execRot16 (ra rb rd : RegNum) (s : State) : Result :=
  s.shiftWord (fun x n => x.rotateLeft n) ra rb rd

end Sys2Proof.Machine
end

