-- ==== Sys2Proof/Machine/System.lean ====
section
/-!
DEFINITION. The system register instructions and NOP (spec/49_system.md).
-/

namespace Sys2Proof.Machine

/-- GET.FLAG (R261). -/
def execGetFlag (rd : RegNum) (s : State) : Result := s.retireReg rd (joinBytes 0 s.cur.flagByte)

/-- GET.SPR1 (R262). -/
def execGetSpr1 (rd : RegNum) (s : State) : Result := s.retireReg rd s.cur.spr1

/-- GET.SPR2 (R263). -/
def execGetSpr2 (rd : RegNum) (s : State) : Result := s.retireReg rd s.cur.spr2

/-- GET.EXR: EXR is read and then cleared, even when the register write is dropped (R264). -/
def execGetExr (rd : RegNum) (s : State) : Result :=
  s.retire fun th => { th.writeReg rd th.exr with exr := 0 }

/-- GET.WAIT_REG: the open 8-bit view of the four rows (R265, D35). -/
def execGetWaitReg (rd : RegNum) (s : State) : Result :=
  s.retireReg rd (joinBytes 0 (Config.waitRegView s.wr))

/-- GET.TAR (R266). -/
def execGetTar (rd : RegNum) (s : State) : Result := s.retireReg rd (s.tar.zeroExtend 16)

/-- GET.WS: the four waiting bits, bit i for thread i (R267, D36). -/
def execGetWs (rd : RegNum) (s : State) : Result :=
  s.retireReg rd ((maskOf s.stalled).zeroExtend 16)

/-- GET.INTR (R268, C10). -/
def execGetIntr (rd : RegNum) (s : State) : Result := s.retireReg rd s.cur.intr

/-- GET.THREAD (R269). -/
def execGetThread (rd : RegNum) (s : State) : Result := s.retireReg rd (BitVec.ofNat 16 s.turn.val)

/-- PUT.FLAG (R274). -/
def execPutFlag (ra : RegNum) (s : State) : Result :=
  s.retire fun th => th.putFlags (loByte (s.reg ra))

/-- PUT.SPR1 (R275). -/
def execPutSpr1 (ra : RegNum) (s : State) : Result :=
  s.retire fun th => { th with spr1 := s.reg ra }

/-- PUT.DEBUG: writing 0 also clears R0 (R276). -/
def execPutDebug (value : Bool) (s : State) : Result :=
  s.retire fun th =>
    { th with debug := value, regs := if value then th.regs else th.regs.set 0 0 }

/-- PUT.INTRMASK (R277). -/
def execPutIntrMask (value : Bool) (s : State) : Result :=
  s.retire fun th => { th with imask := value }

/-- NOP (R280). -/
def execNop (s : State) : Result := s.retire id

end Sys2Proof.Machine
end

