-- ==== Sys2Proof/Machine/Threads.lean ====
section
/-!
DEFINITION. The thread instructions WAIT, KILL and INIT (spec/47_thread.md).
-/

namespace Sys2Proof.Machine

/-- The executing thread stalls at a point: its pc stays at its WAIT (R227). -/
def State.stallAt (s : State) (p : Point) : State := { s with ws := s.ws.set s.turn ⟨true, p⟩ }

/-- Replace a row of WAIT_REG. -/
def State.setRow (s : State) (p : Point) (m : BitVec 4) : State := { s with wr := s.wr.set p m }

/-- The release of a point by its last arriver: every thread stalled there runs again after its WAIT, and
so does the executing thread (R227). The point `s` of a row whose `w` is cleared may hold any value (U24); DESIGN
CHOICE (log 24): it keeps the old point. -/
def State.release (s : State) (p : Point) : State :=
  { s with
    wr := s.wr.set p 0
    ws := Vector.ofFn fun n => if s.stalledAt p n then ⟨false, (s.ws[n]).s⟩ else s.ws[n]
    threads := Vector.ofFn fun n =>
      if s.stalledAt p n || n == s.turn then (s.thread n).advance else s.thread n }

/-- The first arrival at a point (R227): alone it falls through, else it stalls awaiting the others. -/
def State.arriveFirst (s : State) (mask : BitVec 4) (p : Point) : Result :=
  if clearBit mask s.turn = 0 then s.retire id
  else .next ((s.setRow p (clearBit mask s.turn)).stallAt p)

/-- A later arrival at a point (R227): the last one releases all, any other stalls too. -/
def State.arriveLater (s : State) (p : Point) : Result :=
  if clearBit s.wr[p] s.turn = 0 then .next (s.release p)
  else .next ((s.setRow p (clearBit s.wr[p] s.turn)).stallAt p)

/-- The exception of a WAIT: its mask names a dead thread (R227, R301). -/
def waitExc (tar mask : BitVec 4) : List Exc := if mask &&& ~~~tar = 0 then [] else [.illegalWait]

/-- WAIT (R226, R227). -/
def execWait (mask : BitVec 4) (point : Point) (s : State) : Result :=
  s.guarded (waitExc s.tar mask)
    (if mask.getLsbD s.turn = false then .refused .waitWithoutSelf
     else if s.wr[point] = 0 then s.arriveFirst mask point
     else if s.wr[point].getLsbD s.turn = false ∨ mask ≠ s.wr[point] ||| s.stalledMask point then
       .refused .waitBarrierMismatch
     else s.arriveLater point)

/-- Thread n is stalled at a point whose row awaits thread m (R231). -/
def State.awaits (s : State) (n m : Tid) : Bool := s.stalled n && (s.wr[(s.ws[n]).s]).getLsbD m

/-- Delivery of ILLEGAL_WAIT by the death of thread m (R231): every thread stalled at a point that awaits
m enters the exception, and the rows that await m are cleared. The point `s` of a row whose `w` is cleared may hold
any value (U24); DESIGN CHOICE (log 24): it keeps the old point. -/
def State.deliverIllegalWait (s : State) (m : Tid) : State :=
  { s with
    threads := Vector.ofFn fun n =>
      if s.awaits n m then Thread.enterException n [.illegalWait] (s.thread n) else s.thread n
    ws := Vector.ofFn fun n => if s.awaits n m then ⟨false, (s.ws[n]).s⟩ else s.ws[n]
    wr := Vector.ofFn fun p => if (s.wr[p]).getLsbD m then 0 else s.wr[p] }

/-- KILL: the thread is dead, its pc stays, and its waiters take ILLEGAL_WAIT (R230, R231). -/
def execKill (s : State) : Result :=
  .next { s.deliverIllegalWait s.turn with tar := clearBit s.tar s.turn }

/-- The exception of an INIT: its target is active (R235). -/
def initExc (targetActive : Bool) : List Exc := if targetActive then [.initThread] else []

/-- The target's pc is loaded and its activation recorded as pending (R235, R236). -/
def State.startThread (s : State) (target : Tid) (a : Word) : State :=
  { s.setThread target ((s.thread target).jumpTo a) with activation := some ⟨target, s.turn⟩ }

/-- INIT (R235, R236, R237). -/
def execInit (ra : RegNum) (target : Tid) (s : State) : Result :=
  s.guarded (initExc (s.active target))
    (if s.activation.isSome then .refused .concurrentInit
     else (s.startThread target (s.reg ra)).retire id)

end Sys2Proof.Machine
end

