-- ==== Sys2Proof/Machine/Dispatch.lean ====
section
/-!
DEFINITION. The meaning of each instruction, one arm per constructor.
-/

namespace Sys2Proof.Machine

open Sys2Proof

def exec (i : Instr) (s : State) : Host.Outcome State Fault Refusal :=
  match i with
  | .add8 ra rb rd => Sys2Proof.Machine.execAdd8 ra rb rd s
  | .add16 ra rb rd => Sys2Proof.Machine.execAdd16 ra rb rd s
  | .sub8 ra rb rd => Sys2Proof.Machine.execSub8 ra rb rd s
  | .sub16 ra rb rd => Sys2Proof.Machine.execSub16 ra rb rd s
  | .avg8 ra rb rd => Sys2Proof.Machine.execAvg8 ra rb rd s
  | .avg16 ra rb rd => Sys2Proof.Machine.execAvg16 ra rb rd s
  | .savg8 ra rb rd => Sys2Proof.Machine.execSavg8 ra rb rd s
  | .savg16 ra rb rd => Sys2Proof.Machine.execSavg16 ra rb rd s
  | .rsl8 ra rb rd => Sys2Proof.Machine.execRsl8 ra rb rd s
  | .rsl16 ra rb rd => Sys2Proof.Machine.execRsl16 ra rb rd s
  | .rsa8 ra rb rd => Sys2Proof.Machine.execRsa8 ra rb rd s
  | .rsa16 ra rb rd => Sys2Proof.Machine.execRsa16 ra rb rd s
  | .lsl8 ra rb rd => Sys2Proof.Machine.execLsl8 ra rb rd s
  | .lsl16 ra rb rd => Sys2Proof.Machine.execLsl16 ra rb rd s
  | .rot8 ra rb rd => Sys2Proof.Machine.execRot8 ra rb rd s
  | .rot16 ra rb rd => Sys2Proof.Machine.execRot16 ra rb rd s
  | .cmpEq8 ra rb cb => Sys2Proof.Machine.execCmpEq8 ra rb cb s
  | .cmpEq16 ra rb cb => Sys2Proof.Machine.execCmpEq16 ra rb cb s
  | .cmpNe8 ra rb cb => Sys2Proof.Machine.execCmpNe8 ra rb cb s
  | .cmpNe16 ra rb cb => Sys2Proof.Machine.execCmpNe16 ra rb cb s
  | .cmpGt8 ra rb cb => Sys2Proof.Machine.execCmpGt8 ra rb cb s
  | .cmpGt16 ra rb cb => Sys2Proof.Machine.execCmpGt16 ra rb cb s
  | .cmpGe8 ra rb cb => Sys2Proof.Machine.execCmpGe8 ra rb cb s
  | .cmpGe16 ra rb cb => Sys2Proof.Machine.execCmpGe16 ra rb cb s
  | .cmpLt8 ra rb cb => Sys2Proof.Machine.execCmpLt8 ra rb cb s
  | .cmpLt16 ra rb cb => Sys2Proof.Machine.execCmpLt16 ra rb cb s
  | .cmpLe8 ra rb cb => Sys2Proof.Machine.execCmpLe8 ra rb cb s
  | .cmpLe16 ra rb cb => Sys2Proof.Machine.execCmpLe16 ra rb cb s
  | .macLo ra rb rd => Sys2Proof.Machine.execMacLo ra rb rd s
  | .macHi ra rb rd => Sys2Proof.Machine.execMacHi ra rb rd s
  | .mulLo ra rb rd => Sys2Proof.Machine.execMulLo ra rb rd s
  | .mulHi ra rb rd => Sys2Proof.Machine.execMulHi ra rb rd s
  | .mixLo ra rb rd => Sys2Proof.Machine.execMixLo ra rb rd s
  | .mixHi ra rb rd => Sys2Proof.Machine.execMixHi ra rb rd s
  | .muxLo ra rb rd => Sys2Proof.Machine.execMuxLo ra rb rd s
  | .muxHi ra rb rd => Sys2Proof.Machine.execMuxHi ra rb rd s
  | .andW ra rb rd => Sys2Proof.Machine.execAndW ra rb rd s
  | .orW ra rb rd => Sys2Proof.Machine.execOrW ra rb rd s
  | .xorW ra rb rd => Sys2Proof.Machine.execXorW ra rb rd s
  | .notW ra rd => Sys2Proof.Machine.execNotW ra rd s
  | .copyLo ra rd => Sys2Proof.Machine.execCopyLo ra rd s
  | .copyHi ra rd => Sys2Proof.Machine.execCopyHi ra rd s
  | .swap ra rd => Sys2Proof.Machine.execSwap ra rd s
  | .lw ra rd => Sys2Proof.Machine.execLw ra rd s
  | .lwi ra rd => Sys2Proof.Machine.execLwi ra rd s
  | .lwd ra rd => Sys2Proof.Machine.execLwd ra rd s
  | .sw ra rb => Sys2Proof.Machine.execSw ra rb s
  | .swi ra rb => Sys2Proof.Machine.execSwi ra rb s
  | .swd ra rb => Sys2Proof.Machine.execSwd ra rb s
  | .read port cb rd => Sys2Proof.Machine.execRead port cb rd s
  | .write port cb rd => Sys2Proof.Machine.execWrite port cb rd s
  | .wait mask point => Sys2Proof.Machine.execWait mask point s
  | .kill => Sys2Proof.Machine.execKill s
  | .init ra target => Sys2Proof.Machine.execInit ra target s
  | .jmpr ra cb => Sys2Proof.Machine.execJmpr ra cb s
  | .jmpSpr1 => Sys2Proof.Machine.execJmpSpr1 s
  | .jalr ra cb => Sys2Proof.Machine.execJalr ra cb s
  | .jmpi offset cb => Sys2Proof.Machine.execJmpi offset cb s
  | .jali offset cb => Sys2Proof.Machine.execJali offset cb s
  | .liHi imm rd => Sys2Proof.Machine.execLiHi imm rd s
  | .liLo imm rd => Sys2Proof.Machine.execLiLo imm rd s
  | .getFlag rd => Sys2Proof.Machine.execGetFlag rd s
  | .getSpr1 rd => Sys2Proof.Machine.execGetSpr1 rd s
  | .getSpr2 rd => Sys2Proof.Machine.execGetSpr2 rd s
  | .getExr rd => Sys2Proof.Machine.execGetExr rd s
  | .getWaitReg rd => Sys2Proof.Machine.execGetWaitReg rd s
  | .getTar rd => Sys2Proof.Machine.execGetTar rd s
  | .getWs rd => Sys2Proof.Machine.execGetWs rd s
  | .getIntr rd => Sys2Proof.Machine.execGetIntr rd s
  | .putFlag ra => Sys2Proof.Machine.execPutFlag ra s
  | .putSpr1 ra => Sys2Proof.Machine.execPutSpr1 ra s
  | .putDebug value => Sys2Proof.Machine.execPutDebug value s
  | .putIntrMask value => Sys2Proof.Machine.execPutIntrMask value s
  | .addi8 ra imm rd => Sys2Proof.Machine.execAddi8 ra imm rd s
  | .addi16 ra imm rd => Sys2Proof.Machine.execAddi16 ra imm rd s
  | .subi8 ra imm rd => Sys2Proof.Machine.execSubi8 ra imm rd s
  | .subi16 ra imm rd => Sys2Proof.Machine.execSubi16 ra imm rd s
  | .getThread rd => Sys2Proof.Machine.execGetThread rd s
  | .swft ra rb rd => Sys2Proof.Machine.execSwft ra rb rd s
  | .swsg ra rb rd => Sys2Proof.Machine.execSwsg ra rb rd s
  | .swsgi ra rb rd => Sys2Proof.Machine.execSwsgi ra rb rd s
  | .swsgd ra rb rd => Sys2Proof.Machine.execSwsgd ra rb rd s
  | .nop => Sys2Proof.Machine.execNop s

end Sys2Proof.Machine
end

