-- ==== Sys2Proof/Machine/Turn.lean ====
section
/-!
DEFINITION. The executing thread's part of a clock cycle (spec/70_reset_and_hazards.md R360,
spec/20_memory.md R72, spec/30_encoding.md R99): fetch, decode, execute, and the interrupt boundary.
-/

namespace Sys2Proof.Machine

/-- One instruction step of the executing thread (R72, R99, R102): fetch, decode, execute, and the
interrupt boundary; a word no row of the table matches raises ILLEGAL_INSTRUCTION. -/
def State.runTurn (s : State) : Result :=
  match s.fetch with
  | .error r => .fault r
  | .ok w =>
    match decodeWord w with
    | .error _ => .next (s.raise [.illegalInstruction])
    | .ok i => onNext (fun s' => .next (s'.boundary i)) (exec i s)

/-- The executing thread's part of a cycle: a dead or stalled thread lets it pass (R360). -/
def State.turnStep (s : State) : Result :=
  if s.runnable s.turn then s.runTurn else .next s

end Sys2Proof.Machine
end

