-- ==== Sys2Proof/Machine/Step.lean ====
section
/-!
DEFINITION. One step of the machine: one clock cycle of the round robin (spec/70_reset_and_hazards.md
R360), and the placing of an instruction where the next step fetches.
-/

namespace Sys2Proof.Machine

/-- One clock cycle (R360). -/
def step (s : State) : Host.Outcome State Fault Refusal :=
  onNext (fun s' => .next s'.rotate) s.beginCycle.turnStep

/-- The state with an instruction word stored where the next step fetches, at the pc of the thread the
next cycle belongs to (log 13). Every instruction is one 16-bit word (R90). -/
def State.withFetchWord (s : State) (nbits w : Nat) : State :=
  s.storeWord s.cur.pc (BitVec.ofNat 16 (w % 2 ^ nbits))

end Sys2Proof.Machine
end

