-- ==== Sys2Proof/Machine/Schedule.lean ====
section
/-!
DEFINITION. The schedule `any_fair` (spec/70_reset_and_hazards.md R360, spec/20_memory.md R75,
spec/47_thread.md R236), the safe superset of the round robin: the moves an arbitrary interleaving of the
threads is made of. `step` itself is the reference schedule `round_robin`; this file is what a statement
about every interleaving is written against (log 8).
-/

namespace Sys2Proof.Machine

/-- The machine without the position of the round robin and without the list of moves to come. -/
def State.unscheduled (s : State) : State := { s with turn := 0, inputs := [] }

/-- The machine under an arbitrary schedule. -/
structure FairState where
  /-- The machine; its `turn` and `inputs` play no part. -/
  machine : State
  /-- The activations that have completed and whose new threads must still let the initiator's next
  instruction go first (R236). -/
  held : List Activation
deriving DecidableEq, Repr

/-- One move of an interleaving. -/
inductive FairMove where
  /-- A device moves (R83, R311). -/
  | device (m : DeviceMove)
  /-- The pending activation completes (R236). -/
  | complete
  /-- Thread t performs one instruction step (R360). -/
  | run (t : Tid)
deriving DecidableEq, Repr

/-- Thread t may run: it is active, not stalled, and not a new thread that must wait (R236, R360). -/
def FairState.mayRun (f : FairState) (s : State) (t : Tid) : Bool :=
  s.runnable t && f.held.all (fun p => p.target != t)

/-- The machine at the start of thread t's next instruction: an activation it made completes no later
than here (R236). -/
def FairState.startOf (f : FairState) (t : Tid) : State := { f.machine with turn := t }.activate

/-- The holds that are left after thread t's instruction. -/
def FairState.heldAfter (f : FairState) (t : Tid) : List Activation :=
  f.held.filter fun p => p.initiator != t

/-- The state a move leads to, or none where the schedule does not allow the move or the machine stops. -/
def FairState.move (f : FairState) : FairMove → Option FairState
  | .device m => some { f with machine := (f.machine.deviceMove m).unscheduled }
  | .complete =>
    match f.machine.activation with
    | some p => some ⟨f.machine.completeActivation.unscheduled, p :: f.held⟩
    | none => none
  | .run t =>
    if f.mayRun (f.startOf t) t then
      match (f.startOf t).runTurn with
      | .next s' => some ⟨s'.unscheduled, f.heldAfter t⟩
      | .fault _ => none
      | .refused _ => none
    else none

/-- A run of moves. -/
def FairState.run (f : FairState) : List FairMove → Option FairState
  | [] => some f
  | m :: ms => (f.move m).bind fun f' => f'.run ms

/-- An unending run of the schedule, cut into finite pieces: piece n, the moves `moves n`, leads from `states n` to
`states (n + 1)`. -/
def FairState.IsRun (states : Nat → FairState) (moves : Nat → List FairMove) : Prop :=
  ∀ n, (states n).run (moves n) = some (states (n + 1))

/-- "Every runnable thread is eventually stepped" (R360): a thread that is active and not stalled when a piece
begins performs an instruction step in that piece or in a later one. -/
def FairState.StepsEveryRunnable (states : Nat → FairState) (moves : Nat → List FairMove) : Prop :=
  ∀ (n : Nat) (t : Tid), (states n).machine.runnable t = true → ∃ m, n ≤ m ∧ .run t ∈ moves m

/-- The unending runs of `any_fair` (R360): an interleaving whose moves the schedule allows, in which every
runnable thread is eventually stepped. -/
def FairState.IsFairRun (states : Nat → FairState) (moves : Nat → List FairMove) : Prop :=
  FairState.IsRun states moves ∧ FairState.StepsEveryRunnable states moves

end Sys2Proof.Machine
end

