-- ==== Sys2Proof/Safety.lean ====
section
/-!
DEFINITION. The terms the statements are written in: what an instruction changes and leaves unchanged,
the invariant of the machine, the protection of program memory, and the fields of an instruction word read
straight from its bits.
-/

namespace Sys2Proof.Machine

/-! ## Instruction words -/

/-- Bits 8:6 of a word as a number (R91). -/
def fieldA (w : Word) : Fin 8 := (w.extractLsb' 6 3).toFin

/-- Bits 5:3 of a word as a number (R91). -/
def fieldB (w : Word) : Fin 8 := (w.extractLsb' 3 3).toFin

/-- Bits 2:0 of a word as a number (R91). -/
def fieldD (w : Word) : Fin 8 := (w.extractLsb' 0 3).toFin

/-- Bits 10:3 of a word, IMM8 (R95). -/
def fieldImm8 (w : Word) : Byte := w.extractLsb' 3 8

/-- Bits 4:3 of a word as a number (R95). -/
def fieldPair (w : Word) : Fin 4 := (w.extractLsb' 3 2).toFin

/-- Bits 8:5 of a word, IMM4 of WAIT (R95): bit u is thread u's mask bit. -/
def fieldMask (w : Word) : BitVec 4 := w.extractLsb' 5 4

/-- Bits 5:3 of a word, IMM3 of ADDI and SUBI (R95). -/
def fieldImm3 (w : Word) : BitVec 3 := w.extractLsb' 3 3

/-- Bit 3 of a word, IMM1 of PUT.DEBUG and PUT.INTRMASK (R95). -/
def fieldImm1 (w : Word) : Bool := w.getLsbD 3

/-- Every word that a row of the encoding table matches decodes to the instruction with these fields. -/
def DecodesAs (value mask : Word) (i : Word → Instr) : Prop :=
  ∀ w : Word, w &&& mask = value → decodeWord w = .ok (i w)

/-- Every word of a row of format R3 decodes to the instruction with RA, RB and RD (R92). -/
def DecodesR3 (value mask : Word) (i : RegNum → RegNum → RegNum → Instr) : Prop :=
  DecodesAs value mask fun w => i (fieldA w) (fieldB w) (fieldD w)

/-- Every word of a row of format R2, or JR, decodes to the instruction with bits 8:6 and 2:0 (R92). -/
def DecodesR2 (value mask : Word) (i : Fin 8 → Fin 8 → Instr) : Prop :=
  DecodesAs value mask fun w => i (fieldA w) (fieldD w)

/-! ## Numbers -/

/-- The lower byte of a word as a number. -/
def lowLane (v : Word) : Nat := v.toNat % 256

/-- The higher byte of a word as a number. -/
def highLane (v : Word) : Nat := v.toNat / 256

/-- The word of two bytes, each an exact result cut to 8 bits. -/
def ofLanes (high low : Int) : Word := BitVec.ofInt 16 (256 * (high % 256) + low % 256)

/-- The two's complement value of a byte. -/
def signedLane (x : Nat) : Int := if x < 128 then x else x - 256

/-- An even address, a whole number of words (R63). -/
def IsAligned (a : Word) : Prop := a.toNat % 2 = 0

/-- Where an instruction at `pc` may store (R70). -/
def StorePermitted (pc a : Word) : Prop := 0x8000 ≤ a.toNat ∨ (0x4000 ≤ a.toNat ∧ pc.toNat < 0x4000)

/-! ## Effects and frames -/

/-- No byte of memory reads differently. -/
def SameMemory (s s' : State) : Prop :=
  ∀ a : Nat, Memory.readByte s'.mem a = Memory.readByte s.mem a

/-- Nothing of the machine but thread t's private state differs. -/
def OnlyThread (t : Tid) (s s' : State) : Prop :=
  s' = s.setThread t (s'.thread t)

/-- The exception register, the save registers, INTR, DEBUG and INTRMASK are the same. -/
def SameControl (th th' : Thread) : Prop :=
  th'.exr = th.exr ∧ th'.spr1 = th.spr1 ∧ th'.spr2 = th.spr2 ∧ th'.intr = th.intr ∧
    th'.debug = th.debug ∧ th'.imask = th.imask

/-- A register file after `x[rd] <- v`: dropped for R0 with DEBUG = 0 (R9). -/
def regsWith (th : Thread) (rd : RegNum) (v : Word) (r : RegNum) : Word :=
  if r = rd ∧ (rd ≠ 0 ∨ th.debug = true) then v else th.readReg r

/-- FLAG after writing the bits `w` names: bit 0 reads 1, a bit not named is kept (R10). -/
def flagsWith (th : Thread) (w : FlagNum → Option Bool) (i : FlagNum) : Bool :=
  if i = 0 then true else (w i).getD (th.readFlag i)

/-- No flag is named. -/
def noFlags : FlagNum → Option Bool := fun _ => none

/-- Flag k is named, with a value. -/
def flagOnly (k : FlagNum) (b : Bool) : FlagNum → Option Bool := fun i => if i = k then some b else none

/-- Flags 6 and 7 are named. -/
def flags67 (b6 b7 : Bool) : FlagNum → Option Bool :=
  fun i => if i = 6 then some b6 else if i = 7 then some b7 else none

/-- Flag cb is named with `low`, and flag cb + 1, where there is one, with `high`. -/
def flagPair (cb : FlagNum) (low high : Bool) : FlagNum → Option Bool :=
  fun i => if i = cb then some low else if i.val = cb.val + 1 then some high else none

/-- A thread's private state after an instruction, in full: registers, flags, pc, and the rest kept. -/
def ThreadBecomes (th th' : Thread) (regs : RegNum → Word) (flags : FlagNum → Bool) (pc : Word) : Prop :=
  (∀ r, th'.readReg r = regs r) ∧ (∀ i, th'.readFlag i = flags i) ∧ th'.pc = pc ∧ SameControl th th'

/-- The whole effect of an instruction that touches only its own thread: one register and named flags
written, pc stepped by 2, memory and everything else unchanged. -/
def DataEffect (s s' : State) (rd : RegNum) (v : Word) (w : FlagNum → Option Bool) : Prop :=
  OnlyThread s.turn s s' ∧ SameMemory s s' ∧
    ThreadBecomes s.cur (s'.thread s.turn) (regsWith s.cur rd v) (flagsWith s.cur w) (s.cur.pc + 2)

/-- The same with no register written. -/
def FlagEffect (s s' : State) (w : FlagNum → Option Bool) : Prop :=
  OnlyThread s.turn s s' ∧ SameMemory s s' ∧
    ThreadBecomes s.cur (s'.thread s.turn) s.cur.readReg (flagsWith s.cur w) (s.cur.pc + 2)

/-- The whole effect of an instruction that touches only its own thread: registers, flags and pc as
given, EXR, SPR1, SPR2, INTR, DEBUG and INTRMASK those of `control`, memory and all else unchanged. -/
def OwnEffect (s s' : State) (control : Thread) (regs : RegNum → Word) (flags : FlagNum → Bool)
    (pc : Word) : Prop :=
  OnlyThread s.turn s s' ∧ SameMemory s s' ∧ ThreadBecomes control (s'.thread s.turn) regs flags pc

/-- A register file after `x[ra] <- v` for a stepping form, or kept. -/
def regsStepped (th : Thread) (ra : RegNum) (step : Option Int) : RegNum → Word :=
  match step with
  | some d => regsWith th ra (BitVec.ofInt 16 ((th.readReg ra).toNat + d))
  | none => th.readReg

/-- Thread t's private state after an exception entry with the EXR bits `bits`, in full (R305). -/
def ExceptionEntered (t : Tid) (th th' : Thread) (bits : Word) : Prop :=
  th' = { th with
    exr := th.exr ||| bits
    spr2 := th.pc
    debug := true
    imask := true
    pc := 0x0010#16 + 0x0400#16 * BitVec.ofNat 16 t.val }

/-- The executing thread entered an exception with the EXR bits `bits`, and nothing else happened. -/
def Raised (s s' : State) (bits : Word) : Prop :=
  OnlyThread s.turn s s' ∧ SameMemory s s' ∧ ExceptionEntered s.turn s.cur (s'.thread s.turn) bits

/-- The instruction completes in a next state of which P holds. -/
def Completes (i : Instr) (s : State) (P : State → Prop) : Prop :=
  ∃ s', exec i s = .next s' ∧ P s'

/-- The word at the even address `a` is `v`, and every byte outside it reads as before. -/
def WordStored (s s' : State) (a v : Word) : Prop :=
  s'.loadWord a = v ∧
    ∀ b : Nat, b ≠ a.toNat → b ≠ a.toNat + 1 → Memory.readByte s'.mem b = Memory.readByte s.mem b

/-- The whole effect of a store of word `v` at `a`, the registers being `regs` afterwards: the two bytes of
the word, the executing thread's registers and pc, and nothing else. -/
def StoreEffect (s s' : State) (a v : Word) (regs : RegNum → Word) : Prop :=
  s' = { s.setThread s.turn (s'.thread s.turn) with mem := s'.mem } ∧ WordStored s s' a v ∧
    ThreadBecomes s.cur (s'.thread s.turn) regs (flagsWith s.cur noFlags) (s.cur.pc + 2)

/-- The output queue of port p took `v` if it held fewer than 256 words; every other queue is as before. What the
ports have received since reset grew by the same word, or not at all. -/
def Appended (s s' : State) (p : Port) (v : Word) : Prop :=
  ∀ q : Port,
    (s'.outq[q] = if q = p ∧ (s.outq[q]).length < 256 then s.outq[q] ++ [v] else s.outq[q]) ∧
    s'.portReceived q =
      if q = p ∧ (s.outq[q]).length < 256 then s.portReceived q ++ [v] else s.portReceived q

/-- The whole effect of a video store: one more Video RAM write unless `sel` is 0, the executing thread's
registers and pc, and nothing else. -/
def VideoEffect (s s' : State) (sel off v : Word) (regs : RegNum → Word) : Prop :=
  s' = { s.setThread s.turn (s'.thread s.turn) with vram := s'.vram } ∧ SameMemory s s' ∧
    s'.vram = (if sel = 0 then s.vram else s.vram ++ [⟨BitVec.ofNat 2 sel.toNat, off, v⟩]) ∧
    ThreadBecomes s.cur (s'.thread s.turn) regs (flagsWith s.cur noFlags) (s.cur.pc + 2)

/-- The executing thread stalls at point p, whose row then awaits the threads of `row`; pc, registers and all
else are unchanged. -/
def Stalls (s s' : State) (p : Point) (row : Tid → Bool) : Prop :=
  s' = { s with wr := s'.wr, ws := s'.ws } ∧ SameMemory s s' ∧
    (∀ (q : Point) (u : Tid), (s'.wr[q]).getLsbD u = if q = p then row u else (s.wr[q]).getLsbD u) ∧
    ∀ u : Tid, s'.ws[u] = if u = s.turn then ⟨true, p⟩ else s.ws[u]

/-- Thread n is stalled at a point that still awaits thread m (R231). -/
def WaitsFor (s : State) (n m : Tid) : Prop :=
  (s.ws[n]).w = true ∧ (s.wr[(s.ws[n]).s]).getLsbD m = true

/-- The instructions of R313. -/
def HoldsOff (i : Instr) : Prop :=
  (∃ r c, i = .jmpr r c) ∨ (∃ r c, i = .jalr r c) ∨ (∃ o c, i = .jmpi o c) ∨ (∃ o c, i = .jali o c) ∨
    i = .jmpSpr1 ∨ ∃ b, i = .putIntrMask b

/-- The EXR bits of a store at `pc` to `a`: 2 for an odd address, 4 for a protected one. -/
def storeBits (pc a : Word) : Word :=
  (if a.toNat % 2 = 1 then 2 else 0) +
    (if a.toNat < 0x4000 ∨ (a.toNat < 0x8000 ∧ 0x4000 ≤ pc.toNat) then 4 else 0)

/-- The EXR bits of a taken jump to `a`: 2 for an odd target, 4 for one in data memory. -/
def jumpBits (a : Word) : Word :=
  (if a.toNat % 2 = 1 then 2 else 0) + (if 0x8000 ≤ a.toNat then 4 else 0)

/-- What an instruction that may jump to `target` does (R245): untaken it only steps on; taken it raises, or
goes to the target with R7 linked if it is a linking form. -/
def JumpEffect (i : Instr) (s : State) (cb : FlagNum) (link : Bool) (target : Word) : Prop :=
  (s.cur.readFlag cb = false → Completes i s fun t => FlagEffect s t noFlags) ∧
  (s.cur.readFlag cb = true → IsAligned target → target.toNat < 0x8000 →
    Completes i s fun t => OwnEffect s t s.cur
      (fun r => if link = true ∧ r = 7 then s.cur.pc + 2 else s.reg r) (flagsWith s.cur noFlags) target) ∧
  (s.cur.readFlag cb = true → ¬ (IsAligned target ∧ target.toNat < 0x8000) →
    Completes i s fun t => Raised s t (jumpBits target))

/-! ## Runs -/

/-- The state after n steps, if each of them answers a next state. -/
def runFor : Nat → State → Option State
  | 0, s => some s
  | n + 1, s =>
    match step s with
    | .next s' => runFor n s'
    | .fault _ => none
    | .refused _ => none

/-! ## Who writes FLAG (R27) -/

/-- The flags an instruction can write, by the table of R27. -/
def flagWriter : Instr → FlagNum → Bool
  | .add16 _ _ _, k | .addi16 _ _ _, k | .sub16 _ _ _, k | .subi16 _ _ _, k | .avg16 _ _ _, k
  | .savg16 _ _ _, k | .mulLo _ _ _, k | .mulHi _ _ _, k | .macLo _ _ _, k | .macHi _ _ _, k
  | .swft _ _ _, k => k == 6
  | .add8 _ _ _, k | .addi8 _ _ _, k | .sub8 _ _ _, k | .subi8 _ _ _, k | .avg8 _ _ _, k
  | .savg8 _ _ _, k => k == 6 || k == 7
  | .cmpEq16 _ _ cb, k | .cmpNe16 _ _ cb, k | .cmpGt16 _ _ cb, k | .cmpGe16 _ _ cb, k
  | .cmpLt16 _ _ cb, k | .cmpLe16 _ _ cb, k | .read _ cb _, k | .write _ cb _, k => k == cb
  | .cmpEq8 _ _ cb, k | .cmpNe8 _ _ cb, k | .cmpGt8 _ _ cb, k | .cmpGe8 _ _ cb, k
  | .cmpLt8 _ _ cb, k | .cmpLe8 _ _ cb, k => k == cb || k.val == cb.val + 1
  | .putFlag _, k => k != 0
  | _, _ => false

/-! ## The invariant -/

/-- R0 is 0 in every thread whose DEBUG is 0 (R22). -/
def R0Rule (s : State) : Prop := ∀ t : Tid, (s.thread t).debug = false → (s.thread t).readReg 0 = 0

/-- Bit 0 of every FLAG is 1 (R26). -/
def Flag0Rule (s : State) : Prop := ∀ t : Tid, (s.thread t).flag.getLsbD 0 = true

/-- Bits 5 to 15 of every EXR are 0 (R28, U3). -/
def ExrRule (s : State) : Prop := ∀ t : Tid, (s.thread t).exr.extractLsb' 5 11 = 0

/-- No queue holds more than its depth (R81, R82). -/
def QueueRule (s : State) : Prop :=
  ∀ p : Port, (s.outq[p]).length ≤ Config.outQueueDepth ∧ (s.inq[p]).length ≤ Config.inQueueDepth

/-- Only banks 1 and 2 of Video RAM are written (R209). -/
def VideoRule (s : State) : Prop := ∀ v ∈ s.vram, v.sel = 1 ∨ v.sel = 2

/-- The invariant of the barriers (R227): a row awaits someone exactly when someone is stalled at the
point, the awaited and the stalled are disjoint, and all of them are active. -/
def BarrierRule (s : State) : Prop :=
  ∀ p : Point, (s.wr[p] ≠ 0 ↔ ∃ n, s.stalledAt p n = true) ∧
    ∀ n : Tid, ¬ ((s.wr[p]).getLsbD n = true ∧ s.stalledAt p n = true) ∧
      ((s.wr[p]).getLsbD n = true ∨ s.stalledAt p n = true → s.active n = true)

/-- A pending activation names a dead thread and was made by one that is active and not stalled (R235,
R236). -/
def ActivationRule (s : State) : Prop :=
  ∀ a, s.activation = some a → s.active a.target = false ∧ s.runnable a.initiator = true

/-- The invariant of the machine. -/
structure State.Inv (s : State) : Prop where
  memory : Memory.wf s.mem = true
  r0 : R0Rule s
  flag0 : Flag0Rule s
  exr : ExrRule s
  queues : QueueRule s
  video : VideoRule s
  barriers : BarrierRule s
  activation : ActivationRule s

/-! ## Protection (R70) -/

/-- What one step may do to a byte of memory: nothing below 0x4000, and below 0x8000 only from an
instruction that stands below 0x4000. -/
def ProtectedStep (s s' : State) : Prop :=
  ∀ a : Nat, a < 0x8000 → Memory.readByte s'.mem a ≠ Memory.readByte s.mem a →
    0x4000 ≤ a ∧ s.cur.pc.toNat < 0x4000

/-! ## Isolation (R20) -/

/-- Two machines that differ at most in thread u's registers, FLAG, EXR, SPR1, SPR2, INTR, DEBUG and
INTRMASK. -/
def AgreeButPrivate (u : Tid) (s₁ s₂ : State) : Prop :=
  s₂ = s₁.setThread u { s₂.thread u with pc := (s₁.thread u).pc }

end Sys2Proof.Machine
end

