-- ==== Sys2Proof/Certificates/Slice0/Obligations.lean ====
section
/-!
DEFINITION. The statements about the model, each from a rule of spec/. A docstring names the rule it
formalises; where the rule is a decision or an inference of the spec itself (D<n> of
spec/92_eei_decisions.md) or a choice of the model (a log entry), it says so.
-/

open Sys2Proof Sys2Proof.Machine

/-! ## Encoding -/

/-- R92, R98, R102, with the don't-care bits 0 (the spec's decision D3; size bit: its decision D2): every
well-formed instruction of all 83 forms is read back from its word, with every operand. -/
def Obligations.DecodeOfEncodeIsTheInstruction : Prop :=
  ∀ i : Instr, i.wellFormed = true → decodeWord (encodeWord i) = .ok i

/-- R98 (size bit and don't-care bits: the spec's decisions D2 and D3): "A word w is that instruction exactly when
w & mask = match", over every word, and the instruction decoded is well-formed. -/
def Obligations.DecodingFollowsTheEncodingTable : Prop :=
  (∀ (w : Word) (i : Instr), decodeWord w = .ok i →
    w &&& (rowOf i).mask = (rowOf i).value ∧ i.wellFormed = true) ∧
  (∀ (w : Word) (i : Instr), w &&& (rowOf i).mask = (rowOf i).value →
    ∃ j, decodeWord w = .ok j ∧ rowOf j = rowOf i)

/-- R98 (the example words of R227, R235, R246, R247, R248, R249, R253, R261, R274, R276): words written
out in the spec decode to the instructions it gives them. -/
def Obligations.ExampleWordsDecode : Prop :=
  decodeWord 0x9150 = .ok (.wait 0b1010 2) ∧ decodeWord 0x9558 = .ok (.init 5 3) ∧
  decodeWord 0x99C0 = .ok (.jmpr 7 0) ∧ decodeWord 0xA0C0 = .ok (.jalr 3 0) ∧
  decodeWord 0xAFD1 = .ok (.jmpi (-6) 1) ∧ decodeWord 0xB080 = .ok (.jali 16 0) ∧
  decodeWord 0x9A00 = .ok .jmpSpr1 ∧ decodeWord 0xC803 = .ok (.getFlag 3) ∧
  decodeWord 0xD880 = .ok (.putFlag 2) ∧ decodeWord 0xDC08 = .ok (.putDebug true)

/-- R99 (the spec's decision D4): exactly the words of the six unassigned opcode and sub-op pairs are no
instruction, and a thread that fetches one raises ILLEGAL_INSTRUCTION and has no other effect. -/
def Obligations.UnassignedWordsRaiseIllegalInstruction : Prop :=
  (∀ w : Word, (∃ e, decodeWord w = .error e) ↔
    (0x7E00 ≤ w.toNat ∧ w.toNat ≤ 0x7FFF) ∨ (0x8600 ≤ w.toNat ∧ w.toNat ≤ 0x87FF) ∨
      (0x9600 ≤ w.toNat ∧ w.toNat ≤ 0x97FF) ∨ (0xEA00 ≤ w.toNat ∧ w.toNat ≤ 0xEFFF)) ∧
  (∀ (s : State) (e : DecodeError), IsAligned s.cur.pc → s.cur.pc.toNat < 0x8000 →
    decodeWord (s.loadWord s.cur.pc) = .error e → ∃ t, s.runTurn = .next t ∧ Raised s t 1)

/-! ## The clock cycle -/

/-- R72, R102, R312, R360: when the thread whose cycle it is is active, not stalled, and its pc is even
and below 0x8000 and holds a word that decodes to i, the step is exec of i on the state at the start of the
cycle, then the interrupt boundary of i, then the rotation. -/
def Obligations.StepRunsTheDecodedInstruction : Prop :=
  ∀ (s : State) (i : Instr),
    s.beginCycle.runnable s.beginCycle.turn = true → IsAligned s.beginCycle.cur.pc →
    s.beginCycle.cur.pc.toNat < 0x8000 →
    decodeWord (s.beginCycle.loadWord s.beginCycle.cur.pc) = .ok i →
      step s = onNext (fun t => .next (t.boundary i).rotate) (exec i s.beginCycle)

/-- R360 (the spec's decision D31): in the cycle of a thread that is dead or stalled no instruction
executes; the cycle passes, and the next one belongs to the next thread. With no device move scheduled (the
model's list of moves, log 7) and no activation made by that thread pending, nothing but the turn changes. -/
def Obligations.DeadOrStalledThreadLetsItsCyclePass : Prop :=
  (∀ s : State, s.beginCycle.runnable s.turn = false →
    step s = .next { s.beginCycle with turn := s.turn + 1 }) ∧
  (∀ s : State, s.runnable s.turn = false → s.inputs = [] →
    (∀ a, s.activation = some a → a.initiator ≠ s.turn) → step s = .next { s with turn := s.turn + 1 })

/-- R72 (the spec's decision D23): a fetch at an odd pc, or at 0x8000 or above, is a fault of the model and
none of the five exceptions. That a pc which is both odd and at or above 0x8000 is reported as odd is the model's
choice (log 11). -/
def Obligations.FetchOutsideProgramMemoryFaults : Prop :=
  ∀ s : State, s.beginCycle.runnable s.turn = true →
    (¬ IsAligned s.beginCycle.cur.pc → step s = .fault .fetchOdd) ∧
    (IsAligned s.beginCycle.cur.pc → 0x8000 ≤ s.beginCycle.cur.pc.toNat →
      step s = .fault .fetchOutsideProgramMemory)

/-- R40 (source rows and the spec's decisions D31, D33): every value that the table of the reset state
gives. -/
def Obligations.ResetStateHasTheGivenValues : Prop :=
  (∀ u : Tid, (State.reset.active u = true ↔ u = 0) ∧ State.reset.stalled u = false ∧
    (State.reset.irq[u]) = none ∧ (State.reset.thread u).pc = 0 ∧
    (State.reset.thread u).readReg 0 = 0 ∧ (State.reset.thread u).readFlag 0 = true ∧
    (State.reset.thread u).exr = 0 ∧ (State.reset.thread u).debug = false ∧
    (State.reset.thread u).imask = false) ∧
  (∀ p : Point, (State.reset.wr[p]) = 0) ∧
  (∀ p : Port, (State.reset.inq[p]) = [] ∧ (State.reset.outq[p]) = [] ∧ State.reset.portReceived p = []) ∧
  State.reset.vram = [] ∧ State.reset.activation = none ∧ State.reset.turn = 0

/-- R83, R311 (the spec's decisions D26, D34): what a device can do between cycles, each move with its own
condition and changing nothing else; that a move without its condition changes nothing is the model's choice
(log 18). What an output port has received since reset (R365) is not changed when its device takes a word. -/
def Obligations.DeviceMovesChangeOnlyTheirQueueOrRequest : Prop :=
  ∀ s : State,
    (∀ (p : Port) (v : Word), ∃ t, s.deviceMove (.offer p v) = t ∧ t = { s with inq := t.inq } ∧
      ∀ q : Port, t.inq[q] =
        if q = p ∧ (s.inq[p]).length < Config.inQueueDepth then s.inq[q] ++ [v] else s.inq[q]) ∧
    (∀ p : Port, ∃ t, s.deviceMove (.drain p) = t ∧ t = { s with outq := t.outq, taken := t.taken } ∧
      ∀ q : Port, t.outq[q] = (if q = p then (s.outq[q]).drop 1 else s.outq[q]) ∧
        t.portReceived q = s.portReceived q) ∧
    (∀ (u : Tid) (a : Word), ∃ t, s.deviceMove (.request u a) = t ∧ t = { s with irq := t.irq } ∧
      ∀ n : Tid, t.irq[n] = if n = u ∧ s.irq[u] = none then some a else s.irq[n])

/-! ## Arithmetic -/

/-- R122, R124: the 16-bit sum and difference, wrapped, with the carry or borrow in flag 6. That size bit 1 is the
`.16` form is the spec's decision D2 (log 14), and that flag 7 is kept is derived in R120. -/
def Obligations.WordAddAndSubtract : Prop :=
  DecodesR3 0x0200 0xFE00 .add16 ∧ DecodesR3 0x0600 0xFE00 .sub16 ∧
  ∀ (s : State) (ra rb rd : RegNum),
    Completes (.add16 ra rb rd) s (fun t => DataEffect s t rd
      (BitVec.ofNat 16 ((s.reg ra).toNat + (s.reg rb).toNat))
      (flagOnly 6 (decide (2 ^ 16 ≤ (s.reg ra).toNat + (s.reg rb).toNat)))) ∧
    Completes (.sub16 ra rb rd) s (fun t => DataEffect s t rd
      (BitVec.ofInt 16 ((s.reg ra).toNat - (s.reg rb).toNat))
      (flagOnly 6 (decide ((s.reg ra).toNat < (s.reg rb).toNat))))

/-- R121, R123: the two byte sums and differences, wrapped lane by lane, with each lane's carry or borrow
in flag 6 (low) and flag 7 (high). That size bit 0 is the `.8` form is the spec's decision D2 (log 14). -/
def Obligations.LaneAddAndSubtract : Prop :=
  DecodesR3 0x0000 0xFE00 .add8 ∧ DecodesR3 0x0400 0xFE00 .sub8 ∧
  ∀ (s : State) (ra rb rd : RegNum),
    Completes (.add8 ra rb rd) s (fun t => DataEffect s t rd
      (ofLanes (highLane (s.reg ra) + highLane (s.reg rb)) (lowLane (s.reg ra) + lowLane (s.reg rb)))
      (flags67 (decide (2 ^ 8 ≤ lowLane (s.reg ra) + lowLane (s.reg rb)))
        (decide (2 ^ 8 ≤ highLane (s.reg ra) + highLane (s.reg rb))))) ∧
    Completes (.sub8 ra rb rd) s (fun t => DataEffect s t rd
      (ofLanes (highLane (s.reg ra) - highLane (s.reg rb)) (lowLane (s.reg ra) - lowLane (s.reg rb)))
      (flags67 (decide (lowLane (s.reg ra) < lowLane (s.reg rb)))
        (decide (highLane (s.reg ra) < highLane (s.reg rb)))))

/-- R129, R130, R131, R132: the immediate forms, the 3-bit immediate unsigned and added to each lane (the
spec's decision D13; size bit: its decision D2, log 14). -/
def Obligations.AddAndSubtractImmediate : Prop :=
  DecodesAs 0xE000 0xFE00 (fun w => .addi8 (fieldA w) (fieldImm3 w) (fieldD w)) ∧
  DecodesAs 0xE200 0xFE00 (fun w => .addi16 (fieldA w) (fieldImm3 w) (fieldD w)) ∧
  DecodesAs 0xE400 0xFE00 (fun w => .subi8 (fieldA w) (fieldImm3 w) (fieldD w)) ∧
  DecodesAs 0xE600 0xFE00 (fun w => .subi16 (fieldA w) (fieldImm3 w) (fieldD w)) ∧
  ∀ (s : State) (ra : RegNum) (k : BitVec 3) (rd : RegNum),
    Completes (.addi8 ra k rd) s (fun t => DataEffect s t rd
      (ofLanes (highLane (s.reg ra) + k.toNat) (lowLane (s.reg ra) + k.toNat))
      (flags67 (decide (2 ^ 8 ≤ lowLane (s.reg ra) + k.toNat))
        (decide (2 ^ 8 ≤ highLane (s.reg ra) + k.toNat)))) ∧
    Completes (.addi16 ra k rd) s (fun t => DataEffect s t rd
      (BitVec.ofNat 16 ((s.reg ra).toNat + k.toNat))
      (flagOnly 6 (decide (2 ^ 16 ≤ (s.reg ra).toNat + k.toNat)))) ∧
    Completes (.subi8 ra k rd) s (fun t => DataEffect s t rd
      (ofLanes (highLane (s.reg ra) - k.toNat) (lowLane (s.reg ra) - k.toNat))
      (flags67 (decide (lowLane (s.reg ra) < k.toNat)) (decide (highLane (s.reg ra) < k.toNat)))) ∧
    Completes (.subi16 ra k rd) s (fun t => DataEffect s t rd
      (BitVec.ofInt 16 ((s.reg ra).toNat - k.toNat))
      (flagOnly 6 (decide ((s.reg ra).toNat < k.toNat))))

/-- R125, R126, R127, R128: AVG, the truncated mean of the exact sum (the spec's decision D8), its flags cleared;
SAVG, half of the exact difference rounded down, in two's complement (its decision D9), the borrow in its
flags (size bit: its decision D2, log 14). -/
def Obligations.AveragesAndHalvedDifferences : Prop :=
  DecodesR3 0x0800 0xFE00 .avg8 ∧ DecodesR3 0x0A00 0xFE00 .avg16 ∧
  DecodesR3 0x0C00 0xFE00 .savg8 ∧ DecodesR3 0x0E00 0xFE00 .savg16 ∧
  ∀ (s : State) (ra rb rd : RegNum),
    Completes (.avg8 ra rb rd) s (fun t => DataEffect s t rd
      (ofLanes ((highLane (s.reg ra) + highLane (s.reg rb)) / 2)
        ((lowLane (s.reg ra) + lowLane (s.reg rb)) / 2)) (flags67 false false)) ∧
    Completes (.avg16 ra rb rd) s (fun t => DataEffect s t rd
      (BitVec.ofNat 16 (((s.reg ra).toNat + (s.reg rb).toNat) / 2)) (flagOnly 6 false)) ∧
    Completes (.savg8 ra rb rd) s (fun t => DataEffect s t rd
      (ofLanes (((highLane (s.reg ra) : Int) - highLane (s.reg rb)) / 2)
        (((lowLane (s.reg ra) : Int) - lowLane (s.reg rb)) / 2))
      (flags67 (decide (lowLane (s.reg ra) < lowLane (s.reg rb)))
        (decide (highLane (s.reg ra) < highLane (s.reg rb))))) ∧
    Completes (.savg16 ra rb rd) s (fun t => DataEffect s t rd
      (BitVec.ofInt 16 (((s.reg ra).toNat - (s.reg rb).toNat : Int) / 2))
      (flagOnly 6 (decide ((s.reg ra).toNat < (s.reg rb).toNat))))

/-! ## Shifts -/

/-- R142, R144, R146, R148, with the amount in the low four bits of RB (R140, the spec's decision D10; size
bit: its decision D2, log 14). -/
def Obligations.WordShiftsAndRotate : Prop :=
  DecodesR3 0x1200 0xFA00 .rsl16 ∧ DecodesR3 0x1A00 0xFA00 .rsa16 ∧ DecodesR3 0x2200 0xFA00 .lsl16 ∧
  DecodesR3 0x2A00 0xFA00 .rot16 ∧
  ∀ (s : State) (ra rb rd : RegNum), let n := (s.reg rb).toNat % 16
    Completes (.rsl16 ra rb rd) s (fun t => DataEffect s t rd
      (BitVec.ofNat 16 ((s.reg ra).toNat / 2 ^ n)) noFlags) ∧
    Completes (.rsa16 ra rb rd) s (fun t => DataEffect s t rd
      (BitVec.ofInt 16 ((s.reg ra).toInt / 2 ^ n)) noFlags) ∧
    Completes (.lsl16 ra rb rd) s (fun t => DataEffect s t rd
      (BitVec.ofNat 16 ((s.reg ra).toNat * 2 ^ n)) noFlags) ∧
    Completes (.rot16 ra rb rd) s (fun t => DataEffect s t rd
      (BitVec.ofNat 16 ((s.reg ra).toNat * 2 ^ n + (s.reg ra).toNat / 2 ^ (16 - n))) noFlags)

/-- R141, R143, R145, R147: each lane shifted by itself, with the amount for both in the low three bits of
RB (R140, the spec's decision D10; size bit: its decision D2, log 14). -/
def Obligations.LaneShiftsAndRotate : Prop :=
  DecodesR3 0x1000 0xFA00 .rsl8 ∧ DecodesR3 0x1800 0xFA00 .rsa8 ∧ DecodesR3 0x2000 0xFA00 .lsl8 ∧
  DecodesR3 0x2800 0xFA00 .rot8 ∧
  ∀ (s : State) (ra rb rd : RegNum), let n := (s.reg rb).toNat % 8
    Completes (.rsl8 ra rb rd) s (fun t => DataEffect s t rd
      (ofLanes (highLane (s.reg ra) / 2 ^ n) (lowLane (s.reg ra) / 2 ^ n)) noFlags) ∧
    Completes (.rsa8 ra rb rd) s (fun t => DataEffect s t rd
      (ofLanes (signedLane (highLane (s.reg ra)) / 2 ^ n) (signedLane (lowLane (s.reg ra)) / 2 ^ n))
      noFlags) ∧
    Completes (.lsl8 ra rb rd) s (fun t => DataEffect s t rd
      (ofLanes (highLane (s.reg ra) * 2 ^ n) (lowLane (s.reg ra) * 2 ^ n)) noFlags) ∧
    Completes (.rot8 ra rb rd) s (fun t => DataEffect s t rd
      (ofLanes (highLane (s.reg ra) * 2 ^ n + highLane (s.reg ra) / 2 ^ (8 - n))
        (lowLane (s.reg ra) * 2 ^ n + lowLane (s.reg ra) / 2 ^ (8 - n))) noFlags)

/-! ## Compares -/

/-- R152, R154, R156, R158, R160, R162: the relation on the two words, unsigned (R150, the spec's decision
D6; size bit: its decision D2, log 14), in FLAG[CB] alone; FLAG[0] stays 1. -/
def Obligations.WordCompares : Prop :=
  DecodesR3 0x3200 0xFE00 .cmpEq16 ∧ DecodesR3 0x3600 0xFE00 .cmpNe16 ∧ DecodesR3 0x3A00 0xFE00 .cmpGt16 ∧
  DecodesR3 0x3E00 0xFE00 .cmpGe16 ∧ DecodesR3 0x4200 0xFE00 .cmpLt16 ∧ DecodesR3 0x4600 0xFE00 .cmpLe16 ∧
  ∀ (s : State) (ra rb : RegNum) (cb : FlagNum), let a := (s.reg ra).toNat; let b := (s.reg rb).toNat
    Completes (.cmpEq16 ra rb cb) s (fun t => FlagEffect s t (flagOnly cb (decide (a = b)))) ∧
    Completes (.cmpNe16 ra rb cb) s (fun t => FlagEffect s t (flagOnly cb (decide (a ≠ b)))) ∧
    Completes (.cmpGt16 ra rb cb) s (fun t => FlagEffect s t (flagOnly cb (decide (b < a)))) ∧
    Completes (.cmpGe16 ra rb cb) s (fun t => FlagEffect s t (flagOnly cb (decide (b ≤ a)))) ∧
    Completes (.cmpLt16 ra rb cb) s (fun t => FlagEffect s t (flagOnly cb (decide (a < b)))) ∧
    Completes (.cmpLe16 ra rb cb) s (fun t => FlagEffect s t (flagOnly cb (decide (a ≤ b))))

/-- R151, R153, R155, R157, R159, R161: the relation on the low bytes in FLAG[CB] and on the high bytes in
FLAG[CB + 1], unsigned (R150, the spec's decision D6); with CB = 7 the high result is dropped (D12);
size bit: its decision D2 (log 14). -/
def Obligations.LaneCompares : Prop :=
  DecodesR3 0x3000 0xFE00 .cmpEq8 ∧ DecodesR3 0x3400 0xFE00 .cmpNe8 ∧ DecodesR3 0x3800 0xFE00 .cmpGt8 ∧
  DecodesR3 0x3C00 0xFE00 .cmpGe8 ∧ DecodesR3 0x4000 0xFE00 .cmpLt8 ∧ DecodesR3 0x4400 0xFE00 .cmpLe8 ∧
  ∀ (s : State) (ra rb : RegNum) (cb : FlagNum),
    let al := lowLane (s.reg ra); let ah := highLane (s.reg ra)
    let bl := lowLane (s.reg rb); let bh := highLane (s.reg rb)
    Completes (.cmpEq8 ra rb cb) s (fun t =>
      FlagEffect s t (flagPair cb (decide (al = bl)) (decide (ah = bh)))) ∧
    Completes (.cmpNe8 ra rb cb) s (fun t =>
      FlagEffect s t (flagPair cb (decide (al ≠ bl)) (decide (ah ≠ bh)))) ∧
    Completes (.cmpGt8 ra rb cb) s (fun t =>
      FlagEffect s t (flagPair cb (decide (bl < al)) (decide (bh < ah)))) ∧
    Completes (.cmpGe8 ra rb cb) s (fun t =>
      FlagEffect s t (flagPair cb (decide (bl ≤ al)) (decide (bh ≤ ah)))) ∧
    Completes (.cmpLt8 ra rb cb) s (fun t =>
      FlagEffect s t (flagPair cb (decide (al < bl)) (decide (ah < bh)))) ∧
    Completes (.cmpLe8 ra rb cb) s (fun t =>
      FlagEffect s t (flagPair cb (decide (al ≤ bl)) (decide (ah ≤ bh))))

/-! ## Multiply -/

/-- R166 to R169: the product of two unsigned bytes (R165, the spec's decision D7), alone with flag 6
cleared, or added to the old RD with the carry in flag 6. -/
def Obligations.MultiplyAndAccumulate : Prop :=
  DecodesR3 0x4800 0xFA00 .macLo ∧ DecodesR3 0x4A00 0xFA00 .macHi ∧ DecodesR3 0x5000 0xFA00 .mulLo ∧
  DecodesR3 0x5200 0xFA00 .mulHi ∧
  ∀ (s : State) (ra rb rd : RegNum),
    let pl := lowLane (s.reg ra) * lowLane (s.reg rb); let ph := highLane (s.reg ra) * highLane (s.reg rb)
    Completes (.macLo ra rb rd) s (fun t => DataEffect s t rd (BitVec.ofNat 16 ((s.reg rd).toNat + pl))
      (flagOnly 6 (decide (2 ^ 16 ≤ (s.reg rd).toNat + pl)))) ∧
    Completes (.macHi ra rb rd) s (fun t => DataEffect s t rd (BitVec.ofNat 16 ((s.reg rd).toNat + ph))
      (flagOnly 6 (decide (2 ^ 16 ≤ (s.reg rd).toNat + ph)))) ∧
    Completes (.mulLo ra rb rd) s (fun t => DataEffect s t rd (BitVec.ofNat 16 pl) (flagOnly 6 false)) ∧
    Completes (.mulHi ra rb rd) s (fun t => DataEffect s t rd (BitVec.ofNat 16 ph) (flagOnly 6 false)) ∧
    pl < 2 ^ 16 ∧ ph < 2 ^ 16

/-! ## Permutation, logic, immediates -/

/-- R176 to R179: the byte placements the spec chose for the lost figures (R175, its decision D11). -/
def Obligations.MixAndMuxPlaceBytes : Prop :=
  DecodesR3 0x5800 0xFA00 .mixLo ∧ DecodesR3 0x5A00 0xFA00 .mixHi ∧ DecodesR3 0x6000 0xFA00 .muxLo ∧
  DecodesR3 0x6200 0xFA00 .muxHi ∧
  ∀ (s : State) (ra rb rd : RegNum),
    Completes (.mixLo ra rb rd) s (fun t =>
      DataEffect s t rd (ofLanes (highLane (s.reg rb)) (lowLane (s.reg ra))) noFlags) ∧
    Completes (.mixHi ra rb rd) s (fun t =>
      DataEffect s t rd (ofLanes (highLane (s.reg ra)) (lowLane (s.reg rb))) noFlags) ∧
    Completes (.muxLo ra rb rd) s (fun t =>
      DataEffect s t rd (ofLanes (lowLane (s.reg ra)) (highLane (s.reg rb))) noFlags) ∧
    Completes (.muxHi ra rb rd) s (fun t =>
      DataEffect s t rd (ofLanes (lowLane (s.reg rb)) (highLane (s.reg ra))) noFlags)

/-- R180 to R183: the bitwise operations, every bit, no flag. -/
def Obligations.LogicOperations : Prop :=
  DecodesR3 0x6800 0xFE00 .andW ∧ DecodesR3 0x6A00 0xFE00 .orW ∧ DecodesR3 0x6C00 0xFE00 .xorW ∧
  DecodesR2 0x6E00 0xFE00 .notW ∧
  ∀ (s : State) (ra rb rd : RegNum),
    Completes (.andW ra rb rd) s (fun t => DataEffect s t rd
      (BitVec.ofNat 16 ((s.reg ra).toNat &&& (s.reg rb).toNat)) noFlags) ∧
    Completes (.orW ra rb rd) s (fun t => DataEffect s t rd
      (BitVec.ofNat 16 ((s.reg ra).toNat ||| (s.reg rb).toNat)) noFlags) ∧
    Completes (.xorW ra rb rd) s (fun t => DataEffect s t rd
      (BitVec.ofNat 16 ((s.reg ra).toNat ^^^ (s.reg rb).toNat)) noFlags) ∧
    Completes (.notW ra rd) s (fun t => DataEffect s t rd
      (BitVec.ofNat 16 (0xFFFF - (s.reg ra).toNat)) noFlags)

/-- R184, R185: both bytes of RD receive the lower, or the higher, byte of RA. -/
def Obligations.CopyByteToBothHalves : Prop :=
  DecodesR2 0x7000 0xFE00 .copyLo ∧ DecodesR2 0x7200 0xFE00 .copyHi ∧
  ∀ (s : State) (ra rd : RegNum),
    Completes (.copyLo ra rd) s (fun t => DataEffect s t rd
      (ofLanes (lowLane (s.reg ra)) (lowLane (s.reg ra))) noFlags) ∧
    Completes (.copyHi ra rd) s (fun t => DataEffect s t rd
      (ofLanes (highLane (s.reg ra)) (highLane (s.reg ra))) noFlags)

/-- R186, R187, R188: SWAP, and the immediate loads that keep the other byte of RD. That SWAP writes no flag
and that LI.HI keeps the lower byte are marked as derived in the spec. -/
def Obligations.SwapAndLoadImmediate : Prop :=
  DecodesR2 0x7400 0xFC00 .swap ∧
  DecodesAs 0xB800 0xF800 (fun w => .liHi (fieldImm8 w) (fieldD w)) ∧
  DecodesAs 0xC000 0xF800 (fun w => .liLo (fieldImm8 w) (fieldD w)) ∧
  ∀ (s : State) (ra rd : RegNum) (imm : Byte),
    Completes (.swap ra rd) s (fun t => DataEffect s t rd
      (ofLanes (lowLane (s.reg ra)) (highLane (s.reg ra))) noFlags) ∧
    Completes (.liHi imm rd) s (fun t => DataEffect s t rd
      (ofLanes imm.toNat (lowLane (s.reg rd))) noFlags) ∧
    Completes (.liLo imm rd) s (fun t => DataEffect s t rd
      (ofLanes (highLane (s.reg rd)) imm.toNat) noFlags)

/-! ## Memory -/

/-- R11, R64, R74: a word read at an even address is the last word written there, and every other word is
untouched. In the byte image of either byte order (`BYTE_ORDER` is open) the two bytes of the word are those of
that order, and every other byte is untouched. -/
def Obligations.ReadAfterWriteOfWords : Prop :=
  ∀ (m : Memory) (a b v : Word), IsAligned a → IsAligned b →
    Memory.readWord (Memory.writeWord m a v) b = (if b = a then v else Memory.readWord m b) ∧
    ∀ o : ByteOrder, let m' := Memory.writeWord m a v
      Memory.imageByte o m' a.toNat = (bytesOfWord o v).1 ∧
      Memory.imageByte o m' (a.toNat + 1) = (bytesOfWord o v).2 ∧
      ∀ c : Nat, c ≠ a.toNat → c ≠ a.toNat + 1 → Memory.imageByte o m' c = Memory.imageByte o m c

/-- R9, R195, R196, R197, R198: at an even address a load puts the word of that address into RD, steps RA by
2 or -2 in the two stepping forms, and changes nothing else; no even address is refused (D39). RA = RD naming
a writable register is excluded for the stepping forms only. -/
def Obligations.AlignedLoadsComplete : Prop :=
  DecodesR2 0x7800 0xFE00 .lw ∧ DecodesR2 0x7A00 0xFE00 .lwi ∧ DecodesR2 0x7C00 0xFE00 .lwd ∧
  ∀ (s : State) (ra rd : RegNum), IsAligned (s.reg ra) →
    Completes (.lw ra rd) s (fun t => DataEffect s t rd (s.loadWord (s.reg ra)) noFlags) ∧
    (¬ (ra = rd ∧ (rd ≠ 0 ∨ s.cur.debug = true)) →
      Completes (.lwi ra rd) s (fun t => OwnEffect s t s.cur
        (fun r => if r = rd ∧ (rd ≠ 0 ∨ s.cur.debug = true) then s.loadWord (s.reg ra)
          else regsStepped s.cur ra (some 2) r) (flagsWith s.cur noFlags) (s.cur.pc + 2)) ∧
      Completes (.lwd ra rd) s (fun t => OwnEffect s t s.cur
        (fun r => if r = rd ∧ (rd ≠ 0 ∨ s.cur.debug = true) then s.loadWord (s.reg ra)
          else regsStepped s.cur ra (some (-2)) r) (flagsWith s.cur noFlags) (s.cur.pc + 2)))

/-- R199, R200, R201, R202, R70: a store to an even address that R70 permits writes the two bytes of
x[RB] at x[RA], steps RA in the two stepping forms, and changes nothing else. -/
def Obligations.PermittedStoresComplete : Prop :=
  DecodesAs 0x8000 0xFE00 (fun w => .sw (fieldA w) (fieldB w)) ∧
  DecodesAs 0x8200 0xFE00 (fun w => .swi (fieldA w) (fieldB w)) ∧
  DecodesAs 0x8400 0xFE00 (fun w => .swd (fieldA w) (fieldB w)) ∧
  ∀ (s : State) (ra rb : RegNum), IsAligned (s.reg ra) → StorePermitted s.cur.pc (s.reg ra) →
    Completes (.sw ra rb) s (fun t =>
      StoreEffect s t (s.reg ra) (s.reg rb) (regsStepped s.cur ra none)) ∧
    Completes (.swi ra rb) s (fun t =>
      StoreEffect s t (s.reg ra) (s.reg rb) (regsStepped s.cur ra (some 2))) ∧
    Completes (.swd ra rb) s (fun t =>
      StoreEffect s t (s.reg ra) (s.reg rb) (regsStepped s.cur ra (some (-2))))

/-- R63, R195, R199, R203, R303 (the spec's decision D16): a load from an odd address raises UNALIGNED_ADDRESS; a
store, SWFT included, to an odd or a protected address raises UNALIGNED_ADDRESS, ILLEGAL_ADDRESS or both
together. Nothing is read into RD, written, stepped or sent. -/
def Obligations.ForbiddenLoadsAndStoresRaise : Prop :=
  (∀ (s : State) (ra rd : RegNum), ¬ IsAligned (s.reg ra) →
    Completes (.lw ra rd) s (fun t => Raised s t 2) ∧ Completes (.lwi ra rd) s (fun t => Raised s t 2) ∧
    Completes (.lwd ra rd) s (fun t => Raised s t 2)) ∧
  (∀ (s : State) (ra rb rd : RegNum), ¬ (IsAligned (s.reg ra) ∧ StorePermitted s.cur.pc (s.reg ra)) →
    Completes (.sw ra rb) s (fun t => Raised s t (storeBits s.cur.pc (s.reg ra))) ∧
    Completes (.swi ra rb) s (fun t => Raised s t (storeBits s.cur.pc (s.reg ra))) ∧
    Completes (.swd ra rb) s (fun t => Raised s t (storeBits s.cur.pc (s.reg ra))) ∧
    Completes (.swft ra rb rd) s (fun t => Raised s t (storeBits s.cur.pc (s.reg ra))))

/-- R203 (the port number is the RD field itself, the spec's decision D19): a permitted SWFT stores the word
whether or not the port takes it, appends it to the output queue if that holds fewer than 256 words, and says
so in flag 6. -/
def Obligations.StoreAndFallThroughToPort : Prop :=
  DecodesR3 0xF000 0xFE00 .swft ∧
  ∀ (s : State) (ra rb rd : RegNum), IsAligned (s.reg ra) → StorePermitted s.cur.pc (s.reg ra) →
    Completes (.swft ra rb rd) s (fun t =>
      t = { s.setThread s.turn (t.thread s.turn) with mem := t.mem, outq := t.outq } ∧
      WordStored s t (s.reg ra) (s.reg rb) ∧ Appended s t rd (s.reg rb) ∧
      ThreadBecomes s.cur (t.thread s.turn) s.cur.readReg
        (flagsWith s.cur (flagOnly 6 (decide ((s.outq[rd]).length < 256)))) (s.cur.pc + 2))

/-- R209, R210, R211, R212, R78 (roles of the operands and the values of the selector: the spec's decisions
D17, D18): with selector register 0 the store is cancelled, with 1 or 2 it is recorded as (selector, x[RA],
x[RB]); the stepping forms step RA by 1 or -1 either way, and nothing else changes. -/
def Obligations.VideoStoresComplete : Prop :=
  DecodesR3 0xF200 0xFE00 .swsg ∧ DecodesR3 0xF400 0xFE00 .swsgi ∧ DecodesR3 0xF600 0xFE00 .swsgd ∧
  ∀ (s : State) (ra rb rd : RegNum), (s.reg rd).toNat ≤ 2 →
    Completes (.swsg ra rb rd) s (fun t =>
      VideoEffect s t (s.reg rd) (s.reg ra) (s.reg rb) (regsStepped s.cur ra none)) ∧
    Completes (.swsgi ra rb rd) s (fun t =>
      VideoEffect s t (s.reg rd) (s.reg ra) (s.reg rb) (regsStepped s.cur ra (some 1))) ∧
    Completes (.swsgd ra rb rd) s (fun t =>
      VideoEffect s t (s.reg rd) (s.reg ra) (s.reg rb) (regsStepped s.cur ra (some (-1))))

/-! ## Ports -/

/-- R215, R216: READ takes the oldest word of the input queue into RD and sets FLAG[CB]; from an empty queue it
only clears FLAG[CB]. -/
def Obligations.ReadTakesTheOldestWord : Prop :=
  DecodesAs 0x8800 0xFA00 (fun w => .read (fieldA w) (fieldB w) (fieldD w)) ∧
  ∀ (s : State) (p : Port) (cb : FlagNum) (rd : RegNum),
    (s.inq[p] = [] → Completes (.read p cb rd) s (fun t => FlagEffect s t (flagOnly cb false))) ∧
    (∀ (v : Word) (rest : List Word), s.inq[p] = v :: rest →
      Completes (.read p cb rd) s (fun t =>
        t = { s.setThread s.turn (t.thread s.turn) with inq := t.inq } ∧ SameMemory s t ∧
        (∀ q : Port, t.inq[q] = if q = p then rest else s.inq[q]) ∧
        ThreadBecomes s.cur (t.thread s.turn) (regsWith s.cur rd v)
          (flagsWith s.cur (flagOnly cb true)) (s.cur.pc + 2)))

/-- R215, R217, R81: WRITE appends x[RD] to the output queue if that holds fewer than 256 words, and FLAG[CB]
says whether it did; no register changes. -/
def Obligations.WriteAppendsIfThereIsRoom : Prop :=
  DecodesAs 0x8A00 0xFA00 (fun w => .write (fieldA w) (fieldB w) (fieldD w)) ∧
  ∀ (s : State) (p : Port) (cb : FlagNum) (rd : RegNum),
    Completes (.write p cb rd) s (fun t =>
      t = { s.setThread s.turn (t.thread s.turn) with outq := t.outq } ∧ SameMemory s t ∧
      Appended s t p (s.reg rd) ∧
      ThreadBecomes s.cur (t.thread s.turn) s.cur.readReg
        (flagsWith s.cur (flagOnly cb (decide ((s.outq[p]).length < 256)))) (s.cur.pc + 2))

/-! ## Threads -/

/-- R227 (the spec's decisions D1, D28): WAIT naming only active threads, the executing one among them, at a
point where no barrier is in progress: naming nobody else it falls through; else the row awaits the others and
the thread stalls with its pc at the WAIT. -/
def Obligations.FirstArrivalAtABarrier : Prop :=
  DecodesAs 0x9000 0xFE00 (fun w => .wait (fieldMask w) (fieldPair w)) ∧
  ∀ (s : State) (m : BitVec 4) (p : Point), (∀ u : Tid, m.getLsbD u = true → s.active u = true) →
    m.getLsbD s.turn = true → s.wr[p] = 0 →
    ((∀ u : Tid, m.getLsbD u = true → u = s.turn) →
      Completes (.wait m p) s (fun t => FlagEffect s t noFlags)) ∧
    ((∃ u : Tid, m.getLsbD u = true ∧ u ≠ s.turn) →
      Completes (.wait m p) s (fun t => Stalls s t p (fun u => m.getLsbD u && u != s.turn)))

/-- R227 (the spec's decision D28): an awaited thread that arrives with the mask of the barrier in progress
while others are still awaited leaves the row and stalls. -/
def Obligations.LaterArrivalAtABarrierStalls : Prop :=
  ∀ (s : State) (m : BitVec 4) (p : Point), (∀ u : Tid, m.getLsbD u = true → s.active u = true) →
    (∀ u : Tid, m.getLsbD u = ((s.wr[p]).getLsbD u || s.stalledAt p u)) →
    (s.wr[p]).getLsbD s.turn = true → (∃ u : Tid, (s.wr[p]).getLsbD u = true ∧ u ≠ s.turn) →
    Completes (.wait m p) s (fun t => Stalls s t p (fun u => (s.wr[p]).getLsbD u && u != s.turn))

/-- R227 (the spec's decision D28): the last awaited thread releases the barrier: the row is empty, every
thread stalled at the point runs again after its WAIT, and so does the last one. That the
point `s` of a released row of WS keeps its value is the model's choice (log 24): the spec allows any value. -/
def Obligations.LastArrivalReleasesTheBarrier : Prop :=
  ∀ (s : State) (m : BitVec 4) (p : Point), (∀ u : Tid, m.getLsbD u = true → s.active u = true) →
    (∀ u : Tid, m.getLsbD u = ((s.wr[p]).getLsbD u || s.stalledAt p u)) →
    (∀ u : Tid, (s.wr[p]).getLsbD u = true ↔ u = s.turn) →
    Completes (.wait m p) s (fun t =>
      t = { s with threads := t.threads, ws := t.ws, wr := t.wr } ∧ SameMemory s t ∧
      (∀ q : Point, t.wr[q] = if q = p then 0 else s.wr[q]) ∧
      (∀ u : Tid, t.ws[u] = if s.stalledAt p u then ⟨false, p⟩ else s.ws[u]) ∧
      (∀ u : Tid, t.thread u =
        if s.stalledAt p u = true ∨ u = s.turn then { s.thread u with pc := (s.thread u).pc + 2 }
        else s.thread u))

/-- R227 cases (i) and (ii) (U6, U7): a WAIT without the executing thread in its mask, or by a thread the
barrier in progress does not await, or with another mask than the barrier's, has no result. -/
def Obligations.MisfitWaitsHaveNoResult : Prop :=
  ∀ (s : State) (m : BitVec 4) (p : Point), (∀ u : Tid, m.getLsbD u = true → s.active u = true) →
    (m.getLsbD s.turn = false → exec (.wait m p) s = .refused .waitWithoutSelf) ∧
    (m.getLsbD s.turn = true → s.wr[p] ≠ 0 →
      ((s.wr[p]).getLsbD s.turn = false ∨
        ∃ u : Tid, m.getLsbD u ≠ ((s.wr[p]).getLsbD u || s.stalledAt p u)) →
      exec (.wait m p) s = .refused .waitBarrierMismatch)

/-- R230, R231 (the delivery: the spec's decision D29): KILL always completes: the thread's TAR bit is 0, its
pc stays, every thread stalled at a point that awaits it enters ILLEGAL_WAIT and is stalled no more, the rows
that await it are emptied, and nothing else changes. That the point `s` of a cleared row of WS keeps
its value is the model's choice (log 24): the spec allows any value. -/
def Obligations.KillEndsTheThreadAndItsBarriers : Prop :=
  DecodesAs 0x9200 0xFE00 (fun _ => .kill) ∧
  ∀ s : State, s.stalled s.turn = false →
    Completes .kill s (fun t =>
      t = { s with threads := t.threads, tar := t.tar, ws := t.ws, wr := t.wr } ∧ SameMemory s t ∧
      (∀ u : Tid, t.active u = (s.active u && u != s.turn)) ∧ t.thread s.turn = s.cur ∧
      (∀ p : Point, t.wr[p] = if (s.wr[p]).getLsbD s.turn then 0 else s.wr[p]) ∧
      (∀ u : Tid, WaitsFor s u s.turn → t.stalled u = false ∧ (t.ws[u]).s = (s.ws[u]).s ∧
        ExceptionEntered u (s.thread u) (t.thread u) 16) ∧
      (∀ u : Tid, ¬ WaitsFor s u s.turn → t.ws[u] = s.ws[u] ∧ t.thread u = s.thread u))

/-- R232, R365: once every thread is dead and no activation is pending, no instruction is executed and no
interrupt is taken ever again: threads, memory, Video RAM and shared registers, and all that a host can observe of
the run, stay as they are. That `step` goes on answering next states after the halt, for any number of cycles, is
the model's choice (log 12): the run of R365 ends at the halt. -/
def Obligations.HaltIsForEver : Prop :=
  ∀ (n : Nat) (s : State), s.tar = 0 → s.activation = none →
    ∃ t, runFor n s = some t ∧ t.threads = s.threads ∧ t.tar = 0 ∧ t.activation = none ∧
      t.mem = s.mem ∧ t.vram = s.vram ∧ t.wr = s.wr ∧ t.ws = s.ws ∧ t.freeTicks = s.freeTicks ∧
      t.observed = s.observed

/-- R235, R236: INIT of a dead thread while no activation is pending loads the target's pc from x[RA],
unchecked, records the activation, and changes nothing else of the target; the target stays dead. -/
def Obligations.InitLoadsThePcOfADeadThread : Prop :=
  DecodesAs 0x9400 0xFE00 (fun w => .init (fieldA w) (fieldPair w)) ∧
  ∀ (s : State) (ra : RegNum) (u : Tid), s.active s.turn = true → s.active u = false →
    s.activation = none →
    Completes (.init ra u) s (fun t =>
      t = { s with threads := t.threads, activation := some ⟨u, s.turn⟩ } ∧ SameMemory s t ∧
      (∀ n : Tid, t.thread n =
        if n = u then { s.thread u with pc := s.reg ra }
        else if n = s.turn then { s.cur with pc := s.cur.pc + 2 } else s.thread n))

/-- R227, R235, R301: a WAIT that names a dead thread raises ILLEGAL_WAIT (EXR bit 4) and leaves WAIT_REG and WS
unchanged; an INIT of an active thread, the executing one included, raises INIT_THREAD (EXR bit 3) and does
not disturb the target. -/
def Obligations.WaitForDeadAndInitOfActiveRaise : Prop :=
  (∀ (s : State) (m : BitVec 4) (p : Point) (u : Tid), m.getLsbD u = true → s.active u = false →
    Completes (.wait m p) s (fun t => Raised s t 16)) ∧
  (∀ (s : State) (ra : RegNum) (u : Tid), s.active u = true →
    Completes (.init ra u) s (fun t => Raised s t 8))

/-- R195, R209, R237 (U8, U5, U1, U2; the first two by the spec's decisions D15 and D18): three executions to
which the spec gives no result: a stepping load whose RA and RD name one writable register, a video store with
a selector register above 2, and INIT of a dead thread while an activation of it, or one made by another
thread, is pending. -/
def Obligations.CasesWithoutAResultAreRefused : Prop :=
  (∀ (s : State) (r : RegNum), IsAligned (s.reg r) → r ≠ 0 ∨ s.cur.debug = true →
    exec (.lwi r r) s = .refused .loadIntoItsAddress ∧ exec (.lwd r r) s = .refused .loadIntoItsAddress) ∧
  (∀ (s : State) (ra rb rd : RegNum), 2 < (s.reg rd).toNat →
    exec (.swsg ra rb rd) s = .refused .videoSelector ∧
    exec (.swsgi ra rb rd) s = .refused .videoSelector ∧
    exec (.swsgd ra rb rd) s = .refused .videoSelector) ∧
  (∀ (s : State) (ra : RegNum) (u : Tid) (a : Activation), s.active u = false → s.activation = some a →
    a.target = u ∨ a.initiator ≠ s.turn → exec (.init ra u) s = .refused .concurrentInit)

/-- R236 (the spec's decision D30): an activation made in cycle k leaves the target dead, with its private
state, in cycles k + 1 to k + 3, and completes at the start of cycle k + 4, before the initiator's next
instruction. -/
def Obligations.ActivationTakesOneMachineCycle : Prop :=
  ∀ (s s₃ : State) (a : Activation), s.Inv → s.activation = some a →
    s.turn = a.initiator + 1 → runFor 3 s = some s₃ →
    (∀ n < 3, ∃ sₙ, runFor n s = some sₙ ∧ sₙ.beginCycle.active a.target = false) ∧
    s₃.turn = a.initiator ∧ s₃.thread a.target = s.thread a.target ∧
    s₃.beginCycle.active a.target = true ∧ s₃.beginCycle.activation = none

/-! ## Jumps -/

/-- R246, R247, R248, R249, by the rules of R245 (the checks, the untaken jump and the base and unit of the
offset: the spec's decisions D16, D20, D21): JMPR and JALR with the target in RA, read before R7 is linked,
JMPI and JALI with the jump's own address plus the signed byte offset. For an offset outside -128 to 127, which no
word holds, the target modulo 2^16 is the model's choice (log 17). -/
def Obligations.JumpsCheckLinkAndGo : Prop :=
  DecodesR2 0x9800 0xFA00 .jmpr ∧ DecodesR2 0xA000 0xF800 .jalr ∧
  DecodesAs 0xA800 0xF800 (fun w => .jmpi (fieldImm8 w).toInt (fieldD w)) ∧
  DecodesAs 0xB000 0xF800 (fun w => .jali (fieldImm8 w).toInt (fieldD w)) ∧
  (∀ (s : State) (ra : RegNum) (cb : FlagNum),
    JumpEffect (.jmpr ra cb) s cb false (s.reg ra) ∧ JumpEffect (.jalr ra cb) s cb true (s.reg ra)) ∧
  ∀ (s : State) (offset : Int) (cb : FlagNum),
    JumpEffect (.jmpi offset cb) s cb false (BitVec.ofInt 16 (s.cur.pc.toNat + offset)) ∧
    JumpEffect (.jali offset cb) s cb true (BitVec.ofInt 16 (s.cur.pc.toNat + offset))

/-- R253, R317 (the test on the mask: the spec's decision D22): JMP.SPR1 with the mask set continues at SPR1,
unchecked, and clears the mask; with the mask clear it raises ILLEGAL_INSTRUCTION. -/
def Obligations.ReturnFromInterrupt : Prop :=
  DecodesAs 0x9A00 0xFA00 (fun _ => .jmpSpr1) ∧
  ∀ s : State,
    (s.cur.imask = true → Completes .jmpSpr1 s (fun t =>
      OwnEffect s t { s.cur with imask := false } s.cur.readReg (flagsWith s.cur noFlags) s.cur.spr1)) ∧
    (s.cur.imask = false → Completes .jmpSpr1 s (fun t => Raised s t 1))

/-! ## System registers -/

/-- R261, R262, R263, R266, R268, R269: the GETs of FLAG, SPR1, SPR2, TAR, INTR and the thread number: the
value to RD, the rest of RD 0, and nothing else. -/
def Obligations.GetsCopyTheirRegister : Prop :=
  DecodesAs 0xC800 0xFE00 (fun w => .getFlag (fieldD w)) ∧
  DecodesAs 0xCA00 0xFE00 (fun w => .getSpr1 (fieldD w)) ∧
  DecodesAs 0xCC00 0xFE00 (fun w => .getSpr2 (fieldD w)) ∧
  DecodesAs 0xD200 0xFE00 (fun w => .getTar (fieldD w)) ∧
  DecodesAs 0xD600 0xFE00 (fun w => .getIntr (fieldD w)) ∧
  DecodesAs 0xE800 0xFE00 (fun w => .getThread (fieldD w)) ∧
  ∀ (s : State) (rd : RegNum),
    (∃ v : Word, v.toNat < 256 ∧ (∀ i : FlagNum, v.getLsbD i = s.cur.readFlag i) ∧
      Completes (.getFlag rd) s (fun t => DataEffect s t rd v noFlags)) ∧
    Completes (.getSpr1 rd) s (fun t => DataEffect s t rd s.cur.spr1 noFlags) ∧
    Completes (.getSpr2 rd) s (fun t => DataEffect s t rd s.cur.spr2 noFlags) ∧
    (∃ v : Word, v.toNat < 16 ∧ (∀ u : Tid, v.getLsbD u = s.active u) ∧
      Completes (.getTar rd) s (fun t => DataEffect s t rd v noFlags)) ∧
    Completes (.getIntr rd) s (fun t => DataEffect s t rd s.cur.intr noFlags) ∧
    Completes (.getThread rd) s (fun t => DataEffect s t rd (BitVec.ofNat 16 s.turn) noFlags)

/-- R264: EXR goes whole to RD and is cleared, the clearing also when the write to RD is dropped. -/
def Obligations.GetExrReadsAndClears : Prop :=
  DecodesAs 0xCE00 0xFE00 (fun w => .getExr (fieldD w)) ∧
  ∀ (s : State) (rd : RegNum),
    Completes (.getExr rd) s (fun t => OwnEffect s t { s.cur with exr := 0 }
      (regsWith s.cur rd s.cur.exr) (flagsWith s.cur noFlags) (s.cur.pc + 2))

/-- R265, R267: GET.WAIT_REG gives the open 8-bit view of the rows (the spec's decision D35), GET.WS the
waiting bits, bit i for thread i (its decision D36); the rest of RD is 0. -/
def Obligations.GetsOfTheWaitRegisters : Prop :=
  DecodesAs 0xD000 0xFE00 (fun w => .getWaitReg (fieldD w)) ∧
  DecodesAs 0xD400 0xFE00 (fun w => .getWs (fieldD w)) ∧
  ∀ (s : State) (rd : RegNum),
    Completes (.getWaitReg rd) s (fun t =>
      DataEffect s t rd (BitVec.ofNat 16 (Config.waitRegView s.wr).toNat) noFlags) ∧
    (∃ v : Word, v.toNat < 16 ∧ (∀ u : Tid, v.getLsbD u = s.stalled u) ∧
      Completes (.getWs rd) s (fun t => DataEffect s t rd v noFlags))

/-- R274, R275, R276, R277: the PUTs. PUT.FLAG writes bits 7 to 1, PUT.SPR1 SPR1, PUT.INTRMASK the mask,
PUT.DEBUG the DEBUG bit, and with 0 it also clears R0. -/
def Obligations.PutsWriteTheirRegister : Prop :=
  DecodesAs 0xD800 0xFE00 (fun w => .putFlag (fieldA w)) ∧
  DecodesAs 0xDA00 0xFE00 (fun w => .putSpr1 (fieldA w)) ∧
  DecodesAs 0xDC00 0xFE00 (fun w => .putDebug (fieldImm1 w)) ∧
  DecodesAs 0xDE00 0xFE00 (fun w => .putIntrMask (fieldImm1 w)) ∧
  ∀ (s : State) (ra : RegNum) (b : Bool),
    Completes (.putFlag ra) s (fun t => FlagEffect s t (fun i => some ((s.reg ra).getLsbD i))) ∧
    Completes (.putSpr1 ra) s (fun t => OwnEffect s t { s.cur with spr1 := s.reg ra }
      s.cur.readReg (flagsWith s.cur noFlags) (s.cur.pc + 2)) ∧
    Completes (.putDebug b) s (fun t => OwnEffect s t { s.cur with debug := b }
      (fun r => if r = 0 ∧ b = false then 0 else s.reg r) (flagsWith s.cur noFlags) (s.cur.pc + 2)) ∧
    Completes (.putIntrMask b) s (fun t => OwnEffect s t { s.cur with imask := b }
      s.cur.readReg (flagsWith s.cur noFlags) (s.cur.pc + 2))

/-- R280: NOP steps the pc and does absolutely nothing else. -/
def Obligations.NopDoesNothing : Prop :=
  DecodesAs 0xF800 0xF800 (fun _ => .nop) ∧
  ∀ s : State, Completes .nop s (fun t => t = s.setThread s.turn { s.cur with pc := s.cur.pc + 2 })

/-! ## Exceptions and interrupts -/

/-- R305, R303 (the vector and the accumulation in EXR: the spec's decision D24): exception entry with a set
of exceptions sets exactly their bits in EXR and keeps the others, saves the pc in SPR2, sets DEBUG and
INTRMASK, goes to 0x0010 + 0x0400 t, and changes nothing else. -/
def Obligations.ExceptionEntry : Prop :=
  ∀ (s : State) (es : List Exc), ∃ bits : Word, Raised s (s.raise es) bits ∧
    ∀ i : Nat, bits.getLsbD i = true ↔
      (i = 0 ∧ .illegalInstruction ∈ es) ∨ (i = 1 ∧ .unalignedAddress ∈ es) ∨
      (i = 2 ∧ .illegalAddress ∈ es) ∨ (i = 3 ∧ .initThread ∈ es) ∨ (i = 4 ∧ .illegalWait ∈ es)

/-- R312, R313, R314, R315, R319 (latency and vector: the spec's decisions D26, D25, D40): at the end of
instruction i an interrupt is entered only if one is pending, the thread is active and not stalled, the mask
is clear and i is not a jump or PUT.INTRMASK; then it may be entered or left for later (the free choice of
log 6), and the entry saves the pc in SPR1, latches the ISR address, sets DEBUG and INTRMASK, goes to
0x0100 + 0x0400 t and acknowledges the request. -/
def Obligations.InterruptBoundary : Prop :=
  ∀ (s : State) (i : Instr),
    (s.irq[s.turn] = none ∨ s.runnable s.turn = false ∨ s.cur.imask = true ∨ HoldsOff i →
      s.boundary i = s) ∧
    (∀ isr : Word, s.irq[s.turn] = some isr → s.runnable s.turn = true → s.cur.imask = false →
      ¬ HoldsOff i →
      (Config.interruptTaken s.freeTicks = false → s.boundary i = { s with freeTicks := s.freeTicks + 1 }) ∧
      (Config.interruptTaken s.freeTicks = true →
        s.boundary i = { s.setThread s.turn { s.cur with
              intr := isr, spr1 := s.cur.pc, debug := true, imask := true,
              pc := 0x0100#16 + 0x0400#16 * BitVec.ofNat 16 s.turn.val } with
            irq := s.irq.set s.turn none, freeTicks := s.freeTicks + 1 })) ∧
    (∀ es : List Exc, (s.raise es).boundary i = s.raise es)

/-! ## The whole machine -/

/-- R22, R26, R28, R81, R82, R209, R227, R235: the invariant of the machine (`State.Inv`) holds after
reset. -/
def Obligations.InvariantHoldsAfterReset : Prop := State.reset.Inv

/-- The invariant is kept by every step from every state that has it: the memory's canonical form, R0 = 0
while DEBUG = 0 (R22), FLAG[0] = 1 (R26), the reserved bits of EXR (R28), the depths of the queues (R81, R82),
the banks written (R209), the invariant of the barriers that R227 names, and what a pending activation
is (R235, R236). -/
def Obligations.EveryStepKeepsTheInvariant : Prop :=
  ∀ s s' : State, s.Inv → step s = .next s' → s'.Inv

/-- R70, R74: no step of any instruction changes a byte below 0x4000, and none changes a byte below 0x8000
unless the instruction stands below 0x4000. -/
def Obligations.EveryStepRespectsWriteProtection : Prop :=
  ∀ s s' : State, step s = .next s' → ProtectedStep s s'

/-- R20: a step writes no general register, FLAG, SPR1 or INTR of another thread, and its EXR, SPR2, DEBUG and
INTRMASK only by the ILLEGAL_WAIT that a KILL delivers to a thread waiting for the executing one. -/
def Obligations.NoStepWritesAnotherThreadsPrivateState : Prop :=
  ∀ (s s' : State) (u : Tid), step s = .next s' → u ≠ s.turn →
    (s'.thread u).regs = (s.thread u).regs ∧ (s'.thread u).flag = (s.thread u).flag ∧
    (s'.thread u).spr1 = (s.thread u).spr1 ∧ (s'.thread u).intr = (s.thread u).intr ∧
    (((s'.thread u).exr = (s.thread u).exr ∧ (s'.thread u).spr2 = (s.thread u).spr2 ∧
        (s'.thread u).debug = (s.thread u).debug ∧ (s'.thread u).imask = (s.thread u).imask) ∨
      (decodeWord (s.loadWord s.cur.pc) = .ok .kill ∧ WaitsFor s u s.turn ∧
        ExceptionEntered u (s.thread u) (s'.thread u) 16))

/-- R20: what the executing thread does, and what every thread but u and all shared state become, does not
depend on thread u's registers, FLAG, EXR, SPR1, SPR2, INTR, DEBUG or INTRMASK. -/
def Obligations.NoStepReadsAnotherThreadsPrivateState : Prop :=
  ∀ (s₁ s₂ : State) (u : Tid), AgreeButPrivate u s₁ s₂ → u ≠ s₁.turn →
    (∀ t₁, step s₁ = .next t₁ → ∃ t₂, step s₂ = .next t₂ ∧ AgreeButPrivate u t₁ t₂) ∧
    (∀ f, step s₁ = .fault f → step s₂ = .fault f) ∧ (∀ r, step s₁ = .refused r → step s₂ = .refused r)

/-- R34: a step sets a TAR bit only by completing the activation an INIT left pending, and clears one only by
the thread's own KILL. -/
def Obligations.OnlyInitAndKillChangeTheActiveThreads : Prop :=
  ∀ (s s' : State) (u : Tid), step s = .next s' →
    (s.active u = false → s'.active u = true → ∃ a, s.activation = some a ∧ a.target = u ∧
      a.initiator = s.turn) ∧
    (s.active u = true → s'.active u = false →
      u = s.turn ∧ decodeWord (s.loadWord s.cur.pc) = .ok .kill)

/-- R27: no instruction changes a flag bit that the table of R27 does not list for it, in any thread. -/
def Obligations.OnlyTheListedWritersChangeFlags : Prop :=
  ∀ (i : Instr) (s s' : State) (u : Tid) (k : FlagNum), exec i s = .next s' →
    (s'.thread u).readFlag k ≠ (s.thread u).readFlag k → u = s.turn ∧ flagWriter i k = true ∧ k ≠ 0

/-- R28, R264, R305: EXR bits are only ever set by an exception entry and only ever cleared by the thread's own
GET.EXR. -/
def Obligations.OnlyGetExrClearsExceptionBits : Prop :=
  ∀ (i : Instr) (s s' : State) (u : Tid), exec i s = .next s' → (u = s.turn → ∀ rd, i ≠ .getExr rd) →
    (s.thread u).exr &&& (s'.thread u).exr = (s.thread u).exr ∧
    ((s'.thread u).exr ≠ (s.thread u).exr → (s'.thread u).spr2 = (s.thread u).pc ∧
      (s'.thread u).debug = true ∧ (s'.thread u).imask = true ∧ (s'.thread u).pc = exceptionVector u)

/-- R22, R9: while DEBUG is 0 no instruction changes R0, except that PUT.DEBUG 0 clears it. -/
def Obligations.R0IsNotWritableOutsideDebugMode : Prop :=
  ∀ (i : Instr) (s s' : State) (u : Tid), exec i s = .next s' → (s.thread u).debug = false →
    (s'.thread u).readReg 0 = (s.thread u).readReg 0 ∨
      (i = .putDebug false ∧ u = s.turn ∧ (s'.thread u).readReg 0 = 0)

/-- R360, R75, R236 (the spec's decisions D30, D31): every run of the round robin from a state with the
machine's invariant is a run of the schedule any_fair, so that what holds of every interleaving holds of the
round robin. -/
def Obligations.AnyFairContainsTheRoundRobin : Prop :=
  ∀ (n : Nat) (s s' : State), s.Inv → runFor n s = some s' →
    ∃ moves : List FairMove, FairState.run ⟨s.unscheduled, []⟩ moves = some ⟨s'.unscheduled, []⟩

/-- R360 (the spec's decision D31): an unending run of the round robin from a state with the machine's invariant is
an unending fair run of the schedule any_fair: every move is allowed, and every runnable thread is eventually
stepped. -/
def Obligations.RoundRobinStepsEveryRunnableThread : Prop :=
  ∀ σ : Nat → State, (σ 0).Inv → (∀ n, step (σ n) = .next (σ (n + 1))) →
    ∃ moves : Nat → List FairMove, FairState.IsFairRun (fun n => ⟨(σ n).unscheduled, []⟩) moves
end

