-- ==== Sys2Proof/Laws/State.lean ====
section
/-!
SUPPORT. One lemma for each field of each update of a thread and of the machine, so that no proof unfolds
a record update.
-/

namespace Sys2Proof.Machine

/-! ## Fields of a thread after an update -/

variable (th : Thread) (s : State)

@[simp] theorem Thread.writeReg_regs (r : RegNum) (v : Word) :
    (th.writeReg r v).regs = if th.writable r then th.regs.set r v else th.regs := rfl
@[simp] theorem Thread.writeReg_pc (r : RegNum) (v : Word) : (th.writeReg r v).pc = th.pc := rfl
@[simp] theorem Thread.writeReg_flag (r : RegNum) (v : Word) :
    (th.writeReg r v).flag = th.flag := rfl
@[simp] theorem Thread.writeReg_exr (r : RegNum) (v : Word) : (th.writeReg r v).exr = th.exr := rfl
@[simp] theorem Thread.writeReg_spr1 (r : RegNum) (v : Word) :
    (th.writeReg r v).spr1 = th.spr1 := rfl
@[simp] theorem Thread.writeReg_spr2 (r : RegNum) (v : Word) :
    (th.writeReg r v).spr2 = th.spr2 := rfl
@[simp] theorem Thread.writeReg_intr (r : RegNum) (v : Word) :
    (th.writeReg r v).intr = th.intr := rfl
@[simp] theorem Thread.writeReg_debug (r : RegNum) (v : Word) :
    (th.writeReg r v).debug = th.debug := rfl
@[simp] theorem Thread.writeReg_imask (r : RegNum) (v : Word) :
    (th.writeReg r v).imask = th.imask := rfl

@[simp] theorem Thread.writeFlag_regs (i : FlagNum) (b : Bool) :
    (th.writeFlag i b).regs = th.regs := rfl
@[simp] theorem Thread.writeFlag_pc (i : FlagNum) (b : Bool) : (th.writeFlag i b).pc = th.pc := rfl
@[simp] theorem Thread.writeFlag_flag (i : FlagNum) (b : Bool) :
    (th.writeFlag i b).flag = if i = 0 then th.flag else setBit th.flag i b := rfl
@[simp] theorem Thread.writeFlag_exr (i : FlagNum) (b : Bool) :
    (th.writeFlag i b).exr = th.exr := rfl
@[simp] theorem Thread.writeFlag_spr1 (i : FlagNum) (b : Bool) :
    (th.writeFlag i b).spr1 = th.spr1 := rfl
@[simp] theorem Thread.writeFlag_spr2 (i : FlagNum) (b : Bool) :
    (th.writeFlag i b).spr2 = th.spr2 := rfl
@[simp] theorem Thread.writeFlag_intr (i : FlagNum) (b : Bool) :
    (th.writeFlag i b).intr = th.intr := rfl
@[simp] theorem Thread.writeFlag_debug (i : FlagNum) (b : Bool) :
    (th.writeFlag i b).debug = th.debug := rfl
@[simp] theorem Thread.writeFlag_imask (i : FlagNum) (b : Bool) :
    (th.writeFlag i b).imask = th.imask := rfl

@[simp] theorem Thread.putFlags_regs (v : Byte) : (th.putFlags v).regs = th.regs := rfl
@[simp] theorem Thread.putFlags_pc (v : Byte) : (th.putFlags v).pc = th.pc := rfl
@[simp] theorem Thread.putFlags_flag (v : Byte) : (th.putFlags v).flag = v ||| 1#8 := rfl
@[simp] theorem Thread.putFlags_exr (v : Byte) : (th.putFlags v).exr = th.exr := rfl
@[simp] theorem Thread.putFlags_spr1 (v : Byte) : (th.putFlags v).spr1 = th.spr1 := rfl
@[simp] theorem Thread.putFlags_spr2 (v : Byte) : (th.putFlags v).spr2 = th.spr2 := rfl
@[simp] theorem Thread.putFlags_intr (v : Byte) : (th.putFlags v).intr = th.intr := rfl
@[simp] theorem Thread.putFlags_debug (v : Byte) : (th.putFlags v).debug = th.debug := rfl
@[simp] theorem Thread.putFlags_imask (v : Byte) : (th.putFlags v).imask = th.imask := rfl

@[simp] theorem Thread.advance_regs : (th.advance).regs = th.regs := rfl
@[simp] theorem Thread.advance_pc : (th.advance).pc = th.pc + 2 := rfl
@[simp] theorem Thread.advance_flag : (th.advance).flag = th.flag := rfl
@[simp] theorem Thread.advance_exr : (th.advance).exr = th.exr := rfl
@[simp] theorem Thread.advance_spr1 : (th.advance).spr1 = th.spr1 := rfl
@[simp] theorem Thread.advance_spr2 : (th.advance).spr2 = th.spr2 := rfl
@[simp] theorem Thread.advance_intr : (th.advance).intr = th.intr := rfl
@[simp] theorem Thread.advance_debug : (th.advance).debug = th.debug := rfl
@[simp] theorem Thread.advance_imask : (th.advance).imask = th.imask := rfl

@[simp] theorem Thread.jumpTo_regs (a : Word) : (th.jumpTo a).regs = th.regs := rfl
@[simp] theorem Thread.jumpTo_pc (a : Word) : (th.jumpTo a).pc = a := rfl
@[simp] theorem Thread.jumpTo_flag (a : Word) : (th.jumpTo a).flag = th.flag := rfl
@[simp] theorem Thread.jumpTo_exr (a : Word) : (th.jumpTo a).exr = th.exr := rfl
@[simp] theorem Thread.jumpTo_spr1 (a : Word) : (th.jumpTo a).spr1 = th.spr1 := rfl
@[simp] theorem Thread.jumpTo_spr2 (a : Word) : (th.jumpTo a).spr2 = th.spr2 := rfl
@[simp] theorem Thread.jumpTo_intr (a : Word) : (th.jumpTo a).intr = th.intr := rfl
@[simp] theorem Thread.jumpTo_debug (a : Word) : (th.jumpTo a).debug = th.debug := rfl
@[simp] theorem Thread.jumpTo_imask (a : Word) : (th.jumpTo a).imask = th.imask := rfl

@[simp] theorem Thread.returnFromInterrupt_regs : (th.returnFromInterrupt).regs = th.regs := rfl
@[simp] theorem Thread.returnFromInterrupt_pc : (th.returnFromInterrupt).pc = th.spr1 := rfl
@[simp] theorem Thread.returnFromInterrupt_flag : (th.returnFromInterrupt).flag = th.flag := rfl
@[simp] theorem Thread.returnFromInterrupt_exr : (th.returnFromInterrupt).exr = th.exr := rfl
@[simp] theorem Thread.returnFromInterrupt_spr1 : (th.returnFromInterrupt).spr1 = th.spr1 := rfl
@[simp] theorem Thread.returnFromInterrupt_spr2 : (th.returnFromInterrupt).spr2 = th.spr2 := rfl
@[simp] theorem Thread.returnFromInterrupt_intr : (th.returnFromInterrupt).intr = th.intr := rfl
@[simp] theorem Thread.returnFromInterrupt_debug : (th.returnFromInterrupt).debug = th.debug := rfl
@[simp] theorem Thread.returnFromInterrupt_imask : (th.returnFromInterrupt).imask = false := rfl

@[simp] theorem Thread.enterException_regs (t : Tid) (es : List Exc) :
    (Thread.enterException t es th).regs = th.regs := rfl
@[simp] theorem Thread.enterException_pc (t : Tid) (es : List Exc) :
    (Thread.enterException t es th).pc = exceptionVector t := rfl
@[simp] theorem Thread.enterException_flag (t : Tid) (es : List Exc) :
    (Thread.enterException t es th).flag = th.flag := rfl
@[simp] theorem Thread.enterException_exr (t : Tid) (es : List Exc) :
    (Thread.enterException t es th).exr = th.exr ||| excBits es := rfl
@[simp] theorem Thread.enterException_spr1 (t : Tid) (es : List Exc) :
    (Thread.enterException t es th).spr1 = th.spr1 := rfl
@[simp] theorem Thread.enterException_spr2 (t : Tid) (es : List Exc) :
    (Thread.enterException t es th).spr2 = th.pc := rfl
@[simp] theorem Thread.enterException_intr (t : Tid) (es : List Exc) :
    (Thread.enterException t es th).intr = th.intr := rfl
@[simp] theorem Thread.enterException_debug (t : Tid) (es : List Exc) :
    (Thread.enterException t es th).debug = true := rfl
@[simp] theorem Thread.enterException_imask (t : Tid) (es : List Exc) :
    (Thread.enterException t es th).imask = true := rfl

@[simp] theorem Thread.enterInterrupt_regs (t : Tid) (isr : Word) :
    (Thread.enterInterrupt t isr th).regs = th.regs := rfl
@[simp] theorem Thread.enterInterrupt_pc (t : Tid) (isr : Word) :
    (Thread.enterInterrupt t isr th).pc = interruptVector t := rfl
@[simp] theorem Thread.enterInterrupt_flag (t : Tid) (isr : Word) :
    (Thread.enterInterrupt t isr th).flag = th.flag := rfl
@[simp] theorem Thread.enterInterrupt_exr (t : Tid) (isr : Word) :
    (Thread.enterInterrupt t isr th).exr = th.exr := rfl
@[simp] theorem Thread.enterInterrupt_spr1 (t : Tid) (isr : Word) :
    (Thread.enterInterrupt t isr th).spr1 = th.pc := rfl
@[simp] theorem Thread.enterInterrupt_spr2 (t : Tid) (isr : Word) :
    (Thread.enterInterrupt t isr th).spr2 = th.spr2 := rfl
@[simp] theorem Thread.enterInterrupt_intr (t : Tid) (isr : Word) :
    (Thread.enterInterrupt t isr th).intr = isr := rfl
@[simp] theorem Thread.enterInterrupt_debug (t : Tid) (isr : Word) :
    (Thread.enterInterrupt t isr th).debug = true := rfl
@[simp] theorem Thread.enterInterrupt_imask (t : Tid) (isr : Word) :
    (Thread.enterInterrupt t isr th).imask = true := rfl

/-! ## Fields of the machine after an update -/

@[simp] theorem State.setThread_threads (t : Tid) (x : Thread) :
    (s.setThread t x).threads = s.threads.set t x := rfl
@[simp] theorem State.setThread_tar (t : Tid) (x : Thread) : (s.setThread t x).tar = s.tar := rfl
@[simp] theorem State.setThread_wr (t : Tid) (x : Thread) : (s.setThread t x).wr = s.wr := rfl
@[simp] theorem State.setThread_ws (t : Tid) (x : Thread) : (s.setThread t x).ws = s.ws := rfl
@[simp] theorem State.setThread_mem (t : Tid) (x : Thread) : (s.setThread t x).mem = s.mem := rfl
@[simp] theorem State.setThread_inq (t : Tid) (x : Thread) : (s.setThread t x).inq = s.inq := rfl
@[simp] theorem State.setThread_outq (t : Tid) (x : Thread) : (s.setThread t x).outq = s.outq := rfl
@[simp] theorem State.setThread_taken (t : Tid) (x : Thread) :
    (s.setThread t x).taken = s.taken := rfl
@[simp] theorem State.setThread_vram (t : Tid) (x : Thread) : (s.setThread t x).vram = s.vram := rfl
@[simp] theorem State.setThread_irq (t : Tid) (x : Thread) : (s.setThread t x).irq = s.irq := rfl
@[simp] theorem State.setThread_activation (t : Tid) (x : Thread) :
    (s.setThread t x).activation = s.activation := rfl
@[simp] theorem State.setThread_turn (t : Tid) (x : Thread) : (s.setThread t x).turn = s.turn := rfl
@[simp] theorem State.setThread_inputs (t : Tid) (x : Thread) :
    (s.setThread t x).inputs = s.inputs := rfl
@[simp] theorem State.setThread_freeTicks (t : Tid) (x : Thread) :
    (s.setThread t x).freeTicks = s.freeTicks := rfl

@[simp] theorem State.storeWord_threads (a v : Word) : (s.storeWord a v).threads = s.threads := rfl
@[simp] theorem State.storeWord_tar (a v : Word) : (s.storeWord a v).tar = s.tar := rfl
@[simp] theorem State.storeWord_wr (a v : Word) : (s.storeWord a v).wr = s.wr := rfl
@[simp] theorem State.storeWord_ws (a v : Word) : (s.storeWord a v).ws = s.ws := rfl
@[simp] theorem State.storeWord_mem (a v : Word) :
    (s.storeWord a v).mem = Memory.writeWord s.mem a v := rfl
@[simp] theorem State.storeWord_inq (a v : Word) : (s.storeWord a v).inq = s.inq := rfl
@[simp] theorem State.storeWord_outq (a v : Word) : (s.storeWord a v).outq = s.outq := rfl
@[simp] theorem State.storeWord_taken (a v : Word) :
    (s.storeWord a v).taken = s.taken := rfl
@[simp] theorem State.storeWord_vram (a v : Word) : (s.storeWord a v).vram = s.vram := rfl
@[simp] theorem State.storeWord_irq (a v : Word) : (s.storeWord a v).irq = s.irq := rfl
@[simp] theorem State.storeWord_activation (a v : Word) :
    (s.storeWord a v).activation = s.activation := rfl
@[simp] theorem State.storeWord_turn (a v : Word) : (s.storeWord a v).turn = s.turn := rfl
@[simp] theorem State.storeWord_inputs (a v : Word) : (s.storeWord a v).inputs = s.inputs := rfl
@[simp] theorem State.storeWord_freeTicks (a v : Word) :
    (s.storeWord a v).freeTicks = s.freeTicks := rfl

@[simp] theorem State.vramWrite_threads (sel : BitVec 2) (off v : Word) :
    (s.vramWrite sel off v).threads = s.threads := rfl
@[simp] theorem State.vramWrite_tar (sel : BitVec 2) (off v : Word) :
    (s.vramWrite sel off v).tar = s.tar := rfl
@[simp] theorem State.vramWrite_wr (sel : BitVec 2) (off v : Word) :
    (s.vramWrite sel off v).wr = s.wr := rfl
@[simp] theorem State.vramWrite_ws (sel : BitVec 2) (off v : Word) :
    (s.vramWrite sel off v).ws = s.ws := rfl
@[simp] theorem State.vramWrite_mem (sel : BitVec 2) (off v : Word) :
    (s.vramWrite sel off v).mem = s.mem := rfl
@[simp] theorem State.vramWrite_inq (sel : BitVec 2) (off v : Word) :
    (s.vramWrite sel off v).inq = s.inq := rfl
@[simp] theorem State.vramWrite_outq (sel : BitVec 2) (off v : Word) :
    (s.vramWrite sel off v).outq = s.outq := rfl
@[simp] theorem State.vramWrite_taken (sel : BitVec 2) (off v : Word) :
    (s.vramWrite sel off v).taken = s.taken := rfl
@[simp] theorem State.vramWrite_vram (sel : BitVec 2) (off v : Word) :
    (s.vramWrite sel off v).vram = s.vram ++ [⟨sel, off, v⟩] := rfl
@[simp] theorem State.vramWrite_irq (sel : BitVec 2) (off v : Word) :
    (s.vramWrite sel off v).irq = s.irq := rfl
@[simp] theorem State.vramWrite_activation (sel : BitVec 2) (off v : Word) :
    (s.vramWrite sel off v).activation = s.activation := rfl
@[simp] theorem State.vramWrite_turn (sel : BitVec 2) (off v : Word) :
    (s.vramWrite sel off v).turn = s.turn := rfl
@[simp] theorem State.vramWrite_inputs (sel : BitVec 2) (off v : Word) :
    (s.vramWrite sel off v).inputs = s.inputs := rfl
@[simp] theorem State.vramWrite_freeTicks (sel : BitVec 2) (off v : Word) :
    (s.vramWrite sel off v).freeTicks = s.freeTicks := rfl

@[simp] theorem State.portWrite_threads (p : Port) (v : Word) :
    (s.portWrite p v).threads = s.threads := rfl
@[simp] theorem State.portWrite_tar (p : Port) (v : Word) : (s.portWrite p v).tar = s.tar := rfl
@[simp] theorem State.portWrite_wr (p : Port) (v : Word) : (s.portWrite p v).wr = s.wr := rfl
@[simp] theorem State.portWrite_ws (p : Port) (v : Word) : (s.portWrite p v).ws = s.ws := rfl
@[simp] theorem State.portWrite_mem (p : Port) (v : Word) : (s.portWrite p v).mem = s.mem := rfl
@[simp] theorem State.portWrite_inq (p : Port) (v : Word) : (s.portWrite p v).inq = s.inq := rfl
@[simp] theorem State.portWrite_outq (p : Port) (v : Word) :
    (s.portWrite p v).outq =
      if s.portHasRoom p then s.outq.set p (s.outq[p] ++ [v]) else s.outq := rfl
@[simp] theorem State.portWrite_taken (p : Port) (v : Word) :
    (s.portWrite p v).taken = s.taken := rfl
@[simp] theorem State.portWrite_vram (p : Port) (v : Word) : (s.portWrite p v).vram = s.vram := rfl
@[simp] theorem State.portWrite_irq (p : Port) (v : Word) : (s.portWrite p v).irq = s.irq := rfl
@[simp] theorem State.portWrite_activation (p : Port) (v : Word) :
    (s.portWrite p v).activation = s.activation := rfl
@[simp] theorem State.portWrite_turn (p : Port) (v : Word) : (s.portWrite p v).turn = s.turn := rfl
@[simp] theorem State.portWrite_inputs (p : Port) (v : Word) :
    (s.portWrite p v).inputs = s.inputs := rfl
@[simp] theorem State.portWrite_freeTicks (p : Port) (v : Word) :
    (s.portWrite p v).freeTicks = s.freeTicks := rfl

@[simp] theorem State.stallAt_threads (p : Point) : (s.stallAt p).threads = s.threads := rfl
@[simp] theorem State.stallAt_tar (p : Point) : (s.stallAt p).tar = s.tar := rfl
@[simp] theorem State.stallAt_wr (p : Point) : (s.stallAt p).wr = s.wr := rfl
@[simp] theorem State.stallAt_ws (p : Point) : (s.stallAt p).ws = s.ws.set s.turn ⟨true, p⟩ := rfl
@[simp] theorem State.stallAt_mem (p : Point) : (s.stallAt p).mem = s.mem := rfl
@[simp] theorem State.stallAt_inq (p : Point) : (s.stallAt p).inq = s.inq := rfl
@[simp] theorem State.stallAt_outq (p : Point) : (s.stallAt p).outq = s.outq := rfl
@[simp] theorem State.stallAt_taken (p : Point) :
    (s.stallAt p).taken = s.taken := rfl
@[simp] theorem State.stallAt_vram (p : Point) : (s.stallAt p).vram = s.vram := rfl
@[simp] theorem State.stallAt_irq (p : Point) : (s.stallAt p).irq = s.irq := rfl
@[simp] theorem State.stallAt_activation (p : Point) :
    (s.stallAt p).activation = s.activation := rfl
@[simp] theorem State.stallAt_turn (p : Point) : (s.stallAt p).turn = s.turn := rfl
@[simp] theorem State.stallAt_inputs (p : Point) : (s.stallAt p).inputs = s.inputs := rfl
@[simp] theorem State.stallAt_freeTicks (p : Point) : (s.stallAt p).freeTicks = s.freeTicks := rfl

@[simp] theorem State.setRow_threads (p : Point) (m : BitVec 4) :
    (s.setRow p m).threads = s.threads := rfl
@[simp] theorem State.setRow_tar (p : Point) (m : BitVec 4) : (s.setRow p m).tar = s.tar := rfl
@[simp] theorem State.setRow_wr (p : Point) (m : BitVec 4) : (s.setRow p m).wr = s.wr.set p m := rfl
@[simp] theorem State.setRow_ws (p : Point) (m : BitVec 4) : (s.setRow p m).ws = s.ws := rfl
@[simp] theorem State.setRow_mem (p : Point) (m : BitVec 4) : (s.setRow p m).mem = s.mem := rfl
@[simp] theorem State.setRow_inq (p : Point) (m : BitVec 4) : (s.setRow p m).inq = s.inq := rfl
@[simp] theorem State.setRow_outq (p : Point) (m : BitVec 4) : (s.setRow p m).outq = s.outq := rfl
@[simp] theorem State.setRow_taken (p : Point) (m : BitVec 4) :
    (s.setRow p m).taken = s.taken := rfl
@[simp] theorem State.setRow_vram (p : Point) (m : BitVec 4) : (s.setRow p m).vram = s.vram := rfl
@[simp] theorem State.setRow_irq (p : Point) (m : BitVec 4) : (s.setRow p m).irq = s.irq := rfl
@[simp] theorem State.setRow_activation (p : Point) (m : BitVec 4) :
    (s.setRow p m).activation = s.activation := rfl
@[simp] theorem State.setRow_turn (p : Point) (m : BitVec 4) : (s.setRow p m).turn = s.turn := rfl
@[simp] theorem State.setRow_inputs (p : Point) (m : BitVec 4) :
    (s.setRow p m).inputs = s.inputs := rfl
@[simp] theorem State.setRow_freeTicks (p : Point) (m : BitVec 4) :
    (s.setRow p m).freeTicks = s.freeTicks := rfl

@[simp] theorem State.release_tar (p : Point) : (s.release p).tar = s.tar := rfl
@[simp] theorem State.release_wr (p : Point) : (s.release p).wr = s.wr.set p 0 := rfl
@[simp] theorem State.release_mem (p : Point) : (s.release p).mem = s.mem := rfl
@[simp] theorem State.release_inq (p : Point) : (s.release p).inq = s.inq := rfl
@[simp] theorem State.release_outq (p : Point) : (s.release p).outq = s.outq := rfl
@[simp] theorem State.release_taken (p : Point) :
    (s.release p).taken = s.taken := rfl
@[simp] theorem State.release_vram (p : Point) : (s.release p).vram = s.vram := rfl
@[simp] theorem State.release_irq (p : Point) : (s.release p).irq = s.irq := rfl
@[simp] theorem State.release_activation (p : Point) :
    (s.release p).activation = s.activation := rfl
@[simp] theorem State.release_turn (p : Point) : (s.release p).turn = s.turn := rfl
@[simp] theorem State.release_inputs (p : Point) : (s.release p).inputs = s.inputs := rfl
@[simp] theorem State.release_freeTicks (p : Point) : (s.release p).freeTicks = s.freeTicks := rfl

@[simp] theorem State.deliverIllegalWait_tar (m : Tid) : (s.deliverIllegalWait m).tar = s.tar := rfl
@[simp] theorem State.deliverIllegalWait_mem (m : Tid) : (s.deliverIllegalWait m).mem = s.mem := rfl
@[simp] theorem State.deliverIllegalWait_inq (m : Tid) : (s.deliverIllegalWait m).inq = s.inq := rfl
@[simp] theorem State.deliverIllegalWait_outq (m : Tid) :
    (s.deliverIllegalWait m).outq = s.outq := rfl
@[simp] theorem State.deliverIllegalWait_taken (m : Tid) :
    (s.deliverIllegalWait m).taken = s.taken := rfl
@[simp] theorem State.deliverIllegalWait_vram (m : Tid) :
    (s.deliverIllegalWait m).vram = s.vram := rfl
@[simp] theorem State.deliverIllegalWait_irq (m : Tid) : (s.deliverIllegalWait m).irq = s.irq := rfl
@[simp] theorem State.deliverIllegalWait_activation (m : Tid) :
    (s.deliverIllegalWait m).activation = s.activation := rfl
@[simp] theorem State.deliverIllegalWait_turn (m : Tid) :
    (s.deliverIllegalWait m).turn = s.turn := rfl
@[simp] theorem State.deliverIllegalWait_inputs (m : Tid) :
    (s.deliverIllegalWait m).inputs = s.inputs := rfl
@[simp] theorem State.deliverIllegalWait_freeTicks (m : Tid) :
    (s.deliverIllegalWait m).freeTicks = s.freeTicks := rfl

@[simp] theorem State.startThread_threads (u : Tid) (a : Word) :
    (s.startThread u a).threads = s.threads.set u ((s.thread u).jumpTo a) := rfl
@[simp] theorem State.startThread_tar (u : Tid) (a : Word) : (s.startThread u a).tar = s.tar := rfl
@[simp] theorem State.startThread_wr (u : Tid) (a : Word) : (s.startThread u a).wr = s.wr := rfl
@[simp] theorem State.startThread_ws (u : Tid) (a : Word) : (s.startThread u a).ws = s.ws := rfl
@[simp] theorem State.startThread_mem (u : Tid) (a : Word) : (s.startThread u a).mem = s.mem := rfl
@[simp] theorem State.startThread_inq (u : Tid) (a : Word) : (s.startThread u a).inq = s.inq := rfl
@[simp] theorem State.startThread_outq (u : Tid) (a : Word) :
    (s.startThread u a).outq = s.outq := rfl
@[simp] theorem State.startThread_taken (u : Tid) (a : Word) :
    (s.startThread u a).taken = s.taken := rfl
@[simp] theorem State.startThread_vram (u : Tid) (a : Word) :
    (s.startThread u a).vram = s.vram := rfl
@[simp] theorem State.startThread_irq (u : Tid) (a : Word) : (s.startThread u a).irq = s.irq := rfl
@[simp] theorem State.startThread_activation (u : Tid) (a : Word) :
    (s.startThread u a).activation = some ⟨u, s.turn⟩ := rfl
@[simp] theorem State.startThread_turn (u : Tid) (a : Word) :
    (s.startThread u a).turn = s.turn := rfl
@[simp] theorem State.startThread_inputs (u : Tid) (a : Word) :
    (s.startThread u a).inputs = s.inputs := rfl
@[simp] theorem State.startThread_freeTicks (u : Tid) (a : Word) :
    (s.startThread u a).freeTicks = s.freeTicks := rfl

@[simp] theorem State.updCur_threads (f : Thread → Thread) :
    (s.updCur f).threads = s.threads.set s.turn (f s.cur) := rfl
@[simp] theorem State.updCur_tar (f : Thread → Thread) : (s.updCur f).tar = s.tar := rfl
@[simp] theorem State.updCur_wr (f : Thread → Thread) : (s.updCur f).wr = s.wr := rfl
@[simp] theorem State.updCur_ws (f : Thread → Thread) : (s.updCur f).ws = s.ws := rfl
@[simp] theorem State.updCur_mem (f : Thread → Thread) : (s.updCur f).mem = s.mem := rfl
@[simp] theorem State.updCur_inq (f : Thread → Thread) : (s.updCur f).inq = s.inq := rfl
@[simp] theorem State.updCur_outq (f : Thread → Thread) : (s.updCur f).outq = s.outq := rfl
@[simp] theorem State.updCur_taken (f : Thread → Thread) :
    (s.updCur f).taken = s.taken := rfl
@[simp] theorem State.updCur_vram (f : Thread → Thread) : (s.updCur f).vram = s.vram := rfl
@[simp] theorem State.updCur_irq (f : Thread → Thread) : (s.updCur f).irq = s.irq := rfl
@[simp] theorem State.updCur_activation (f : Thread → Thread) :
    (s.updCur f).activation = s.activation := rfl
@[simp] theorem State.updCur_turn (f : Thread → Thread) : (s.updCur f).turn = s.turn := rfl
@[simp] theorem State.updCur_inputs (f : Thread → Thread) : (s.updCur f).inputs = s.inputs := rfl
@[simp] theorem State.updCur_freeTicks (f : Thread → Thread) :
    (s.updCur f).freeTicks = s.freeTicks := rfl

@[simp] theorem State.raise_threads (es : List Exc) :
    (s.raise es).threads = s.threads.set s.turn (Thread.enterException s.turn es s.cur) := rfl
@[simp] theorem State.raise_tar (es : List Exc) : (s.raise es).tar = s.tar := rfl
@[simp] theorem State.raise_wr (es : List Exc) : (s.raise es).wr = s.wr := rfl
@[simp] theorem State.raise_ws (es : List Exc) : (s.raise es).ws = s.ws := rfl
@[simp] theorem State.raise_mem (es : List Exc) : (s.raise es).mem = s.mem := rfl
@[simp] theorem State.raise_inq (es : List Exc) : (s.raise es).inq = s.inq := rfl
@[simp] theorem State.raise_outq (es : List Exc) : (s.raise es).outq = s.outq := rfl
@[simp] theorem State.raise_taken (es : List Exc) :
    (s.raise es).taken = s.taken := rfl
@[simp] theorem State.raise_vram (es : List Exc) : (s.raise es).vram = s.vram := rfl
@[simp] theorem State.raise_irq (es : List Exc) : (s.raise es).irq = s.irq := rfl
@[simp] theorem State.raise_activation (es : List Exc) :
    (s.raise es).activation = s.activation := rfl
@[simp] theorem State.raise_turn (es : List Exc) : (s.raise es).turn = s.turn := rfl
@[simp] theorem State.raise_inputs (es : List Exc) : (s.raise es).inputs = s.inputs := rfl
@[simp] theorem State.raise_freeTicks (es : List Exc) : (s.raise es).freeTicks = s.freeTicks := rfl

@[simp] theorem State.takeInterrupt_threads (isr : Word) :
    (s.takeInterrupt isr).threads =
      s.threads.set s.turn (Thread.enterInterrupt s.turn isr s.cur) := rfl
@[simp] theorem State.takeInterrupt_tar (isr : Word) : (s.takeInterrupt isr).tar = s.tar := rfl
@[simp] theorem State.takeInterrupt_wr (isr : Word) : (s.takeInterrupt isr).wr = s.wr := rfl
@[simp] theorem State.takeInterrupt_ws (isr : Word) : (s.takeInterrupt isr).ws = s.ws := rfl
@[simp] theorem State.takeInterrupt_mem (isr : Word) : (s.takeInterrupt isr).mem = s.mem := rfl
@[simp] theorem State.takeInterrupt_inq (isr : Word) : (s.takeInterrupt isr).inq = s.inq := rfl
@[simp] theorem State.takeInterrupt_outq (isr : Word) : (s.takeInterrupt isr).outq = s.outq := rfl
@[simp] theorem State.takeInterrupt_taken (isr : Word) :
    (s.takeInterrupt isr).taken = s.taken := rfl
@[simp] theorem State.takeInterrupt_vram (isr : Word) : (s.takeInterrupt isr).vram = s.vram := rfl
@[simp] theorem State.takeInterrupt_irq (isr : Word) :
    (s.takeInterrupt isr).irq = s.irq.set s.turn none := rfl
@[simp] theorem State.takeInterrupt_activation (isr : Word) :
    (s.takeInterrupt isr).activation = s.activation := rfl
@[simp] theorem State.takeInterrupt_turn (isr : Word) : (s.takeInterrupt isr).turn = s.turn := rfl
@[simp] theorem State.takeInterrupt_inputs (isr : Word) :
    (s.takeInterrupt isr).inputs = s.inputs := rfl
@[simp] theorem State.takeInterrupt_freeTicks (isr : Word) :
    (s.takeInterrupt isr).freeTicks = s.freeTicks := rfl

@[simp] theorem State.rotate_threads : (s.rotate).threads = s.threads := rfl
@[simp] theorem State.rotate_tar : (s.rotate).tar = s.tar := rfl
@[simp] theorem State.rotate_wr : (s.rotate).wr = s.wr := rfl
@[simp] theorem State.rotate_ws : (s.rotate).ws = s.ws := rfl
@[simp] theorem State.rotate_mem : (s.rotate).mem = s.mem := rfl
@[simp] theorem State.rotate_inq : (s.rotate).inq = s.inq := rfl
@[simp] theorem State.rotate_outq : (s.rotate).outq = s.outq := rfl
@[simp] theorem State.rotate_taken :
    (s.rotate).taken = s.taken := rfl
@[simp] theorem State.rotate_vram : (s.rotate).vram = s.vram := rfl
@[simp] theorem State.rotate_irq : (s.rotate).irq = s.irq := rfl
@[simp] theorem State.rotate_activation : (s.rotate).activation = s.activation := rfl
@[simp] theorem State.rotate_turn : (s.rotate).turn = nextTurn s.turn := rfl
@[simp] theorem State.rotate_inputs : (s.rotate).inputs = s.inputs := rfl
@[simp] theorem State.rotate_freeTicks : (s.rotate).freeTicks = s.freeTicks := rfl

@[simp] theorem State.unscheduled_threads : (s.unscheduled).threads = s.threads := rfl
@[simp] theorem State.unscheduled_tar : (s.unscheduled).tar = s.tar := rfl
@[simp] theorem State.unscheduled_wr : (s.unscheduled).wr = s.wr := rfl
@[simp] theorem State.unscheduled_ws : (s.unscheduled).ws = s.ws := rfl
@[simp] theorem State.unscheduled_mem : (s.unscheduled).mem = s.mem := rfl
@[simp] theorem State.unscheduled_inq : (s.unscheduled).inq = s.inq := rfl
@[simp] theorem State.unscheduled_outq : (s.unscheduled).outq = s.outq := rfl
@[simp] theorem State.unscheduled_taken :
    (s.unscheduled).taken = s.taken := rfl
@[simp] theorem State.unscheduled_vram : (s.unscheduled).vram = s.vram := rfl
@[simp] theorem State.unscheduled_irq : (s.unscheduled).irq = s.irq := rfl
@[simp] theorem State.unscheduled_activation : (s.unscheduled).activation = s.activation := rfl
@[simp] theorem State.unscheduled_turn : (s.unscheduled).turn = 0 := rfl
@[simp] theorem State.unscheduled_inputs : (s.unscheduled).inputs = [] := rfl
@[simp] theorem State.unscheduled_freeTicks : (s.unscheduled).freeTicks = s.freeTicks := rfl

end Sys2Proof.Machine
end

