-- ==== Sys2Proof/Laws/Ops.lean ====
section
/-!
SUPPORT. The laws of the shared operations: memory, registers and FLAG of a thread, threads of the machine,
and for each way an instruction ends one lemma that says once what it can do.
-/

namespace Sys2Proof.Machine

/-! ## Memory -/

theorem Memory.stored_writeByte (m : Memory) (a b : Nat) (v : Byte) :
    Memory.stored (Memory.writeByte a v m) b = if b = a then some v else Memory.stored m b := by
  induction m with
  | nil => simp [Memory.writeByte, Memory.stored]
  | cons c rest ih =>
    obtain ⟨k, x⟩ := c
    simp only [Memory.writeByte]
    split
    · simp [Memory.stored]
    · split
      · subst_vars; simp only [Memory.stored]; split <;> rfl
      · simp only [Memory.stored, ih]
        split
        · subst_vars; rw [if_neg (by omega)]
        · rfl

/-- A byte reads as what was written to it, and every other byte as before. -/
theorem Memory.readByte_writeByte (m : Memory) (a b : Nat) (v : Byte) :
    Memory.readByte (Memory.writeByte a v m) b = if b = a then v else Memory.readByte m b := by
  by_cases h : b = a <;> simp [Memory.readByte, Memory.stored_writeByte, h]

theorem Memory.wfFrom_mono {m : Memory} {lo lo' : Nat} (h : lo' ≤ lo) (hm : Memory.wfFrom lo m = true) :
    Memory.wfFrom lo' m = true := by
  cases m with
  | nil => rfl
  | cons c rest =>
    simp only [Memory.wfFrom, Bool.and_eq_true, decide_eq_true_eq] at hm ⊢
    exact ⟨⟨by omega, hm.1.2⟩, hm.2⟩

theorem Memory.wfFrom_writeByte {m : Memory} {lo a : Nat} {v : Byte} (hlo : lo ≤ a) (ha : a < 65536)
    (hm : Memory.wfFrom lo m = true) : Memory.wfFrom lo (Memory.writeByte a v m) = true := by
  induction m generalizing lo with
  | nil => simp [Memory.writeByte, Memory.wfFrom, hlo, ha]
  | cons c rest ih =>
    obtain ⟨k, x⟩ := c
    simp only [Memory.wfFrom, Bool.and_eq_true, decide_eq_true_eq] at hm
    simp only [Memory.writeByte]
    split
    · simp only [Memory.wfFrom, Bool.and_eq_true, decide_eq_true_eq]
      exact ⟨⟨hlo, ha⟩, ⟨⟨by omega, hm.1.2⟩, hm.2⟩⟩
    · split
      · subst_vars
        simp only [Memory.wfFrom, Bool.and_eq_true, decide_eq_true_eq]
        exact ⟨⟨hlo, ha⟩, hm.2⟩
      · simp only [Memory.wfFrom, Bool.and_eq_true, decide_eq_true_eq]
        exact ⟨hm.1, ih (by omega) hm.2⟩

/-- Storing a byte of the address space keeps the canonical form. -/
theorem Memory.wf_writeByte {m : Memory} {a : Nat} {v : Byte} (ha : a < 65536) (hm : Memory.wf m = true) :
    Memory.wf (Memory.writeByte a v m) = true :=
  Memory.wfFrom_writeByte (Nat.zero_le a) ha hm

theorem wordBase_lt (a : Word) : wordBase a + 1 < 65536 := by
  have := a.isLt
  simp only [wordBase]; omega

/-- An aligned address is the base of its word. -/
theorem wordBase_of_even {a : Word} (h : isOdd a = false) : wordBase a = a.toNat := by
  have h2 : a.toNat % 2 = 0 := by
    have : a.getLsbD 0 = decide (a.toNat % 2 = 1) := by
      simp [BitVec.getLsbD, Nat.testBit_zero]
    rw [isOdd, this] at h
    have := of_decide_eq_false h
    omega
  simp only [wordBase]; omega

/-- Storing a word keeps the canonical form. -/
theorem Memory.wf_writeWord {m : Memory} (a v : Word) (hm : Memory.wf m = true) :
    Memory.wf (Memory.writeWord m a v) = true :=
  Memory.wf_writeByte (wordBase_lt a)
    (Memory.wf_writeByte (Nat.lt_of_succ_lt (wordBase_lt a)) hm)

/-- What a byte reads as after a word is stored. -/
theorem Memory.readByte_writeWord (m : Memory) (a v : Word) (b : Nat) :
    Memory.readByte (Memory.writeWord m a v) b =
      if b = wordBase a + 1 then v.extractLsb' 8 8
      else if b = wordBase a then v.extractLsb' 0 8 else Memory.readByte m b := by
  simp only [Memory.writeWord, Memory.readByte_writeByte]

/-- The two bytes of a word make the word again, in either order. -/
theorem wordOfBytes_bytesOfWord (o : ByteOrder) (v : Word) :
    wordOfBytes o (bytesOfWord o v).1 (bytesOfWord o v).2 = v := by
  cases o <;>
  · simp only [wordOfBytes, bytesOfWord]
    ext i hi
    simp only [BitVec.getElem_append, BitVec.getElem_extractLsb']
    split
    · simp [BitVec.getLsbD_eq_getElem hi]
    · rw [show 8 + (i - 8) = i by omega]; simp [BitVec.getLsbD_eq_getElem hi]

/-! ## A thread's registers and FLAG -/

/-- What a register reads as after a register write (R9). -/
theorem Thread.readReg_writeReg (th : Thread) (r q : RegNum) (v : Word) :
    (th.writeReg r v).readReg q = if q = r ∧ th.writable r = true then v else th.readReg q := by
  simp only [Thread.readReg, Thread.writeReg]
  by_cases hw : th.writable r = true
  · simp only [hw, if_true, and_true]
    by_cases hq : q = r
    · subst hq; simp
    · simp [hq, Fin.val_inj, Ne.symm hq]
  · simp [hw]

@[simp] theorem Thread.readReg_writeFlag (th : Thread) (i : FlagNum) (b : Bool) (q : RegNum) :
    (th.writeFlag i b).readReg q = th.readReg q := rfl

@[simp] theorem Thread.readReg_advance (th : Thread) (q : RegNum) : th.advance.readReg q = th.readReg q := rfl

@[simp] theorem Thread.readReg_jumpTo (th : Thread) (a : Word) (q : RegNum) :
    (th.jumpTo a).readReg q = th.readReg q := rfl

@[simp] theorem Thread.readReg_putFlags (th : Thread) (v : Byte) (q : RegNum) :
    (th.putFlags v).readReg q = th.readReg q := rfl

@[simp] theorem Thread.readFlag_writeReg (th : Thread) (r : RegNum) (v : Word) (i : FlagNum) :
    (th.writeReg r v).readFlag i = th.readFlag i := rfl

@[simp] theorem Thread.readFlag_advance (th : Thread) (i : FlagNum) : th.advance.readFlag i = th.readFlag i := rfl

@[simp] theorem Thread.readFlag_jumpTo (th : Thread) (a : Word) (i : FlagNum) :
    (th.jumpTo a).readFlag i = th.readFlag i := rfl

@[simp] theorem Thread.writable_writeFlag (th : Thread) (i : FlagNum) (b : Bool) (r : RegNum) :
    (th.writeFlag i b).writable r = th.writable r := rfl

theorem Thread.writable_iff (th : Thread) (r : RegNum) :
    th.writable r = true ↔ r ≠ 0 ∨ th.debug = true := by
  simp [Thread.writable]

theorem getLsbD_setBit (x : BitVec 8) (i j : Fin 8) (b : Bool) :
    (setBit x i b).getLsbD j = if j = i then b else x.getLsbD j := by
  have key : ∀ i j : Fin 8, (1#8 <<< i.val).getLsbD j = decide (j = i) := by decide
  by_cases h : j = i <;> cases b <;>
    simp only [setBit, BitVec.getLsbD_or, BitVec.getLsbD_and, BitVec.getLsbD_not, key, h, j.isLt,
      decide_true, decide_false, Bool.not_true, Bool.not_false, Bool.and_true, Bool.and_false, Bool.or_true,
      Bool.or_false, if_true, if_false, Bool.false_eq_true]

/-- What a flag reads as after a flag write (R10). -/
theorem Thread.readFlag_writeFlag (th : Thread) (i j : FlagNum) (b : Bool) :
    (th.writeFlag i b).readFlag j = if j = 0 then true else if j = i then b else th.readFlag j := by
  simp only [Thread.readFlag, Thread.writeFlag]
  by_cases hj : j = 0
  · simp [hj]
  · by_cases hi : i = 0
    · subst hi; simp [hj]
    · simp only [hi, if_false, getLsbD_setBit, hj, beq_eq_false_iff_ne.mpr hj, Bool.false_or]

/-! ## Threads of the machine -/

@[simp] theorem State.thread_setThread (s : State) (t u : Tid) (th : Thread) :
    (s.setThread t th).thread u = if u = t then th else s.thread u := by
  simp only [State.thread, State.setThread]
  by_cases h : u = t
  · subst h; simp
  · simp [h, Fin.val_inj, Ne.symm h]

@[simp] theorem State.thread_updCur (s : State) (f : Thread → Thread) (u : Tid) :
    (s.updCur f).thread u = if u = s.turn then f s.cur else s.thread u := by
  simp [State.updCur]

@[simp] theorem State.cur_updCur (s : State) (f : Thread → Thread) : (s.updCur f).cur = f s.cur := by
  simp [State.cur]

@[simp] theorem State.thread_storeWord (s : State) (a v : Word) (u : Tid) :
    (s.storeWord a v).thread u = s.thread u := rfl

@[simp] theorem State.thread_portWrite (s : State) (p : Port) (v : Word) (u : Tid) :
    (s.portWrite p v).thread u = s.thread u := rfl

@[simp] theorem State.thread_vramWrite (s : State) (sel : BitVec 2) (off v : Word) (u : Tid) :
    (s.vramWrite sel off v).thread u = s.thread u := rfl

@[simp] theorem State.cur_storeWord (s : State) (a v : Word) : (s.storeWord a v).cur = s.cur := rfl

@[simp] theorem State.cur_portWrite (s : State) (p : Port) (v : Word) : (s.portWrite p v).cur = s.cur := rfl

@[simp] theorem State.cur_vramWrite (s : State) (sel : BitVec 2) (off v : Word) :
    (s.vramWrite sel off v).cur = s.cur := rfl

@[simp] theorem State.thread_rotate (s : State) (u : Tid) : s.rotate.thread u = s.thread u := rfl

theorem getLsbD_maskOf (f : Tid → Bool) (u : Tid) : (maskOf f).getLsbD u = f u := by
  have h : ∀ a b c d : Bool, ∀ u : Tid,
      (BitVec.ofBool d ++ BitVec.ofBool c ++ BitVec.ofBool b ++ BitVec.ofBool a).getLsbD u =
        (match u with | 0 => a | 1 => b | 2 => c | 3 => d) := by decide
  simp only [maskOf, h]
  fin_cases u <;> rfl

theorem getLsbD_clearBit (m : BitVec 4) (t u : Tid) :
    (clearBit m t).getLsbD u = (m.getLsbD u && u != t) := by
  revert m t u; decide

theorem getLsbD_withBit (m : BitVec 4) (t u : Tid) :
    (withBit m t).getLsbD u = (m.getLsbD u || u == t) := by
  revert m t u; decide

/-- Four bits are 0 exactly when no thread's bit is set. -/
theorem mask_eq_zero_iff (m : BitVec 4) : m = 0 ↔ ∀ u : Tid, m.getLsbD u = false := by
  revert m; decide

/-! ## Results -/

/-- A result that continues with a next state came from one. -/
theorem onNext_next {f : State → Result} {r : Result} {s' : State} (h : onNext f r = .next s') :
    ∃ s₁, r = .next s₁ ∧ f s₁ = .next s' := by
  cases r with
  | next s₁ => exact ⟨s₁, rfl, h⟩
  | fault _ => cases h
  | refused _ => cases h

@[simp] theorem onNext_of_next (f : State → Result) (s : State) : onNext f (.next s) = f s := rfl

/-- `retire` always completes. -/
theorem State.retire_eq (s : State) (f : Thread → Thread) :
    s.retire f = .next (s.updCur fun th => (f th).advance) := rfl

/-- A guarded instruction either raised, and nothing else, or went on without any exception. -/
theorem State.guarded_next {s s' : State} {es : List Exc} {go : Result}
    (h : s.guarded es go = .next s') : (es = [] ∧ go = .next s') ∨ (es ≠ [] ∧ s' = s.raise es) := by
  cases es with
  | nil => exact .inl ⟨rfl, h⟩
  | cons e es => exact .inr ⟨by simp, by simpa [State.guarded] using h.symm⟩

@[simp] theorem State.guarded_nil (s : State) (go : Result) : s.guarded [] go = go := rfl

@[simp] theorem State.guarded_cons (s : State) (e : Exc) (es : List Exc) (go : Result) :
    s.guarded (e :: es) go = .next (s.raise (e :: es)) := rfl

/-- Any raise sets the mask, so that no interrupt is taken with it (R319). -/
theorem State.raise_imask (s : State) (es : List Exc) : (s.raise es).cur.imask = true := by
  simp [State.raise]

end Sys2Proof.Machine
end

