-- ==== Sys2Proof/Laws/Effects.lean ====
section
/-!
SUPPORT. For each way an instruction ends, one lemma in the terms of Sys2Proof/Safety.lean that says once what
it does: which registers, flags and control registers it leaves, and that nothing else changes.
-/

namespace Sys2Proof.Machine

/-! ## Threads -/

theorem SameControl.refl (th : Thread) : SameControl th th := ⟨rfl, rfl, rfl, rfl, rfl, rfl⟩

/-- A register write, read back through `regsWith`. -/
theorem Thread.readReg_writeReg_eq (th : Thread) (rd : RegNum) (v : Word) (r : RegNum) :
    (th.writeReg rd v).readReg r = regsWith th rd v r := by
  simp only [Thread.readReg_writeReg, regsWith, Thread.writable_iff]

/-- A flag write, read back through `flagsWith`. -/
theorem Thread.readFlag_writeFlag_eq (th : Thread) (k : FlagNum) (b : Bool) (i : FlagNum) :
    (th.writeFlag k b).readFlag i = flagsWith th (flagOnly k b) i := by
  simp only [Thread.readFlag_writeFlag, flagsWith, flagOnly]
  split
  · rfl
  · split <;> rfl

theorem Thread.readFlag_zero (th : Thread) : th.readFlag 0 = true := rfl

/-- Reading FLAG is reading it with no bit named. -/
theorem flagsWith_noFlags (th : Thread) (i : FlagNum) : flagsWith th noFlags i = th.readFlag i := by
  simp only [flagsWith, noFlags, Option.getD_none]
  split
  · subst_vars; rfl
  · rfl

/-- The flags an arithmetic result names. -/
def AluOut.flags (r : AluOut) : FlagNum → Option Bool :=
  fun i => if i = 6 then some r.flag6 else if i = 7 then r.flag7 else none

theorem Thread.readReg_writeFlagOpt (th : Thread) (k : FlagNum) (b : Option Bool) (r : RegNum) :
    (th.writeFlagOpt k b).readReg r = th.readReg r := by cases b <;> rfl

theorem Thread.readFlag_writeFlagOpt (th : Thread) (k : FlagNum) (b : Option Bool) (i : FlagNum) :
    (th.writeFlagOpt k b).readFlag i =
      if i = 0 then true else if i = k then b.getD (th.readFlag i) else th.readFlag i := by
  cases b with
  | none =>
    simp only [Thread.writeFlagOpt, Option.getD_none, ite_self]
    split
    · subst_vars; rfl
    · rfl
  | some b => simp only [Thread.writeFlagOpt, Thread.readFlag_writeFlag, Option.getD_some]

/-- What the write-back of an arithmetic result leaves of the registers. -/
theorem Thread.readReg_writeAlu (th : Thread) (rd : RegNum) (r : AluOut) (q : RegNum) :
    (th.writeAlu rd r).readReg q = regsWith th rd r.value q := by
  simp only [Thread.writeAlu, Thread.readReg_writeFlagOpt, Thread.readReg_writeFlag,
    Thread.readReg_writeReg_eq]

/-- What the write-back of an arithmetic result leaves of FLAG. -/
theorem Thread.readFlag_writeAlu (th : Thread) (rd : RegNum) (r : AluOut) (i : FlagNum) :
    (th.writeAlu rd r).readFlag i = flagsWith th r.flags i := by
  simp only [Thread.writeAlu, Thread.readFlag_writeFlagOpt, Thread.readFlag_writeFlag,
    Thread.readFlag_writeReg, flagsWith, AluOut.flags]
  split
  · rfl
  · split
    · subst_vars; rfl
    · split <;> rfl

theorem Thread.control_writeAlu (th : Thread) (rd : RegNum) (r : AluOut) :
    SameControl th (th.writeAlu rd r).advance := by
  obtain ⟨v, f6, f7⟩ := r
  cases f7 <;> exact SameControl.refl th

theorem Thread.pc_writeAlu (th : Thread) (rd : RegNum) (r : AluOut) : (th.writeAlu rd r).pc = th.pc := by
  obtain ⟨v, f6, f7⟩ := r
  cases f7 <;> rfl

/-! ## Ways to complete -/

/-- An instruction that changes only its own thread touches nothing else of the machine. -/
theorem onlyThread_updCur (s : State) (f : Thread → Thread) : OnlyThread s.turn s (s.updCur f) := by
  simp only [OnlyThread, State.thread_updCur, if_true]
  rfl

theorem sameMemory_updCur (s : State) (f : Thread → Thread) : SameMemory s (s.updCur f) := fun _ => rfl

/-- `retire` completes, and its effect is what the change does to the thread's registers, flags and control
registers, with the pc stepped. -/
theorem State.retire_completes (s : State) (f : Thread → Thread) (control : Thread) (regs : RegNum → Word)
    (flags : FlagNum → Bool) (hr : ∀ r, (f s.cur).readReg r = regs r)
    (hf : ∀ i, (f s.cur).readFlag i = flags i) (hp : (f s.cur).pc = s.cur.pc)
    (hc : SameControl control (f s.cur)) :
    ∃ t, s.retire f = .next t ∧ OwnEffect s t control regs flags (s.cur.pc + 2) := by
  refine ⟨_, s.retire_eq f, onlyThread_updCur s _, sameMemory_updCur s _, ?_⟩
  simp only [State.thread_updCur, if_true]
  exact ⟨hr, hf, by rw [Thread.advance, hp], hc⟩

/-- An instruction that writes one register completes with exactly that. -/
theorem State.retireReg_completes (s : State) (rd : RegNum) (v : Word) :
    ∃ t, s.retireReg rd v = .next t ∧ DataEffect s t rd v noFlags :=
  s.retire_completes _ _ _ _ (fun r => s.cur.readReg_writeReg_eq rd v r)
    (fun i => (flagsWith_noFlags s.cur i).symm) rfl (SameControl.refl _)

/-- An arithmetic instruction completes with its register and its flags. -/
theorem State.retireAlu_completes (s : State) (rd : RegNum) (r : AluOut) :
    ∃ t, s.retireAlu rd r = .next t ∧ DataEffect s t rd r.value r.flags :=
  s.retire_completes _ _ _ _ (fun q => s.cur.readReg_writeAlu rd r q) (fun i => s.cur.readFlag_writeAlu rd r i)
    (s.cur.pc_writeAlu rd r) (s.cur.control_writeAlu rd r)

/-- An instruction that writes one flag completes with exactly that. -/
theorem State.retireFlag_completes (s : State) (k : FlagNum) (b : Bool) :
    ∃ t, (s.retire fun th => th.writeFlag k b) = .next t ∧ FlagEffect s t (flagOnly k b) :=
  s.retire_completes _ _ _ _ (fun _ => rfl) (fun i => s.cur.readFlag_writeFlag_eq k b i) rfl
    (SameControl.refl _)

/-- An instruction without any effect of its own completes by stepping the pc. -/
theorem State.retireNothing_completes (s : State) : ∃ t, s.retire id = .next t ∧ FlagEffect s t noFlags :=
  s.retire_completes _ _ _ _ (fun _ => rfl) (fun i => (flagsWith_noFlags s.cur i).symm) rfl
    (SameControl.refl _)

/-- A word compare writes one flag (R150). -/
theorem State.compareWords_completes (s : State) (rel : Rel) (ra rb : RegNum) (cb : FlagNum) :
    ∃ t, s.compareWords rel ra rb cb = .next t ∧
      FlagEffect s t (flagOnly cb (relHolds Config.cmpSigned rel (s.reg ra) (s.reg rb))) :=
  s.retireFlag_completes cb _

/-- A lane compare writes two flags, or one if CB is 7 (R150). -/
theorem State.compareLanes_completes (s : State) (rel : Rel) (ra rb : RegNum) (cb : FlagNum) :
    ∃ t, s.compareLanes rel ra rb cb = .next t ∧
      FlagEffect s t (flagPair cb (relHolds Config.cmpSigned rel (loByte (s.reg ra)) (loByte (s.reg rb)))
        (relHolds Config.cmpSigned rel (hiByte (s.reg ra)) (hiByte (s.reg rb)))) := by
  refine s.retire_completes _ _ _ _ (fun r => ?_) (fun i => ?_) ?_ ?_
  · split <;> rfl
  · have next : ∀ i cb : FlagNum, cb ≠ 7 → (i = cb + 1 ↔ i.val = cb.val + 1) := by decide
    have last : ∀ i : FlagNum, ¬ i.val = (7 : FlagNum).val + 1 := by decide
    by_cases h7 : cb = 7
    · subst h7
      simp only [if_true, Thread.readFlag_writeFlag, flagsWith, flagPair]
      by_cases h0 : i = 0
      · simp [h0]
      · by_cases h : i = 7
        · simp [h]
        · simp only [h0, h, if_false]
          rw [if_neg (last i)]; rfl
    · simp only [h7, if_false, Thread.readFlag_writeFlag, flagsWith, flagPair, next i cb h7]
      by_cases h0 : i = 0
      · simp [h0]
      · simp only [h0, if_false]
        by_cases h : i = cb
        · subst h
          rw [if_neg (by omega)]; simp
        · by_cases h1 : i.val = cb.val + 1
          · simp [h, h1]
          · simp [h, h1]
  · split <;> rfl
  · split <;> exact SameControl.refl _

/-! ## Raising -/

/-- The EXR bit of an exception. -/
theorem getLsbD_excBit (e : Exc) (i : Nat) : (1#16 <<< e.code).getLsbD i = decide (i = e.code) := by
  by_cases h : i < 16
  · have key : ∀ (c : Fin 5) (i : Fin 16), (1#16 <<< c.val).getLsbD i = decide (i.val = c.val) := by decide
    cases e <;> first
      | exact key 0 ⟨i, h⟩ | exact key 1 ⟨i, h⟩ | exact key 2 ⟨i, h⟩ | exact key 3 ⟨i, h⟩ | exact key 4 ⟨i, h⟩
  · have hc : e.code < 16 := by cases e <;> decide
    rw [BitVec.getLsbD_of_ge _ _ (by omega)]
    exact (decide_eq_false (by omega)).symm

/-- The EXR bits of a set of exceptions are the codes of its members, and only those (R305). -/
theorem getLsbD_excBits (es : List Exc) (i : Nat) :
    (excBits es).getLsbD i = true ↔ ∃ e ∈ es, i = e.code := by
  induction es with
  | nil => simp [excBits]
  | cons e es ih =>
    simp only [excBits, BitVec.getLsbD_or, Bool.or_eq_true, getLsbD_excBit, decide_eq_true_eq, ih,
      List.mem_cons, exists_eq_or_imp]

/-- Raising is exception entry of the executing thread and nothing else (R13, R305). -/
theorem State.raise_raised (s : State) (es : List Exc) : Raised s (s.raise es) (excBits es) := by
  refine ⟨onlyThread_updCur s _, sameMemory_updCur s _, ?_⟩
  simp only [State.raise, State.thread_updCur, if_true]
  rfl

/-- An instruction whose checks find an exception raises it and has no other effect. -/
theorem State.guarded_raises (s : State) {es : List Exc} (go : Result) (h : es ≠ []) :
    ∃ t, s.guarded es go = .next t ∧ Raised s t (excBits es) := by
  cases es with
  | nil => exact absurd rfl h
  | cons e es => exact ⟨_, rfl, s.raise_raised _⟩

end Sys2Proof.Machine
end

