-- ==== Sys2Proof/Laws/Access.lean ====
section
/-!
SUPPORT. What the shared operations that reach memory, the ports and the Video RAM do, each said once:
words of memory, loads, stores, video stores and port writes.
-/

namespace Sys2Proof.Machine

/-! ## Alignment and protection -/

theorem isOdd_eq (a : Word) : isOdd a = decide (a.toNat % 2 = 1) := by
  simp [isOdd, BitVec.getLsbD, Nat.testBit_zero]

theorem isOdd_eq_false_iff (a : Word) : isOdd a = false ↔ IsAligned a := by
  rw [isOdd_eq, decide_eq_false_iff_not, IsAligned]; omega

theorem isOdd_eq_true_iff (a : Word) : isOdd a = true ↔ ¬ IsAligned a := by
  rw [isOdd_eq, decide_eq_true_eq, IsAligned]; omega

/-- The top bit of an address says whether it lies in data memory. -/
theorem topBit_eq (a : Word) : a.getLsbD 15 = decide (0x8000 ≤ a.toNat) := by
  have := a.isLt
  rw [BitVec.getLsbD, Nat.testBit_eq_decide_div_mod_eq]
  congr 1; simp only [eq_iff_iff]; omega

theorem topBits_toNat (a : Word) : (a.extractLsb' 14 2).toNat = a.toNat / 0x4000 := by
  have := a.isLt
  rw [BitVec.extractLsb'_toNat, Nat.shiftRight_eq_div_pow]; omega

/-- `StoreIllegal` as ranges of addresses (R70). -/
theorem storeIllegal_eq_false_iff (pc a : Word) : storeIllegal pc a = false ↔ StorePermitted pc a := by
  have h1 := topBits_toNat a
  have h2 := topBits_toNat pc
  simp only [storeIllegal, StorePermitted, Bool.or_eq_false_iff, Bool.and_eq_false_iff, beq_eq_false_iff_ne,
    bne_eq_false_iff_eq, ne_eq, ← BitVec.toNat_inj, h1, h2]
  simp only [BitVec.toNat_ofNat]
  omega

/-! ## Words of memory -/

/-- A word reads back as it was written. -/
theorem Memory.readWord_writeWord_same (m : Memory) (a v : Word) :
    Memory.readWord (Memory.writeWord m a v) a = v := by
  have hne : ¬ wordBase a = wordBase a + 1 := by omega
  simp only [Memory.readWord, Memory.readByte_writeWord, hne, if_true, if_false]
  exact wordOfBytes_bytesOfWord .little v

/-- Storing a word touches the two bytes of that word only. -/
theorem Memory.readByte_writeWord_of_ne (m : Memory) (a v : Word) {b : Nat}
    (h0 : b ≠ wordBase a) (h1 : b ≠ wordBase a + 1) :
    Memory.readByte (Memory.writeWord m a v) b = Memory.readByte m b := by
  rw [Memory.readByte_writeWord, if_neg h1, if_neg h0]

/-- A byte of an image is an entry of the word its address lies in. -/
theorem byteCell_half (o : ByteOrder) (a : Nat) : byteCell o a / 2 = a / 2 := by
  cases o
  · rfl
  · simp only [byteCell]; split <;> omega

/-- No two byte addresses of an image share an entry of memory. -/
theorem byteCell_byteCell (o : ByteOrder) (a : Nat) : byteCell o (byteCell o a) = a := by
  cases o
  · rfl
  · simp only [byteCell]
    split <;> split <;> omega

/-- Storing a word at an aligned address stores that word. -/
theorem State.storeWord_stored (s : State) {a : Word} (v : Word) (h : IsAligned a) :
    WordStored s (s.storeWord a v) a v := by
  refine ⟨Memory.readWord_writeWord_same _ _ _, fun b h0 h1 => ?_⟩
  have hb := wordBase_of_even ((isOdd_eq_false_iff a).mpr h)
  exact Memory.readByte_writeWord_of_ne _ _ _ (hb ▸ h0) (hb ▸ h1)

/-! ## Stepping forms -/

/-- The register an access steps, read back through `regsStepped`. -/
theorem Thread.readReg_stepReg (th : Thread) (ra : RegNum) (d : Int) (w : Word) (hw : w = BitVec.ofInt 16 d)
    (r : RegNum) : (th.stepReg ra (some w)).readReg r = regsStepped th ra (some d) r := by
  subst hw
  simp only [Thread.stepReg, Thread.readReg_writeReg_eq, regsStepped, BitVec.ofInt_add, BitVec.ofInt_natCast,
    BitVec.ofNat_toNat, BitVec.setWidth_eq]

theorem Thread.readFlag_stepReg (th : Thread) (ra : RegNum) (w : Option Word) (i : FlagNum) :
    (th.stepReg ra w).readFlag i = th.readFlag i := by cases w <;> rfl

theorem Thread.pc_stepReg (th : Thread) (ra : RegNum) (w : Option Word) : (th.stepReg ra w).pc = th.pc := by
  cases w <;> rfl

theorem Thread.control_stepReg (th : Thread) (ra : RegNum) (w : Option Word) :
    SameControl th (th.stepReg ra w) := by cases w <;> exact SameControl.refl th

theorem Thread.debug_stepReg (th : Thread) (ra : RegNum) (w : Option Word) :
    (th.stepReg ra w).debug = th.debug := by cases w <;> rfl

/-! ## Loads, stores and video stores -/

/-- The executing thread after a change made in a state with the same turn and the same executing thread. -/
theorem State.thread_updCur_of_eq {s s₁ : State} (f : Thread → Thread) (ht : s₁.turn = s.turn)
    (hc : s₁.cur = s.cur) : (s₁.updCur f).thread s.turn = f s.cur := by
  rw [← ht, ← hc, State.thread_updCur, if_pos rfl]

/-- A load from an aligned address that is no clash completes: RD gets the word of that address, the address
register its step, nothing else changes (R195). -/
theorem State.load_completes (s : State) (step : Option Word) (ra rd : RegNum) (ha : IsAligned (s.reg ra))
    (hc : s.cur.loadClash ra rd step = false) :
    ∃ t, s.load step ra rd = .next t ∧ OwnEffect s t s.cur
      (fun r => if r = rd ∧ s.cur.writable rd = true then s.loadWord (s.reg ra)
        else (s.cur.stepReg ra step).readReg r) (flagsWith s.cur noFlags) (s.cur.pc + 2) := by
  have hl : loadExc (s.reg ra) = [] := by rw [loadExc, (isOdd_eq_false_iff _).mpr ha]; rfl
  simp only [State.load, hl, State.guarded_nil, hc, Bool.false_eq_true, if_false]
  refine s.retire_completes _ _ _ _ (fun r => ?_) (fun i => ?_) ?_ ?_
  · rw [Thread.readReg_writeReg, Thread.writable, Thread.debug_stepReg, ← Thread.writable]
  · rw [Thread.readFlag_writeReg, Thread.readFlag_stepReg, flagsWith_noFlags]
  · exact Thread.pc_stepReg _ _ _
  · exact Thread.control_stepReg _ _ _

/-- A load from an odd address raises UNALIGNED_ADDRESS. -/
theorem State.load_raises (s : State) (step : Option Word) (ra rd : RegNum) (ha : ¬ IsAligned (s.reg ra)) :
    ∃ t, s.load step ra rd = .next t ∧ Raised s t 2 := by
  have hl : loadExc (s.reg ra) = [.unalignedAddress] := by rw [loadExc, (isOdd_eq_true_iff _).mpr ha]; rfl
  simp only [State.load, hl]
  exact s.guarded_raises _ (by simp)

theorem storeExc_eq_nil_iff (pc a : Word) : storeExc pc a = [] ↔ IsAligned a ∧ StorePermitted pc a := by
  rw [← isOdd_eq_false_iff, ← storeIllegal_eq_false_iff, storeExc]
  cases isOdd a <;> cases storeIllegal pc a <;> simp

/-- The EXR bits of the exceptions of a store. -/
theorem excBits_storeExc (pc a : Word) : excBits (storeExc pc a) = storeBits pc a := by
  have hp := storeIllegal_eq_false_iff pc a
  rw [storeExc, storeBits, isOdd_eq]
  have hi : storeIllegal pc a = decide (a.toNat < 0x4000 ∨ (a.toNat < 0x8000 ∧ 0x4000 ≤ pc.toNat)) := by
    rw [StorePermitted] at hp
    by_cases h : a.toNat < 0x4000 ∨ (a.toNat < 0x8000 ∧ 0x4000 ≤ pc.toNat)
    · rw [decide_eq_true h, ← Bool.not_eq_false, hp]; omega
    · rw [decide_eq_false h, hp]; omega
  rw [hi]
  by_cases h1 : a.toNat % 2 = 1 <;>
    by_cases h2 : a.toNat < 0x4000 ∨ (a.toNat < 0x8000 ∧ 0x4000 ≤ pc.toNat) <;>
      simp [h1, h2, excBits, Exc.code]

/-- A permitted store completes: the word is stored, the address register stepped, nothing else changes
(R199). -/
theorem State.store_completes (s : State) (step : Option Word) (ra rb : RegNum) (ha : IsAligned (s.reg ra))
    (hp : StorePermitted s.cur.pc (s.reg ra)) :
    ∃ t, s.store step ra rb = .next t ∧
      StoreEffect s t (s.reg ra) (s.reg rb) (s.cur.stepReg ra step).readReg := by
  have he := (storeExc_eq_nil_iff s.cur.pc (s.reg ra)).mpr ⟨ha, hp⟩
  simp only [State.store, he, State.guarded_nil]
  refine ⟨_, State.retire_eq _ _, ?_, s.storeWord_stored (s.reg rb) ha, ?_⟩ <;>
    rw [State.thread_updCur_of_eq (s := s) (s₁ := s.storeWord (s.reg ra) (s.reg rb)) _ rfl rfl]
  · rfl
  · exact ⟨fun r => rfl,
      fun i => (Thread.readFlag_stepReg s.cur ra step i).trans (flagsWith_noFlags s.cur i).symm,
      congrArg (· + 2) (Thread.pc_stepReg s.cur ra step), Thread.control_stepReg s.cur ra step⟩

/-- A forbidden store raises, and does nothing else. -/
theorem State.guarded_store_raises (s : State) (pc a : Word) (go : Result)
    (h : ¬ (IsAligned a ∧ StorePermitted pc a)) :
    ∃ t, s.guarded (storeExc pc a) go = .next t ∧ Raised s t (storeBits pc a) := by
  rw [← excBits_storeExc]
  exact s.guarded_raises _ (mt (storeExc_eq_nil_iff pc a).mp h)

theorem State.portHasRoom_eq (s : State) (p : Port) :
    s.portHasRoom p = decide ((s.outq[p]).length < 256) := rfl

/-- The output queues after a word is offered to one of them. -/
theorem State.outq_portWrite (s : State) (p : Port) (v : Word) :
    (s.portWrite p v).outq = if (s.outq[p]).length < 256 then s.outq.set p (s.outq[p] ++ [v]) else s.outq := by
  by_cases h : (s.outq[p]).length < 256
  · rw [if_pos h]; exact if_pos (decide_eq_true h)
  · rw [if_neg h]; exact if_neg (fun e => h (of_decide_eq_true e))

/-- A word offered to an output queue is appended if there is room (R12, R81). -/
theorem State.portWrite_appended (s : State) (p : Port) (v : Word) : Appended s (s.portWrite p v) p v := by
  intro q
  suffices h : (s.portWrite p v).outq[q] =
      if q = p ∧ (s.outq[q]).length < 256 then s.outq[q] ++ [v] else s.outq[q] by
    refine ⟨h, ?_⟩
    rw [State.portReceived, State.portReceived, h, State.portWrite_taken]
    split
    · exact (List.append_assoc _ _ _).symm
    · rfl
  rw [State.outq_portWrite]
  by_cases hq : q = p
  · subst hq
    by_cases h : (s.outq[q]).length < 256
    · rw [if_pos h, if_pos ⟨rfl, h⟩]; simp
    · rw [if_neg h, if_neg (fun e => h e.2)]
  · rw [if_neg (c := q = p ∧ _) (fun e => hq e.1)]
    by_cases h : (s.outq[p]).length < 256
    · rw [if_pos h]; simp [Fin.val_inj, Ne.symm hq]
    · rw [if_neg h]

/-- A video store whose selector register holds 0, 1 or 2 completes (R209). -/
theorem State.videoStore_completes (s : State) (step : Option Word) (ra rb rd : RegNum)
    (h : (s.reg rd).toNat ≤ 2) :
    ∃ t, s.videoStore step ra rb rd = .next t ∧
      VideoEffect s t (s.reg rd) (s.reg ra) (s.reg rb) (s.cur.stepReg ra step).readReg := by
  have cases3 : ∀ x : Word, x.toNat ≤ 2 → x = 0 ∨ x = 1 ∨ x = 2 := by
    intro x hx
    have e : x = BitVec.ofNat 16 x.toNat := by simp
    rcases (by omega : x.toNat = 0 ∨ x.toNat = 1 ∨ x.toNat = 2) with h | h | h <;> rw [e, h] <;> simp
  have effect : ∀ v : List VramWrite, VideoEffect s
      (State.updCur { s with vram := v } fun th => (th.stepReg ra step).advance) (s.reg rd) (s.reg ra)
      (s.reg rb) (s.cur.stepReg ra step).readReg ↔
        v = if s.reg rd = 0 then s.vram else s.vram ++ [⟨BitVec.ofNat 2 (s.reg rd).toNat, s.reg ra, s.reg rb⟩] := by
    intro v
    constructor
    · exact fun e => e.2.2.1
    · refine fun e => ⟨?_, fun _ => rfl, e, ?_⟩ <;>
        rw [State.thread_updCur_of_eq (s := s) (s₁ := { s with vram := v }) _ rfl rfl]
      · rfl
      · exact ⟨fun r => rfl,
          fun i => (Thread.readFlag_stepReg s.cur ra step i).trans (flagsWith_noFlags s.cur i).symm,
          congrArg (· + 2) (Thread.pc_stepReg s.cur ra step), Thread.control_stepReg s.cur ra step⟩
  have unfolded : s.videoStore step ra rb rd =
      if s.reg rd = 0 then s.retire fun th => th.stepReg ra step
      else if s.reg rd = 1 ∨ s.reg rd = 2 then
        (s.vramWrite ((s.reg rd).extractLsb' 0 2) (s.reg ra) (s.reg rb)).retire fun th => th.stepReg ra step
      else .refused .videoSelector := rfl
  rcases cases3 _ h with h0 | h1 | h2
  · rw [unfolded, if_pos h0]
    exact ⟨_, rfl, (effect s.vram).mpr (if_pos h0).symm⟩
  · rw [unfolded, if_neg (by rw [h1]; decide), if_pos (.inl h1)]
    exact ⟨_, rfl, (effect _).mpr (by rw [h1]; rfl)⟩
  · rw [unfolded, if_neg (by rw [h2]; decide), if_pos (.inr h2)]
    exact ⟨_, rfl, (effect _).mpr (by rw [h2]; rfl)⟩

/-! ## Jumps and ports -/

/-- A jump raises nothing exactly when its target is an even address of program memory. -/
theorem jumpExc_eq_nil_iff (a : Word) : jumpExc a = [] ↔ IsAligned a ∧ a.toNat < 0x8000 := by
  rw [← isOdd_eq_false_iff, jumpExc, topBit_eq]
  cases isOdd a <;> by_cases h : 0x8000 ≤ a.toNat <;> (simp [h]; try omega)

/-- The EXR bits of a jump's exceptions. -/
theorem excBits_jumpExc (a : Word) : excBits (jumpExc a) = jumpBits a := by
  rw [jumpExc, jumpBits, topBit_eq, isOdd_eq]
  by_cases h1 : a.toNat % 2 = 1 <;> by_cases h : 0x8000 ≤ a.toNat <;> simp [h, h1, excBits, Exc.code]

/-- The port of SWFT is the RD field itself. -/
@[simp] theorem swftPort_field (rd : RegNum) (v : Word) : swftPort Config.swftPortFromReg rd v = rd := rfl

end Sys2Proof.Machine
end

