-- ==== Sys2Proof/Laws/Exec.lean ====
section
/-!
SUPPORT. What an instruction can do to the machine as a whole, said once for all instructions but WAIT, KILL and
INIT: it is a local step. The laws a local step keeps are those the invariant of Sys2Proof/Safety.lean and the
protection of program memory are made of.
-/

namespace Sys2Proof.Machine

/-! ## One thread -/

/-- The private laws of a thread hold after a change if they held before it. -/
structure Thread.Keeps (th th' : Thread) : Prop where
  r0 : (th.debug = false → th.readReg 0 = 0) → th'.debug = false → th'.readReg 0 = 0
  flag0 : th.flag.getLsbD 0 = true → th'.flag.getLsbD 0 = true
  exr : th.exr.extractLsb' 5 11 = 0 → th'.exr.extractLsb' 5 11 = 0

namespace Thread

theorem Keeps.refl (th : Thread) : th.Keeps th := ⟨id, id, id⟩

theorem Keeps.trans {a b c : Thread} (h : a.Keeps b) (h' : b.Keeps c) : a.Keeps c :=
  ⟨fun x => h'.r0 (h.r0 x), fun x => h'.flag0 (h.flag0 x), fun x => h'.exr (h.exr x)⟩

/-- A change that leaves registers, FLAG, EXR and DEBUG keeps the laws. -/
theorem Keeps.of_eq {th th' : Thread} (hr : th'.regs = th.regs) (hf : th'.flag = th.flag)
    (he : th'.exr = th.exr) (hd : th'.debug = th.debug) : th.Keeps th' :=
  ⟨fun h d => by rw [readReg, hr]; exact h (hd ▸ d), fun h => by rw [hf]; exact h, fun h => by rw [he]; exact h⟩

theorem keeps_writeReg (th : Thread) (r : RegNum) (v : Word) : th.Keeps (th.writeReg r v) := by
  refine ⟨fun h d => ?_, id, id⟩
  rw [readReg_writeReg, if_neg]
  · exact h d
  · rintro ⟨rfl, hw⟩
    rw [writable_iff] at hw
    rcases hw with hw | hw
    · exact hw rfl
    · exact absurd (hw.symm.trans d) (by decide)

theorem keeps_writeFlag (th : Thread) (i : FlagNum) (b : Bool) : th.Keeps (th.writeFlag i b) := by
  refine ⟨id, fun h => ?_, id⟩
  simp only [writeFlag]
  by_cases hi : i = 0
  · rw [if_pos hi]; exact h
  · rw [if_neg hi]
    have := getLsbD_setBit th.flag i 0 b
    rw [if_neg (Ne.symm hi)] at this
    exact this.trans h

theorem keeps_advance (th : Thread) : th.Keeps th.advance := Keeps.of_eq rfl rfl rfl rfl

theorem keeps_jumpTo (th : Thread) (a : Word) : th.Keeps (th.jumpTo a) := Keeps.of_eq rfl rfl rfl rfl

theorem keeps_writeAlu (th : Thread) (rd : RegNum) (r : AluOut) : th.Keeps (th.writeAlu rd r) := by
  obtain ⟨v, f6, f7⟩ := r
  have h := ((th.keeps_writeReg rd v).trans (keeps_writeFlag _ 6 f6))
  cases f7 with
  | none => exact h
  | some b => exact h.trans (keeps_writeFlag _ 7 b)

theorem keeps_stepReg (th : Thread) (ra : RegNum) (d : Option Word) : th.Keeps (th.stepReg ra d) := by
  cases d with
  | none => exact Keeps.refl _
  | some d => exact keeps_writeReg _ _ _

theorem keeps_putFlags (th : Thread) (v : Byte) : th.Keeps (th.putFlags v) :=
  ⟨id, fun _ => by simp [putFlags], id⟩

/-- The EXR bits of exceptions are bits 0 to 4 (R28, R301). -/
theorem excBits_reserved (es : List Exc) : (excBits es).extractLsb' 5 11 = 0 := by
  apply BitVec.eq_of_getLsbD_eq
  intro i hi
  rw [BitVec.getLsbD_extractLsb']
  simp only [hi, decide_true, Bool.true_and, BitVec.ofNat_eq_ofNat, BitVec.getLsbD_zero]
  rw [← Bool.not_eq_true, getLsbD_excBits]
  rintro ⟨e, -, he⟩
  cases e <;> simp only [Exc.code] at he <;> omega

theorem keeps_enterException (t : Tid) (es : List Exc) (th : Thread) :
    th.Keeps (enterException t es th) := by
  refine ⟨fun _ d => absurd d (by simp [enterException]), id, fun h => ?_⟩
  simp only [enterException, BitVec.extractLsb'_or, h, excBits_reserved]
  rfl

theorem keeps_enterInterrupt (t : Tid) (isr : Word) (th : Thread) : th.Keeps (enterInterrupt t isr th) :=
  ⟨fun _ d => absurd d (by simp [enterInterrupt]), id, id⟩

end Thread

/-! ## Local steps -/

/-- What every instruction but WAIT, KILL and INIT does to the machine: the other threads, TAR, WAIT_REG, WS,
the requests, the activation and the schedule stay, and each law of the machine is kept. -/
structure LocalStep (s t : State) : Prop where
  others : ∀ u : Tid, u ≠ s.turn → t.thread u = s.thread u
  shared : t.tar = s.tar ∧ t.wr = s.wr ∧ t.ws = s.ws ∧ t.irq = s.irq ∧ t.activation = s.activation ∧
    t.turn = s.turn ∧ t.inputs = s.inputs ∧ t.freeTicks = s.freeTicks
  own : s.cur.Keeps (t.thread s.turn)
  memory : Memory.wf s.mem = true → Memory.wf t.mem = true
  protection : ProtectedStep s t
  queues : QueueRule s → QueueRule t
  video : VideoRule s → VideoRule t

/-- A change of the executing thread alone is a local step. -/
theorem localStep_updCur (s : State) (f : Thread → Thread) (h : s.cur.Keeps (f s.cur)) :
    LocalStep s (s.updCur f) where
  others u hu := by rw [State.thread_updCur, if_neg hu]
  shared := ⟨rfl, rfl, rfl, rfl, rfl, rfl, rfl, rfl⟩
  own := by rw [State.thread_updCur, if_pos rfl]; exact h
  memory := id
  protection _ _ hn := absurd rfl hn
  queues := id
  video := id

theorem LocalStep.trans {s t u : State} (h : LocalStep s t) (h' : LocalStep t u) (hpc : t.cur.pc = s.cur.pc) :
    LocalStep s u := by
  have ht := h.shared
  have hu := h'.shared
  refine ⟨fun v hv => ?_, ?_, ?_, fun m => h'.memory (h.memory m), fun a ha hn => ?_,
    fun q => h'.queues (h.queues q), fun q => h'.video (h.video q)⟩
  · rw [h'.others v (by rw [ht.2.2.2.2.2.1]; exact hv), h.others v hv]
  · exact ⟨hu.1.trans ht.1, hu.2.1.trans ht.2.1, hu.2.2.1.trans ht.2.2.1, hu.2.2.2.1.trans ht.2.2.2.1,
      hu.2.2.2.2.1.trans ht.2.2.2.2.1, hu.2.2.2.2.2.1.trans ht.2.2.2.2.2.1,
      hu.2.2.2.2.2.2.1.trans ht.2.2.2.2.2.2.1, hu.2.2.2.2.2.2.2.trans ht.2.2.2.2.2.2.2⟩
  · have := h'.own
    rw [State.cur, ht.2.2.2.2.2.1] at this
    exact h.own.trans this
  · by_cases hb : Memory.readByte t.mem a = Memory.readByte s.mem a
    · have := h'.protection a ha (by rw [hb]; exact hn)
      rw [hpc] at this
      exact this
    · exact h.protection a ha hb

theorem LocalStep.refl (s : State) : LocalStep s s :=
  ⟨fun _ _ => rfl, ⟨rfl, rfl, rfl, rfl, rfl, rfl, rfl, rfl⟩, Thread.Keeps.refl _, id, fun _ _ h => absurd rfl h,
    id, id⟩

/-- A permitted aligned store is a local step. -/
theorem localStep_storeWord (s : State) (a v : Word) (ha : IsAligned a) (hp : StorePermitted s.cur.pc a) :
    LocalStep s (s.storeWord a v) where
  others _ _ := rfl
  shared := ⟨rfl, rfl, rfl, rfl, rfl, rfl, rfl, rfl⟩
  own := Thread.Keeps.refl _
  memory := Memory.wf_writeWord a v
  protection b hb hn := by
    have hw := wordBase_of_even ((isOdd_eq_false_iff a).mpr ha)
    have : b = a.toNat ∨ b = a.toNat + 1 := by
      by_contra hne
      push Not at hne
      exact hn ((s.storeWord_stored v ha).2 b hne.1 hne.2)
    unfold IsAligned at ha
    unfold StorePermitted at hp
    omega
  queues := id
  video := id

theorem localStep_portWrite (s : State) (p : Port) (v : Word) : LocalStep s (s.portWrite p v) where
  others _ _ := rfl
  shared := ⟨rfl, rfl, rfl, rfl, rfl, rfl, rfl, rfl⟩
  own := Thread.Keeps.refl _
  memory := id
  protection _ _ hn := absurd rfl hn
  queues h q := by
    refine ⟨?_, (h q).2⟩
    rw [(s.portWrite_appended p v q).1]
    have := (h q).1
    split
    · rw [List.length_append, List.length_singleton, Config.outQueueDepth]; omega
    · exact this
  video := id

theorem localStep_vramWrite (s : State) (sel : BitVec 2) (off v : Word) (h : sel = 1 ∨ sel = 2) :
    LocalStep s (s.vramWrite sel off v) where
  others _ _ := rfl
  shared := ⟨rfl, rfl, rfl, rfl, rfl, rfl, rfl, rfl⟩
  own := Thread.Keeps.refl _
  memory := id
  protection _ _ hn := absurd rfl hn
  queues := id
  video hv w hw := by
    simp only [State.vramWrite, List.mem_append, List.mem_singleton] at hw
    rcases hw with hw | rfl
    · exact hv w hw
    · exact h

theorem localStep_portRead {s t : State} {p : Port} {v : Word} (h : s.portRead p = some (v, t)) :
    LocalStep s t := by
  unfold State.portRead at h
  split at h
  · cases h
  · rename_i v' rest hq
    cases h
    refine ⟨fun _ _ => rfl, ⟨rfl, rfl, rfl, rfl, rfl, rfl, rfl, rfl⟩, Thread.Keeps.refl _, id,
      fun _ _ hn => absurd rfl hn, fun hq' q => ⟨(hq' q).1, ?_⟩, id⟩
    have h1 := (hq' q).2
    by_cases hqp : q = p
    · subst hqp
      rw [hq] at h1
      simp only [List.length_cons] at h1
      simp; omega
    · simpa [Fin.val_inj, Ne.symm hqp] using h1

theorem localStep_raise (s : State) (es : List Exc) : LocalStep s (s.raise es) :=
  localStep_updCur s _ (Thread.keeps_enterException _ _ _)

/-- `retire` after a local step that kept the turn, the executing thread and its pc. -/
theorem localStep_retire {s s₁ t : State} {f : Thread → Thread} (h : LocalStep s s₁) (hpc : s₁.cur.pc = s.cur.pc)
    (hf : s₁.cur.Keeps (f s₁.cur)) (ht : s₁.retire f = .next t) : LocalStep s t := by
  cases ht
  exact h.trans (localStep_updCur s₁ _ (hf.trans (Thread.keeps_advance _))) hpc

theorem localStep_guarded {s t : State} {es : List Exc} {go : Result} (h : s.guarded es go = .next t)
    (hgo : es = [] → go = .next t → LocalStep s t) : LocalStep s t := by
  rcases State.guarded_next h with ⟨he, hg⟩ | ⟨-, rfl⟩
  · exact hgo he hg
  · exact localStep_raise s es

theorem localStep_retireReg {s t : State} {rd : RegNum} {v : Word} (h : s.retireReg rd v = .next t) :
    LocalStep s t :=
  localStep_retire (LocalStep.refl s) rfl (Thread.keeps_writeReg _ _ _) h

theorem localStep_retireAlu {s t : State} {rd : RegNum} {r : AluOut} (h : s.retireAlu rd r = .next t) :
    LocalStep s t :=
  localStep_retire (LocalStep.refl s) rfl (Thread.keeps_writeAlu _ _ _) h

theorem localStep_compareWords {s t : State} {rel : Rel} {ra rb : RegNum} {cb : FlagNum}
    (h : s.compareWords rel ra rb cb = .next t) : LocalStep s t :=
  localStep_retire (LocalStep.refl s) rfl (Thread.keeps_writeFlag _ _ _) h

theorem localStep_compareLanes {s t : State} {rel : Rel} {ra rb : RegNum} {cb : FlagNum}
    (h : s.compareLanes rel ra rb cb = .next t) : LocalStep s t := by
  refine localStep_retire (LocalStep.refl s) rfl ?_ h
  split
  · exact Thread.keeps_writeFlag _ _ _
  · exact (Thread.keeps_writeFlag _ _ _).trans (Thread.keeps_writeFlag _ _ _)

theorem localStep_load {s t : State} {step : Option Word} {ra rd : RegNum} (h : s.load step ra rd = .next t) :
    LocalStep s t := by
  refine localStep_guarded h fun _ hg => ?_
  split at hg
  · cases hg
  · exact localStep_retire (LocalStep.refl s) rfl
      ((Thread.keeps_stepReg _ _ _).trans (Thread.keeps_writeReg _ _ _)) hg

theorem localStep_store {s t : State} {step : Option Word} {ra rb : RegNum} (h : s.store step ra rb = .next t) :
    LocalStep s t := by
  refine localStep_guarded h fun he hg => ?_
  have hp := (storeExc_eq_nil_iff _ _).mp he
  exact localStep_retire (localStep_storeWord s _ _ hp.1 hp.2) rfl (Thread.keeps_stepReg _ _ _) hg

theorem localStep_videoStore {s t : State} {step : Option Word} {ra rb rd : RegNum}
    (h : s.videoStore step ra rb rd = .next t) : LocalStep s t := by
  unfold State.videoStore at h
  simp only at h
  split at h
  · exact localStep_retire (LocalStep.refl s) rfl (Thread.keeps_stepReg _ _ _) h
  · split at h
    · rename_i hsel
      refine localStep_retire (localStep_vramWrite s _ _ _ ?_) rfl (Thread.keeps_stepReg _ _ _) h
      rcases hsel with hs | hs <;> rw [hs]
      · exact .inl rfl
      · exact .inr rfl
    · cases h

theorem localStep_jump {s t : State} {cb : FlagNum} {link : Bool} {target : Word}
    (h : s.jump cb link target = .next t) : LocalStep s t := by
  unfold State.jump at h
  split at h
  · refine localStep_guarded h fun _ hg => ?_
    cases hg
    refine localStep_updCur s _ ?_
    split
    · exact (Thread.keeps_writeReg _ _ _).trans (Thread.keeps_jumpTo _ _)
    · exact Thread.keeps_jumpTo _ _
  · split at h
    · exact localStep_retire (LocalStep.refl s) rfl (Thread.keeps_writeReg _ _ _) h
    · exact localStep_retire (LocalStep.refl s) rfl (Thread.Keeps.refl _) h

/-- Every instruction but WAIT, KILL and INIT is a local step. -/
theorem exec_local {i : Instr} {s t : State} (h : exec i s = .next t) (hw : ∀ m p, i ≠ .wait m p)
    (hk : i ≠ .kill) (hi : ∀ r u, i ≠ .init r u) : LocalStep s t := by
  cases i with
  | add8 | add16 | sub8 | sub16 | avg8 | avg16 | savg8 | savg16 | addi8 | addi16 | subi8 | subi16
  | macLo | macHi | mulLo | mulHi => exact localStep_retireAlu h
  | rsl8 | rsl16 | rsa8 | rsa16 | lsl8 | lsl16 | rot8 | rot16
  | mixLo | mixHi | muxLo | muxHi | andW | orW | xorW | notW | copyLo | copyHi | swap | liHi | liLo
  | getFlag | getSpr1 | getSpr2 | getWaitReg | getTar | getWs | getIntr | getThread =>
    exact localStep_retireReg h
  | cmpEq16 | cmpNe16 | cmpGt16 | cmpGe16 | cmpLt16 | cmpLe16 => exact localStep_compareWords h
  | cmpEq8 | cmpNe8 | cmpGt8 | cmpGe8 | cmpLt8 | cmpLe8 => exact localStep_compareLanes h
  | lw | lwi | lwd => exact localStep_load h
  | sw | swi | swd => exact localStep_store h
  | swsg | swsgi | swsgd => exact localStep_videoStore h
  | jmpr | jalr | jmpi | jali => exact localStep_jump h
  | swft ra rb rd =>
    refine localStep_guarded (es := storeExc s.cur.pc (s.reg ra)) h fun he hg => ?_
    have hp := (storeExc_eq_nil_iff _ _).mp he
    exact localStep_retire ((localStep_storeWord s _ _ hp.1 hp.2).trans (localStep_portWrite _ _ _) rfl) rfl
      (Thread.keeps_writeFlag _ _ _) hg
  | read p cb rd =>
    change (match s.portRead p with
      | some (v, s') => s'.retire fun th => (th.writeReg rd v).writeFlag cb true
      | none => s.retire fun th => th.writeFlag cb false) = .next t at h
    split at h
    · rename_i v s' hp
      have hl := localStep_portRead hp
      have hc : s'.cur = s.cur := by
        unfold State.portRead at hp
        split at hp
        · cases hp
        · cases hp; rfl
      exact localStep_retire hl (by rw [hc]) ((Thread.keeps_writeReg _ _ _).trans (Thread.keeps_writeFlag _ _ _)) h
    · exact localStep_retire (LocalStep.refl s) rfl (Thread.keeps_writeFlag _ _ _) h
  | write p cb rd => exact localStep_retire (localStep_portWrite s _ _) rfl (Thread.keeps_writeFlag _ _ _) h
  | jmpSpr1 =>
    refine localStep_guarded (es := returnExc s.cur.imask) h fun _ hg => ?_
    cases hg
    exact localStep_updCur s _ (Thread.Keeps.of_eq rfl rfl rfl rfl)
  | getExr rd =>
    exact localStep_retire (LocalStep.refl s) rfl
      ((Thread.keeps_writeReg _ rd s.cur.exr).trans ⟨id, id, fun _ => by
        show (0#16).extractLsb' 5 11 = 0
        decide⟩) h
  | putFlag ra => exact localStep_retire (LocalStep.refl s) rfl (Thread.keeps_putFlags _ _) h
  | putSpr1 ra => exact localStep_retire (LocalStep.refl s) rfl (Thread.Keeps.of_eq rfl rfl rfl rfl) h
  | putDebug b =>
    have hk : ∀ th : Thread, th.Keeps { th with debug := b, regs := if b then th.regs else th.regs.set 0 0 } := by
      refine fun th => ⟨fun _ d => ?_, id, id⟩
      have hb : b = false := d
      subst hb
      simp [Thread.readReg]
    exact localStep_retire (LocalStep.refl s) rfl (hk s.cur) h
  | putIntrMask b => exact localStep_retire (LocalStep.refl s) rfl (Thread.Keeps.of_eq rfl rfl rfl rfl) h
  | nop => exact localStep_retire (LocalStep.refl s) rfl (Thread.Keeps.refl _) h
  | wait m p => exact absurd rfl (hw m p)
  | kill => exact absurd rfl hk
  | init r u => exact absurd rfl (hi r u)

end Sys2Proof.Machine
end

