-- ==== Sys2Proof/Laws/Threads.lean ====
section
/-!
SUPPORT. What WAIT, KILL and INIT do, each said once (spec/47_thread.md).
-/

namespace Sys2Proof.Machine

/-! ## Sets of threads as four bits -/

theorem clearBit_eq_zero_iff (m : BitVec 4) (t : Tid) :
    clearBit m t = 0 ↔ ∀ u : Tid, m.getLsbD u = true → u = t := by
  revert m t; decide

theorem waitExc_eq_nil_iff (tar mask : BitVec 4) :
    waitExc tar mask = [] ↔ ∀ u : Tid, mask.getLsbD u = true → tar.getLsbD u = true := by
  have h : ∀ tar mask : BitVec 4,
      mask &&& ~~~tar = 0 ↔ ∀ u : Tid, mask.getLsbD u = true → tar.getLsbD u = true := by decide
  rw [← h, waitExc]
  split <;> simp_all

theorem mask_eq_iff (m n : BitVec 4) : m = n ↔ ∀ u : Tid, m.getLsbD u = n.getLsbD u := by
  revert m n; decide

/-- The mask of the barrier in progress at a point: awaited and stalled threads (R227). -/
theorem getLsbD_barrierMask (s : State) (p : Point) (u : Tid) :
    (s.wr[p] ||| s.stalledMask p).getLsbD u = ((s.wr[p]).getLsbD u || s.stalledAt p u) := by
  rw [BitVec.getLsbD_or, State.stalledMask, getLsbD_maskOf]

/-! ## WAIT (R227) -/

/-- Everything a WAIT can do when it answers a next state: it raises, falls through alone, stalls first, stalls
later, or releases. -/
theorem execWait_cases {m : BitVec 4} {p : Point} {s t : State} (h : execWait m p s = .next t) :
    (waitExc s.tar m ≠ [] ∧ t = s.raise (waitExc s.tar m)) ∨
    (waitExc s.tar m = [] ∧ m.getLsbD s.turn = true ∧
      ((s.wr[p] = 0 ∧ clearBit m s.turn = 0 ∧ t = s.updCur fun th => th.advance) ∨
       (s.wr[p] = 0 ∧ clearBit m s.turn ≠ 0 ∧ t = (s.setRow p (clearBit m s.turn)).stallAt p) ∨
       ((s.wr[p]).getLsbD s.turn = true ∧ m = s.wr[p] ||| s.stalledMask p ∧
         clearBit s.wr[p] s.turn = 0 ∧ t = s.release p) ∨
       ((s.wr[p]).getLsbD s.turn = true ∧ m = s.wr[p] ||| s.stalledMask p ∧
         clearBit s.wr[p] s.turn ≠ 0 ∧ t = (s.setRow p (clearBit s.wr[p] s.turn)).stallAt p))) := by
  rcases State.guarded_next h with ⟨he, hg⟩ | hr
  · right
    refine ⟨he, ?_⟩
    split at hg
    · cases hg
    · rename_i hm
      rw [Bool.not_eq_false] at hm
      refine ⟨hm, ?_⟩
      split at hg
      · rename_i h0
        unfold State.arriveFirst at hg
        split at hg
        · rename_i hc
          cases hg
          exact .inl ⟨h0, hc, rfl⟩
        · rename_i hc
          cases hg
          exact .inr (.inl ⟨h0, hc, rfl⟩)
      · split at hg
        · cases hg
        · rename_i hb
          push Not at hb
          rw [Bool.ne_false_iff] at hb
          unfold State.arriveLater at hg
          split at hg
          · rename_i hc
            cases hg
            exact .inr (.inr (.inl ⟨hb.1, hb.2, hc, rfl⟩))
          · rename_i hc
            cases hg
            exact .inr (.inr (.inr ⟨hb.1, hb.2, hc, rfl⟩))
  · exact .inl hr

/-- The rows of WAIT_REG after one is replaced. -/
theorem State.wr_setRow (s : State) (p q : Point) (m : BitVec 4) :
    (s.setRow p m).wr[q] = if q = p then m else s.wr[q] := by
  simp only [State.setRow]
  by_cases h : q = p
  · subst h; simp
  · simp [h, Fin.val_inj, Ne.symm h]

/-- The rows of WS after the executing thread stalls. -/
theorem State.ws_stallAt (s : State) (p : Point) (u : Tid) :
    (s.stallAt p).ws[u] = if u = s.turn then ⟨true, p⟩ else s.ws[u] := by
  simp only [State.stallAt]
  by_cases h : u = s.turn
  · subst h; simp
  · simp [h, Fin.val_inj, Ne.symm h]

/-- A thread that arrives and stalls: its row awaits the others, and nothing but WAIT_REG and WS changes. -/
theorem State.stalls (s : State) (p : Point) (m : BitVec 4) :
    Stalls s ((s.setRow p (clearBit m s.turn)).stallAt p) p (fun u => m.getLsbD u && u != s.turn) := by
  refine ⟨rfl, fun _ => rfl, fun q u => ?_, fun u => State.ws_stallAt _ p u⟩
  show ((s.setRow p (clearBit m s.turn)).wr[q]).getLsbD u = _
  rw [State.wr_setRow]
  split
  · exact getLsbD_clearBit m s.turn u
  · rfl

theorem State.thread_release (s : State) (p : Point) (u : Tid) :
    (s.release p).thread u =
      if s.stalledAt p u = true ∨ u = s.turn then { s.thread u with pc := (s.thread u).pc + 2 }
      else s.thread u := by
  simp only [State.release, State.thread, Fin.getElem_fin, Vector.getElem_ofFn, Fin.eta, Bool.or_eq_true,
    beq_iff_eq]
  rfl

theorem State.ws_release (s : State) (p : Point) (u : Tid) :
    (s.release p).ws[u] = if s.stalledAt p u then ⟨false, p⟩ else s.ws[u] := by
  simp only [State.release, Fin.getElem_fin, Vector.getElem_ofFn, Fin.eta]
  split
  · rename_i h
    simp only [State.stalledAt, Bool.and_eq_true, beq_iff_eq] at h
    rw [← h.2]; rfl
  · rfl

theorem State.wr_release (s : State) (p q : Point) : (s.release p).wr[q] = if q = p then 0 else s.wr[q] := by
  simp only [State.release]
  by_cases h : q = p
  · subst h; simp
  · simp [h, Fin.val_inj, Ne.symm h]

/-! ## KILL (R230, R231) -/

theorem State.awaits_eq_true_iff (s : State) (n m : Tid) : s.awaits n m = true ↔ WaitsFor s n m := by
  simp [State.awaits, State.stalled, WaitsFor]

theorem State.thread_deliver (s : State) (m u : Tid) :
    (s.deliverIllegalWait m).thread u =
      if s.awaits u m then Thread.enterException u [.illegalWait] (s.thread u) else s.thread u := by
  simp only [State.deliverIllegalWait, State.thread, Fin.getElem_fin, Vector.getElem_ofFn, Fin.eta]

theorem State.ws_deliver (s : State) (m u : Tid) :
    (s.deliverIllegalWait m).ws[u] = if s.awaits u m then ⟨false, (s.ws[u]).s⟩ else s.ws[u] := by
  simp only [State.deliverIllegalWait, Fin.getElem_fin, Vector.getElem_ofFn, Fin.eta]

theorem State.wr_deliver (s : State) (m : Tid) (p : Point) :
    (s.deliverIllegalWait m).wr[p] = if (s.wr[p]).getLsbD m then 0 else s.wr[p] := by
  simp only [State.deliverIllegalWait, Fin.getElem_fin, Vector.getElem_ofFn]

theorem State.exec_kill (s : State) :
    execKill s = .next { s.deliverIllegalWait s.turn with tar := clearBit s.tar s.turn } := rfl

/-! ## INIT (R235) -/

/-- Everything an INIT can do when it answers a next state: it raises INIT_THREAD, or it loads the target's pc
and leaves the activation pending. -/
theorem execInit_cases {ra : RegNum} {u : Tid} {s t : State} (h : execInit ra u s = .next t) :
    (s.active u = true ∧ t = s.raise [.initThread]) ∨
    (s.active u = false ∧ s.activation = none ∧ (s.startThread u (s.reg ra)).retire id = .next t) := by
  rcases State.guarded_next h with ⟨he, hg⟩ | ⟨he, rfl⟩
  · right
    have ha : s.active u = false := by
      cases hu : s.active u with
      | false => rfl
      | true => rw [hu] at he; exact absurd he (by decide)
    refine ⟨ha, ?_⟩
    cases hact : s.activation with
    | none => rw [hact] at hg; exact ⟨rfl, hg⟩
    | some a => rw [hact] at hg; cases hg
  · left
    cases hu : s.active u with
    | false => rw [hu] at he; exact absurd rfl he
    | true => exact ⟨rfl, rfl⟩

end Sys2Proof.Machine
end

