-- ==== Sys2Proof/Laws/Cycle.lean ====
section
/-!
SUPPORT. What surrounds an instruction in a clock cycle, each part said once, and the inversion of a step.
-/

namespace Sys2Proof.Machine

/-! ## Devices and activation -/

/-- A device move changes the queues and the requests only. -/
theorem State.deviceMove_eq (s : State) (m : DeviceMove) :
    s.deviceMove m = { s with
      inq := (s.deviceMove m).inq, outq := (s.deviceMove m).outq, taken := (s.deviceMove m).taken,
      irq := (s.deviceMove m).irq } := by
  cases m <;> rfl

theorem State.deviceMoves_eq (s : State) (ms : List DeviceMove) :
    s.deviceMoves ms = { s with
      inq := (s.deviceMoves ms).inq, outq := (s.deviceMoves ms).outq, taken := (s.deviceMoves ms).taken,
      irq := (s.deviceMoves ms).irq } := by
  induction ms generalizing s with
  | nil => rfl
  | cons m ms ih =>
    rw [State.deviceMoves, ih, State.deviceMove_eq s m]

theorem State.inq_offer (s : State) (p : Port) (v : Word) :
    (s.deviceMove (.offer p v)).inq =
      if (s.inq[p]).length < Config.inQueueDepth then s.inq.set p (s.inq[p] ++ [v]) else s.inq := rfl

theorem State.outq_drain (s : State) (p : Port) :
    (s.deviceMove (.drain p)).outq = s.outq.set p (s.outq[p]).tail := rfl

/-- No device move changes what an output port has received. -/
theorem State.portReceived_deviceMove (s : State) (m : DeviceMove) (q : Port) :
    (s.deviceMove m).portReceived q = s.portReceived q := by
  cases m with
  | offer p v => rfl
  | request u isr => rfl
  | drain p =>
    simp only [State.portReceived, State.deviceMove]
    by_cases hq : q = p
    · subst hq
      simp [List.append_assoc, ← List.drop_one, List.take_append_drop]
    · simp [Fin.val_inj, Ne.symm hq]

theorem State.portReceived_deviceMoves (s : State) (ms : List DeviceMove) (q : Port) :
    (s.deviceMoves ms).portReceived q = s.portReceived q := by
  induction ms generalizing s with
  | nil => rfl
  | cons m ms ih => rw [State.deviceMoves, ih, State.portReceived_deviceMove]

theorem State.irq_request (s : State) (u : Tid) (isr : Word) :
    (s.deviceMove (.request u isr)).irq = if (s.irq[u]).isNone then s.irq.set u (some isr) else s.irq := rfl

/-- A device move keeps the depths of the queues. -/
theorem State.deviceMove_queues {s : State} (m : DeviceMove) (h : QueueRule s) : QueueRule (s.deviceMove m) := by
  intro q
  obtain ⟨h1, h2⟩ := h q
  cases m with
  | offer p v =>
    refine ⟨h1, ?_⟩
    rw [State.inq_offer]
    by_cases hr : (s.inq[p]).length < Config.inQueueDepth
    · rw [if_pos hr]
      by_cases hq : q = p
      · subst hq
        simp only [Fin.getElem_fin, Vector.getElem_set_self, List.length_append, List.length_singleton]
        exact hr
      · simpa [Fin.val_inj, Ne.symm hq] using h2
    · rw [if_neg hr]; exact h2
  | drain p =>
    refine ⟨?_, h2⟩
    rw [State.outq_drain]
    by_cases hq : q = p
    · subst hq
      simp only [Fin.getElem_fin, Vector.getElem_set_self, List.length_tail]
      exact (Nat.sub_le _ _).trans h1
    · simpa [Fin.val_inj, Ne.symm hq] using h1
  | request u isr => exact ⟨h1, h2⟩

theorem State.deviceMoves_queues {s : State} (ms : List DeviceMove) (h : QueueRule s) :
    QueueRule (s.deviceMoves ms) := by
  induction ms generalizing s with
  | nil => exact h
  | cons m ms ih => exact ih (State.deviceMove_queues m h)

/-- The start of a cycle touches nothing of a thread, of memory, Video RAM, WAIT_REG, WS, the turn and the free
choices. -/
theorem State.beginCycle_same (s : State) :
    s.beginCycle.threads = s.threads ∧ s.beginCycle.mem = s.mem ∧ s.beginCycle.vram = s.vram ∧
    s.beginCycle.wr = s.wr ∧ s.beginCycle.ws = s.ws ∧ s.beginCycle.turn = s.turn ∧
    s.beginCycle.freeTicks = s.freeTicks := by
  have h := State.deviceMoves_eq s (s.inputs.headD [])
  have ht : s.takeInputs = { s with
      inq := s.takeInputs.inq, outq := s.takeInputs.outq, taken := s.takeInputs.taken, irq := s.takeInputs.irq,
      inputs := s.inputs.tail } := by
    simp only [State.takeInputs]
    rw [h]
  simp only [State.beginCycle, State.activate, State.completeActivation]
  rw [ht]
  split
  · split <;> exact ⟨rfl, rfl, rfl, rfl, rfl, rfl, rfl⟩
  · exact ⟨rfl, rfl, rfl, rfl, rfl, rfl, rfl⟩

/-- TAR and the pending activation after the start of a cycle (R236): the activation completes exactly when the
cycle is its initiator's. -/
theorem State.beginCycle_activation (s : State) :
    (∃ a, s.activation = some a ∧ a.initiator = s.turn ∧ s.beginCycle.tar = withBit s.tar a.target ∧
      s.beginCycle.activation = none) ∨
    ((∀ a, s.activation = some a → a.initiator ≠ s.turn) ∧ s.beginCycle.tar = s.tar ∧
      s.beginCycle.activation = s.activation) := by
  have h := State.deviceMoves_eq s (s.inputs.headD [])
  have ht : s.takeInputs = { s with
      inq := s.takeInputs.inq, outq := s.takeInputs.outq, taken := s.takeInputs.taken, irq := s.takeInputs.irq,
      inputs := s.inputs.tail } := by
    simp only [State.takeInputs]
    rw [h]
  simp only [State.beginCycle, State.activate, State.activationDue, State.completeActivation]
  rw [ht]
  cases hact : s.activation with
  | none => right; simp
  | some a =>
    by_cases hi : a.initiator = s.turn
    · left; exact ⟨a, rfl, hi, by simp [hi]⟩
    · right; simp [hi]

theorem State.beginCycle_queues {s : State} (h : QueueRule s) : QueueRule s.beginCycle := by
  have h1 : QueueRule s.takeInputs := State.deviceMoves_queues (s.inputs.headD []) h
  simp only [State.beginCycle, State.activate, State.completeActivation]
  split
  · split <;> exact h1
  · exact h1

/-- Nor does the start of a cycle change what an output port has received. -/
theorem State.portReceived_beginCycle (s : State) (q : Port) : s.beginCycle.portReceived q = s.portReceived q := by
  have h : s.takeInputs.portReceived q = s.portReceived q := s.portReceived_deviceMoves _ q
  simp only [State.beginCycle, State.activate, State.completeActivation]
  split
  · split <;> exact h
  · exact h

theorem State.thread_beginCycle (s : State) (u : Tid) : s.beginCycle.thread u = s.thread u := by
  rw [State.thread, s.beginCycle_same.1, State.thread]

theorem State.turn_beginCycle (s : State) : s.beginCycle.turn = s.turn := s.beginCycle_same.2.2.2.2.2.1

theorem State.mem_beginCycle (s : State) : s.beginCycle.mem = s.mem := s.beginCycle_same.2.1

theorem State.cur_beginCycle (s : State) : s.beginCycle.cur = s.cur := by
  rw [State.cur, State.thread_beginCycle, State.turn_beginCycle, ← State.cur]

/-! ## Fetch and boundary -/

/-- The fetch of an aligned pc in program memory is the word there (R72). -/
theorem State.fetch_eq_ok_iff (s : State) (w : Word) :
    s.fetch = .ok w ↔ IsAligned s.cur.pc ∧ s.cur.pc.toNat < 0x8000 ∧ s.loadWord s.cur.pc = w := by
  rw [← isOdd_eq_false_iff, State.fetch, topBit_eq]
  cases isOdd s.cur.pc
  · by_cases h : 0x8000 ≤ s.cur.pc.toNat
    · simp [h]
    · simp [h, Nat.lt_of_not_le h]
  · simp

/-- Everything an interrupt boundary can do (R312, R315): nothing, only make the free choice, or enter. -/
theorem State.boundary_cases (s : State) (i : Instr) :
    s.boundary i = s ∨ s.boundary i = { s with freeTicks := s.freeTicks + 1 } ∨
    ∃ isr, s.irq[s.turn] = some isr ∧ s.boundaryOpen i = true ∧
      s.boundary i = State.takeInterrupt { s with freeTicks := s.freeTicks + 1 } isr := by
  unfold State.boundary
  cases h : s.irq[s.turn] with
  | none => exact .inl rfl
  | some isr =>
    cases ho : s.boundaryOpen i with
    | false => exact .inl rfl
    | true =>
      cases Config.interruptTaken s.freeTicks with
      | false => exact .inr (.inl rfl)
      | true => exact .inr (.inr ⟨isr, rfl, rfl, rfl⟩)

/-- A boundary changes nothing but its own thread, its request and the count of free choices. -/
theorem State.boundary_same (s : State) (i : Instr) :
    (s.boundary i).tar = s.tar ∧ (s.boundary i).wr = s.wr ∧ (s.boundary i).ws = s.ws ∧
    (s.boundary i).mem = s.mem ∧ (s.boundary i).inq = s.inq ∧ (s.boundary i).outq = s.outq ∧
    (s.boundary i).vram = s.vram ∧ (s.boundary i).activation = s.activation ∧
    (s.boundary i).turn = s.turn ∧ (s.boundary i).inputs = s.inputs ∧
    ∀ u : Tid, u ≠ s.turn → (s.boundary i).thread u = s.thread u := by
  rcases s.boundary_cases i with h | h | ⟨isr, -, -, h⟩ <;> rw [h]
  · exact ⟨rfl, rfl, rfl, rfl, rfl, rfl, rfl, rfl, rfl, rfl, fun _ _ => rfl⟩
  · exact ⟨rfl, rfl, rfl, rfl, rfl, rfl, rfl, rfl, rfl, rfl, fun _ _ => rfl⟩
  · refine ⟨rfl, rfl, rfl, rfl, rfl, rfl, rfl, rfl, rfl, rfl, fun u hu => ?_⟩
    show (State.updCur { s with freeTicks := s.freeTicks + 1 } (Thread.enterInterrupt s.turn isr)).thread u = _
    rw [State.thread_updCur, if_neg hu]
    rfl

/-- A boundary keeps the private laws of its thread. -/
theorem State.boundary_keeps (s : State) (i : Instr) :
    s.cur.Keeps ((s.boundary i).thread s.turn) := by
  rcases s.boundary_cases i with h | h | ⟨isr, -, -, h⟩ <;> rw [h]
  · exact Thread.Keeps.refl _
  · exact Thread.Keeps.refl _
  · have : (State.takeInterrupt { s with freeTicks := s.freeTicks + 1 } isr).thread s.turn =
        Thread.enterInterrupt s.turn isr s.cur := by
      show (State.updCur { s with freeTicks := s.freeTicks + 1 } (Thread.enterInterrupt s.turn isr)).thread
        s.turn = _
      exact State.thread_updCur_of_eq (s := s) (s₁ := { s with freeTicks := s.freeTicks + 1 }) _ rfl rfl
    rw [this]
    exact Thread.keeps_enterInterrupt _ _ _

/-! ## The step -/

/-- Everything a thread's turn can do when it answers a next state: raise ILLEGAL_INSTRUCTION, or execute an
instruction and pass its boundary. -/
theorem State.runTurn_cases {s t : State} (h : s.runTurn = .next t) :
    ∃ w, s.fetch = .ok w ∧
      ((∃ e, decodeWord w = .error e ∧ t = s.raise [.illegalInstruction]) ∨
       ∃ i s₁, decodeWord w = .ok i ∧ exec i s = .next s₁ ∧ t = s₁.boundary i) := by
  unfold State.runTurn at h
  cases hf : s.fetch with
  | error r => rw [hf] at h; cases h
  | ok w =>
    rw [hf] at h
    refine ⟨w, rfl, ?_⟩
    simp only at h
    cases hd : decodeWord w with
    | error e => rw [hd] at h; cases h; exact .inl ⟨e, rfl, rfl⟩
    | ok i =>
      rw [hd] at h
      obtain ⟨s₁, he, hn⟩ := onNext_next h
      cases hn
      exact .inr ⟨i, s₁, rfl, he, rfl⟩

/-- Everything a step can do when it answers a next state: the cycle passes, or the thread takes its turn; then
the rotation. -/
theorem step_cases {s s' : State} (h : step s = .next s') :
    (s.beginCycle.runnable s.turn = false ∧ s' = s.beginCycle.rotate) ∨
    (s.beginCycle.runnable s.turn = true ∧ ∃ t, s.beginCycle.runTurn = .next t ∧ s' = t.rotate) := by
  obtain ⟨t, ht, hr⟩ := onNext_next h
  cases hr
  unfold State.turnStep at ht
  rw [State.turn_beginCycle] at ht
  cases hrun : s.beginCycle.runnable s.turn with
  | false => rw [hrun] at ht; cases ht; exact .inl ⟨rfl, rfl⟩
  | true => rw [hrun] at ht; exact .inr ⟨rfl, t, ht, rfl⟩

/-- The instructions that hold off an interrupt, as a decision and as a proposition. -/
theorem holdsOff_iff (i : Instr) : holdsOff i = true ↔ HoldsOff i := by
  cases i <;> simp [holdsOff, HoldsOff]

end Sys2Proof.Machine
end

