-- ==== Sys2Proof/Laws/Decode.lean ====
section
/-!
SUPPORT. Laws of the decoder and the encoder: a word is its fields, the bits a row of the encoding table
fixes are those of the row's value, and what is left to show that a row decodes to its instruction.
-/

namespace Sys2Proof

open Machine (DecodesAs)

/-- Two bit strings side by side, as a number. -/
theorem append_toNat_add {n m : Nat} (x : BitVec n) (y : BitVec m) :
    (x ++ y).toNat = x.toNat * 2 ^ m + y.toNat := by
  rw [BitVec.toNat_append, Nat.shiftLeft_eq, Nat.mul_comm, ← Nat.two_pow_add_eq_or_of_lt y.isLt]

/-- A word made of fields, as a number. -/
theorem wordOf_toNat (f : Fields) :
    (wordOf f).toNat =
      f.op.toNat * 2048 + f.sub.toNat * 512 + f.a.toNat * 64 + f.b.toNat * 8 + f.d.toNat := by
  show (f.op ++ f.sub ++ f.a ++ f.b ++ f.d).toNat = _
  simp only [append_toNat_add]
  omega

/-- The fields of a word made of fields are those fields. -/
theorem fieldsOf_wordOf (f : Fields) : fieldsOf (wordOf f) = f := by
  have h := wordOf_toNat f
  obtain ⟨op, sub, a, b, d⟩ := f
  have := op.isLt; have := sub.isLt; have := a.isLt; have := b.isLt; have := d.isLt
  simp only [fieldsOf, Fields.mk.injEq]
  refine ⟨?_, ?_, ?_, ?_, ?_⟩ <;>
  · apply BitVec.eq_of_toNat_eq
    rw [BitVec.extractLsb'_toNat, Nat.shiftRight_eq_div_pow, h]
    simp only
    omega

/-- The word made of the fields of a word is that word. -/
theorem wordOf_fieldsOf (w : Word) : wordOf (fieldsOf w) = w := by
  apply BitVec.eq_of_toNat_eq
  have := w.isLt
  rw [wordOf_toNat]
  simp only [fieldsOf, BitVec.extractLsb'_toNat, Nat.shiftRight_eq_div_pow]
  omega

/-- The bits a row fixes are those of its value. -/
theorem extract_of_row {w mask value : Word} (start len : Nat) (h : w &&& mask = value)
    (hm : mask.extractLsb' start len = BitVec.allOnes len) :
    w.extractLsb' start len = value.extractLsb' start len := by
  rw [← h, BitVec.extractLsb'_and, hm, BitVec.and_allOnes]

/-- Every byte order decodes a word laid out in it alike, as the word itself decodes. -/
theorem decodeLaidOut_eq (o : ByteOrder) (nbits w : Nat) :
    decodeLaidOut o nbits w = (decodeWord (BitVec.ofNat 16 (w % 2 ^ nbits))).toOption := by
  simp only [decodeLaidOut, decodeBytes, Machine.wordOfBytes_bytesOfWord]
  cases decodeWord (BitVec.ofNat 16 (w % 2 ^ nbits)) <;> rfl

/-- A register, flag or port number survives its field. -/
@[simp] theorem regOf_numField (n : RegNum) : regOf (numField n) = n := rfl

@[simp] theorem flagOf_numField (n : FlagNum) : flagOf (numField n) = n := rfl

@[simp] theorem portOf_numField (n : Port) : portOf (numField n) = n := rfl

/-- The sub-op and the first two 3-bit fields side by side are bits 10:3 of the word, IMM8. -/
theorem imm8_of_fields (w : Word) :
    (w.extractLsb' 9 2 ++ w.extractLsb' 6 3 ++ w.extractLsb' 3 3 : BitVec 8) = w.extractLsb' 3 8 := by
  apply BitVec.eq_of_toNat_eq
  show (w.extractLsb' 9 2 ++ w.extractLsb' 6 3 ++ w.extractLsb' 3 3).toNat = _
  simp only [append_toNat_add, BitVec.extractLsb'_toNat, Nat.shiftRight_eq_div_pow]
  omega

/-- The mask field of WAIT is bits 8:5 of the word. -/
theorem mask_of_fields (w : Word) :
    (w.extractLsb' 6 3 ++ (w.extractLsb' 3 3).extractLsb' 2 1 : BitVec 4) = w.extractLsb' 5 4 := by
  apply BitVec.eq_of_toNat_eq
  show (w.extractLsb' 6 3 ++ (w.extractLsb' 3 3).extractLsb' 2 1).toNat = _
  simp only [append_toNat_add, BitVec.extractLsb'_toNat, Nat.shiftRight_eq_div_pow]
  omega

/-- The point of WAIT and the target of INIT are bits 4:3 of the word. -/
theorem pair_of_fields (w : Word) : (w.extractLsb' 3 3).extractLsb' 0 2 = w.extractLsb' 3 2 := by
  apply BitVec.eq_of_toNat_eq
  simp only [BitVec.extractLsb'_toNat, Nat.shiftRight_eq_div_pow]
  omega

/-- A row that fixes opcode and sub-op decodes as its fields do. -/
theorem decodesAs_of_sub {v : Word} {i : Word → Instr} (op : BitVec 5) (sub : BitVec 2)
    (ho : v.extractLsb' 11 5 = op) (hs : v.extractLsb' 9 2 = sub)
    (hd : ∀ w : Word, decodeFields
      ⟨op, sub, w.extractLsb' 6 3, w.extractLsb' 3 3, w.extractLsb' 0 3⟩ = .ok (i w)) :
    DecodesAs v 0xFE00 i := by
  intro w h
  rw [decodeWord, fieldsOf, extract_of_row 11 5 h (by decide), extract_of_row 9 2 h (by decide), ho, hs]
  exact hd w

/-- A row that fixes opcode and bit 9 decodes as its fields do, whatever bit 10 is. -/
theorem decodesAs_of_size {v : Word} {i : Word → Instr} (op : BitVec 5) (bit : BitVec 1)
    (ho : v.extractLsb' 11 5 = op) (hs : v.extractLsb' 9 1 = bit)
    (hd : ∀ sub : BitVec 2, sub.extractLsb' 0 1 = bit → ∀ w : Word, decodeFields
      ⟨op, sub, w.extractLsb' 6 3, w.extractLsb' 3 3, w.extractLsb' 0 3⟩ = .ok (i w)) :
    DecodesAs v 0xFA00 i := by
  intro w h
  rw [decodeWord, fieldsOf, extract_of_row 11 5 h (by decide), ho]
  refine hd _ ?_ w
  rw [← hs, ← extract_of_row 9 1 h (by decide)]
  ext i hi
  simp [BitVec.getElem_extractLsb']
  omega

/-- A row that fixes the opcode alone decodes as its fields do. -/
theorem decodesAs_of_op {v : Word} {i : Word → Instr} (op : BitVec 5) (ho : v.extractLsb' 11 5 = op)
    (hd : ∀ w : Word, decodeFields
      ⟨op, w.extractLsb' 9 2, w.extractLsb' 6 3, w.extractLsb' 3 3, w.extractLsb' 0 3⟩ = .ok (i w)) :
    DecodesAs v 0xF800 i := by
  intro w h
  rw [decodeWord, fieldsOf, extract_of_row 11 5 h (by decide), ho]
  exact hd w

end Sys2Proof
end

