-- ==== Sys2Proof/Laws/Numbers.lean ====
section
/-!
SUPPORT. The results and flags of Sys2Proof/Machine/Flags.lean and Operands.lean as exact integers cut to
their width: one lemma for each shared computation.
-/

namespace Sys2Proof.Machine

/-! ## Lanes -/

theorem lowLane_eq (v : Word) : lowLane v = (loByte v).toNat := by
  simp [lowLane, loByte, BitVec.extractLsb'_toNat]

theorem highLane_eq (v : Word) : highLane v = (hiByte v).toNat := by
  have := v.isLt
  simp [highLane, hiByte, BitVec.extractLsb'_toNat, Nat.shiftRight_eq_div_pow]; omega

theorem joinBytes_toNat (h l : Byte) : (joinBytes h l).toNat = 256 * h.toNat + l.toNat := by
  have := l.isLt
  simp only [joinBytes, BitVec.toNat_append, Nat.shiftLeft_eq]
  rw [Nat.mul_comm, ← Nat.two_pow_add_eq_or_of_lt this]

/-- Two bytes joined, when each is an exact result cut to 8 bits. -/
theorem joinBytes_eq_ofLanes (h l : Byte) (x y : Int) (hx : (h.toNat : Int) = x % 256)
    (hy : (l.toNat : Int) = y % 256) : joinBytes h l = ofLanes x y := by
  apply BitVec.eq_of_toNat_eq
  rw [joinBytes_toNat, ofLanes, ← hx, ← hy, BitVec.toNat_ofInt]
  have := h.isLt; have := l.isLt
  omega

/-! ## Sums and differences -/

theorem sum9_toNat (a b : Byte) : (sum9 a b).toNat = a.toNat + b.toNat := by
  have := a.isLt; have := b.isLt
  simp [sum9]; omega

theorem sum17_toNat (a b : Word) : (sum17 a b).toNat = a.toNat + b.toNat := by
  have := a.isLt; have := b.isLt
  simp [sum17]; omega

theorem sum9_carry (a b : Byte) : (sum9 a b).getLsbD 8 = decide (2 ^ 8 ≤ a.toNat + b.toNat) := by
  have := a.isLt; have := b.isLt
  rw [BitVec.getLsbD, Nat.testBit_eq_decide_div_mod_eq, sum9_toNat]
  congr 1; simp only [eq_iff_iff]; omega

theorem sum17_carry (a b : Word) : (sum17 a b).getLsbD 16 = decide (2 ^ 16 ≤ a.toNat + b.toNat) := by
  have := a.isLt; have := b.isLt
  rw [BitVec.getLsbD, Nat.testBit_eq_decide_div_mod_eq, sum17_toNat]
  congr 1; simp only [eq_iff_iff]; omega

theorem addWords_value (a b : Word) : (addWords a b).value = BitVec.ofNat 16 (a.toNat + b.toNat) := by
  apply BitVec.eq_of_toNat_eq
  simp [addWords, sum17_toNat]

theorem subWords_value (a b : Word) : (subWords a b).value = BitVec.ofInt 16 (a.toNat - b.toNat) := by
  apply BitVec.eq_of_toNat_eq
  have := a.isLt; have := b.isLt
  simp [subWords, BitVec.toNat_ofInt]; omega

theorem addLanes_value (a b : Word) :
    (addLanes a b).value = ofLanes (highLane a + highLane b) (lowLane a + lowLane b) := by
  apply joinBytes_eq_ofLanes <;> simp [sum9_toNat, lowLane_eq, highLane_eq]

theorem subLanes_value (a b : Word) :
    (subLanes a b).value = ofLanes (highLane a - highLane b) (lowLane a - lowLane b) := by
  have := (hiByte a).isLt; have := (hiByte b).isLt; have := (loByte a).isLt; have := (loByte b).isLt
  apply joinBytes_eq_ofLanes <;> simp [lowLane_eq, highLane_eq] <;> omega

/-! ## Averages and halved differences -/

theorem avgLanes_value (a b : Word) :
    (avgLanes a b).value = ofLanes ((highLane a + highLane b) / 2) ((lowLane a + lowLane b) / 2) := by
  have := (hiByte a).isLt; have := (hiByte b).isLt; have := (loByte a).isLt; have := (loByte b).isLt
  apply joinBytes_eq_ofLanes <;>
    simp [meanByte, sum9_toNat, lowLane_eq, highLane_eq, Nat.shiftRight_eq_div_pow]

theorem avgWords_value (a b : Word) :
    (avgWords a b).value = BitVec.ofNat 16 ((a.toNat + b.toNat) / 2) := by
  have := a.isLt; have := b.isLt
  apply BitVec.eq_of_toNat_eq
  simp [avgWords, meanWord, sum17_toNat, Nat.shiftRight_eq_div_pow]

theorem diff9_toNat (a b : Byte) :
    (((a.zeroExtend 9 - b.zeroExtend 9).toNat : Nat) : Int) = ((a.toNat : Int) - b.toNat) % 512 := by
  have := a.isLt; have := b.isLt
  simp; omega

theorem diff17_toNat (a b : Word) :
    (((a.zeroExtend 17 - b.zeroExtend 17).toNat : Nat) : Int) = ((a.toNat : Int) - b.toNat) % 131072 := by
  have := a.isLt; have := b.isLt
  simp; omega

theorem halfDiffByte_toNat (a b : Byte) :
    (((halfDiffByte .borrowIn a b).toNat : Nat) : Int) = (((a.toNat : Int) - b.toNat) / 2) % 256 := by
  have h := diff9_toNat a b
  simp only [halfDiffByte, BitVec.extractLsb'_toNat, Nat.shiftRight_eq_div_pow]
  omega

theorem borrow9_eq (a b : Byte) : borrow9 a b = decide (a.toNat < b.toNat) := by
  have h := diff9_toNat a b
  have := a.isLt; have := b.isLt
  rw [borrow9, BitVec.getLsbD, Nat.testBit_eq_decide_div_mod_eq]
  congr 1; simp only [eq_iff_iff]; omega

theorem borrow17_eq (a b : Word) : borrow17 a b = decide (a.toNat < b.toNat) := by
  have h := diff17_toNat a b
  have := a.isLt; have := b.isLt
  rw [borrow17, BitVec.getLsbD, Nat.testBit_eq_decide_div_mod_eq]
  congr 1; simp only [eq_iff_iff]; omega

theorem savgLanes_value (a b : Word) :
    (savgLanes a b).value =
      ofLanes (((highLane a : Int) - highLane b) / 2) (((lowLane a : Int) - lowLane b) / 2) := by
  apply joinBytes_eq_ofLanes <;> simp only [Config.savgMode, halfDiffByte_toNat, lowLane_eq, highLane_eq]

theorem savgWords_value (a b : Word) :
    (savgWords a b).value = BitVec.ofInt 16 ((a.toNat - b.toNat : Int) / 2) := by
  have h := diff17_toNat a b
  apply BitVec.eq_of_toNat_eq
  rw [BitVec.toNat_ofInt]
  simp only [savgWords, halfDiffWord, Config.savgMode, BitVec.extractLsb'_toNat, Nat.shiftRight_eq_div_pow]
  omega

/-! ## Immediates and products -/

theorem imm3Word_toNat (k : BitVec 3) : (imm3Word k).toNat = k.toNat := by simp [imm3Word]; omega

theorem imm3Lanes_lo (k : BitVec 3) : (loByte (imm3Lanes k)).toNat = k.toNat := by revert k; decide

theorem imm3Lanes_hi (k : BitVec 3) : (hiByte (imm3Lanes k)).toNat = k.toNat := by revert k; decide

theorem mulBytes_toNat (a b : Byte) : (mulBytes false a b).toNat = a.toNat * b.toNat := by
  have : a.toNat * b.toNat ≤ 255 * 255 := Nat.mul_le_mul (by omega) (by omega)
  simp [mulBytes]; omega

/-! ## Shifts -/

theorem shiftAmount16_eq (v : Word) : shiftAmount16 v = v.toNat % 16 := by
  simp [shiftAmount16, BitVec.extractLsb'_toNat]

theorem shiftAmount8_eq (v : Word) : shiftAmount8 v = v.toNat % 8 := by
  simp [shiftAmount8, BitVec.extractLsb'_toNat]

theorem ushiftRight_toNat {w : Nat} (x : BitVec w) (n : Nat) : (x >>> n).toNat = x.toNat / 2 ^ n := by
  simp [Nat.shiftRight_eq_div_pow]

theorem sshiftRight_eq {w : Nat} (x : BitVec w) (n : Nat) :
    x.sshiftRight n = BitVec.ofInt w (x.toInt / 2 ^ n) := by
  apply BitVec.eq_of_toInt_eq
  rw [BitVec.toInt_sshiftRight, BitVec.toInt_ofInt, Int.shiftRight_eq_div_pow]
  have h : (x.sshiftRight n).toInt = x.toInt / 2 ^ n := by
    rw [BitVec.toInt_sshiftRight, Int.shiftRight_eq_div_pow]; rfl
  have := BitVec.toInt_bmod_cancel (x.sshiftRight n)
  rw [h] at this
  exact this.symm

theorem shiftLeft_eq_mul {w : Nat} (x : BitVec w) (n : Nat) :
    x <<< n = BitVec.ofNat w (x.toNat * 2 ^ n) := by
  apply BitVec.eq_of_toNat_eq; simp [Nat.shiftLeft_eq]

/-- A left rotation as one sum. -/
theorem rotateLeft_eq {w : Nat} (x : BitVec w) (n : Nat) (h : n < w) :
    x.rotateLeft n = BitVec.ofNat w (x.toNat * 2 ^ n + x.toNat / 2 ^ (w - n)) := by
  apply BitVec.eq_of_toNat_eq
  have hx := x.isLt
  have e : (2:Nat) ^ w = 2 ^ (w - n) * 2 ^ n := by rw [← Nat.pow_add]; congr 1; omega
  have hq : x.toNat / 2 ^ (w - n) < 2 ^ n := by
    rw [Nat.div_lt_iff_lt_mul (by positivity), Nat.mul_comm, ← e]; exact hx
  rw [BitVec.toNat_rotateLeft, Nat.mod_eq_of_lt h, BitVec.toNat_ofNat, Nat.shiftLeft_eq,
    Nat.shiftRight_eq_div_pow]
  have hm : x.toNat * 2 ^ n % 2 ^ w = (x.toNat % 2 ^ (w - n)) * 2 ^ n := by rw [e, Nat.mul_mod_mul_right]
  have hb : x.toNat % 2 ^ (w - n) * 2 ^ n + x.toNat / 2 ^ (w - n) < 2 ^ w := by
    have := Nat.mod_lt x.toNat (show 0 < 2 ^ (w - n) by positivity)
    calc _ < x.toNat % 2 ^ (w - n) * 2 ^ n + 2 ^ n := by omega
      _ = (x.toNat % 2 ^ (w - n) + 1) * 2 ^ n := by ring
      _ ≤ 2 ^ (w - n) * 2 ^ n := Nat.mul_le_mul_right _ this
      _ = 2 ^ w := e.symm
  have hr : (x.toNat * 2 ^ n + x.toNat / 2 ^ (w - n)) % 2 ^ w =
      x.toNat % 2 ^ (w - n) * 2 ^ n + x.toNat / 2 ^ (w - n) := by
    rw [← Nat.mod_add_mod, hm, Nat.mod_eq_of_lt hb]
  rw [hr, hm, Nat.mul_comm (x.toNat % _), ← Nat.two_pow_add_eq_or_of_lt hq]


theorem signedLane_eq (b : Byte) : signedLane b.toNat = b.toInt := by
  rw [signedLane, BitVec.toInt_eq_toNat_cond]; split <;> split <;> omega

end Sys2Proof.Machine
end

