-- ==== Sys2Proof/Laws/PerInstr.lean ====
section
/-!
SUPPORT. What is proved of every instruction one constructor at a time: the word an instruction encodes to
has the opcode, the sub-op and the selector bit of its row of the encoding table (R98).
-/

namespace Sys2Proof.Laws

/-- Two words made of fields, bit by bit. -/
theorem wordOf_and (f m : Fields) :
    wordOf f &&& wordOf m =
      wordOf ⟨f.op &&& m.op, f.sub &&& m.sub, f.a &&& m.a, f.b &&& m.b, f.d &&& m.d⟩ := by
  have h : (f.op ++ f.sub ++ f.a ++ f.b ++ f.d) &&& (m.op ++ m.sub ++ m.a ++ m.b ++ m.d) =
      (f.op &&& m.op) ++ (f.sub &&& m.sub) ++ (f.a &&& m.a) ++ (f.b &&& m.b) ++ (f.d &&& m.d) := by
    simp only [BitVec.and_append]
  exact h

/-- A row that fixes opcode and sub-op. -/
theorem row_of_sub (op : BitVec 5) (sub : BitVec 2) (a b d : BitVec 3) :
    wordOf ⟨op, sub, a, b, d⟩ &&& 0xFE00 = wordOf ⟨op, sub, 0, 0, 0⟩ := by
  rw [show (0xFE00 : Word) = wordOf ⟨31, 3, 0, 0, 0⟩ from rfl, wordOf_and]
  have h5 : ∀ x : BitVec 5, x &&& 31#5 = x := by decide
  have h2 : ∀ x : BitVec 2, x &&& 3#2 = x := by decide
  simp [h5, h2]

/-- A row that fixes opcode and bit 9. -/
theorem row_of_size (op : BitVec 5) (sub : BitVec 2) (a b d : BitVec 3) :
    wordOf ⟨op, sub, a, b, d⟩ &&& 0xFA00 = wordOf ⟨op, sub &&& 1, 0, 0, 0⟩ := by
  rw [show (0xFA00 : Word) = wordOf ⟨31, 1, 0, 0, 0⟩ from rfl, wordOf_and]
  have h5 : ∀ x : BitVec 5, x &&& 31#5 = x := by decide
  simp [h5]

/-- A row that fixes opcode and bit 10. -/
theorem row_of_bit10 (op : BitVec 5) (sub : BitVec 2) (a b d : BitVec 3) :
    wordOf ⟨op, sub, a, b, d⟩ &&& 0xFC00 = wordOf ⟨op, sub &&& 2, 0, 0, 0⟩ := by
  rw [show (0xFC00 : Word) = wordOf ⟨31, 2, 0, 0, 0⟩ from rfl, wordOf_and]
  have h5 : ∀ x : BitVec 5, x &&& 31#5 = x := by decide
  simp [h5]

/-- A row that fixes the opcode alone. -/
theorem row_of_op (op : BitVec 5) (sub : BitVec 2) (a b d : BitVec 3) :
    wordOf ⟨op, sub, a, b, d⟩ &&& 0xF800 = wordOf ⟨op, 0, 0, 0, 0⟩ := by
  rw [show (0xF800 : Word) = wordOf ⟨31, 0, 0, 0, 0⟩ from rfl, wordOf_and]
  have h5 : ∀ x : BitVec 5, x &&& 31#5 = x := by decide
  simp [h5]

/-- The word of the instruction belongs to the instruction's row of the encoding table. -/
def EncodingRow.Statement (i : Instr) : Prop := encodeWord i &&& (rowOf i).mask = (rowOf i).value

theorem EncodingRow.add8 (ra rb rd : RegNum) :
    EncodingRow.Statement (.add8 ra rb rd) := row_of_sub _ _ _ _ _

theorem EncodingRow.add16 (ra rb rd : RegNum) :
    EncodingRow.Statement (.add16 ra rb rd) := row_of_sub _ _ _ _ _

theorem EncodingRow.sub8 (ra rb rd : RegNum) :
    EncodingRow.Statement (.sub8 ra rb rd) := row_of_sub _ _ _ _ _

theorem EncodingRow.sub16 (ra rb rd : RegNum) :
    EncodingRow.Statement (.sub16 ra rb rd) := row_of_sub _ _ _ _ _

theorem EncodingRow.avg8 (ra rb rd : RegNum) :
    EncodingRow.Statement (.avg8 ra rb rd) := row_of_sub _ _ _ _ _

theorem EncodingRow.avg16 (ra rb rd : RegNum) :
    EncodingRow.Statement (.avg16 ra rb rd) := row_of_sub _ _ _ _ _

theorem EncodingRow.savg8 (ra rb rd : RegNum) :
    EncodingRow.Statement (.savg8 ra rb rd) := row_of_sub _ _ _ _ _

theorem EncodingRow.savg16 (ra rb rd : RegNum) :
    EncodingRow.Statement (.savg16 ra rb rd) := row_of_sub _ _ _ _ _

theorem EncodingRow.rsl8 (ra rb rd : RegNum) :
    EncodingRow.Statement (.rsl8 ra rb rd) := (row_of_size _ _ _ _ _).trans rfl

theorem EncodingRow.rsl16 (ra rb rd : RegNum) :
    EncodingRow.Statement (.rsl16 ra rb rd) := (row_of_size _ _ _ _ _).trans rfl

theorem EncodingRow.rsa8 (ra rb rd : RegNum) :
    EncodingRow.Statement (.rsa8 ra rb rd) := (row_of_size _ _ _ _ _).trans rfl

theorem EncodingRow.rsa16 (ra rb rd : RegNum) :
    EncodingRow.Statement (.rsa16 ra rb rd) := (row_of_size _ _ _ _ _).trans rfl

theorem EncodingRow.lsl8 (ra rb rd : RegNum) :
    EncodingRow.Statement (.lsl8 ra rb rd) := (row_of_size _ _ _ _ _).trans rfl

theorem EncodingRow.lsl16 (ra rb rd : RegNum) :
    EncodingRow.Statement (.lsl16 ra rb rd) := (row_of_size _ _ _ _ _).trans rfl

theorem EncodingRow.rot8 (ra rb rd : RegNum) :
    EncodingRow.Statement (.rot8 ra rb rd) := (row_of_size _ _ _ _ _).trans rfl

theorem EncodingRow.rot16 (ra rb rd : RegNum) :
    EncodingRow.Statement (.rot16 ra rb rd) := (row_of_size _ _ _ _ _).trans rfl

theorem EncodingRow.cmpEq8 (ra rb : RegNum) (cb : FlagNum) :
    EncodingRow.Statement (.cmpEq8 ra rb cb) := row_of_sub _ _ _ _ _

theorem EncodingRow.cmpEq16 (ra rb : RegNum) (cb : FlagNum) :
    EncodingRow.Statement (.cmpEq16 ra rb cb) := row_of_sub _ _ _ _ _

theorem EncodingRow.cmpNe8 (ra rb : RegNum) (cb : FlagNum) :
    EncodingRow.Statement (.cmpNe8 ra rb cb) := row_of_sub _ _ _ _ _

theorem EncodingRow.cmpNe16 (ra rb : RegNum) (cb : FlagNum) :
    EncodingRow.Statement (.cmpNe16 ra rb cb) := row_of_sub _ _ _ _ _

theorem EncodingRow.cmpGt8 (ra rb : RegNum) (cb : FlagNum) :
    EncodingRow.Statement (.cmpGt8 ra rb cb) := row_of_sub _ _ _ _ _

theorem EncodingRow.cmpGt16 (ra rb : RegNum) (cb : FlagNum) :
    EncodingRow.Statement (.cmpGt16 ra rb cb) := row_of_sub _ _ _ _ _

theorem EncodingRow.cmpGe8 (ra rb : RegNum) (cb : FlagNum) :
    EncodingRow.Statement (.cmpGe8 ra rb cb) := row_of_sub _ _ _ _ _

theorem EncodingRow.cmpGe16 (ra rb : RegNum) (cb : FlagNum) :
    EncodingRow.Statement (.cmpGe16 ra rb cb) := row_of_sub _ _ _ _ _

theorem EncodingRow.cmpLt8 (ra rb : RegNum) (cb : FlagNum) :
    EncodingRow.Statement (.cmpLt8 ra rb cb) := row_of_sub _ _ _ _ _

theorem EncodingRow.cmpLt16 (ra rb : RegNum) (cb : FlagNum) :
    EncodingRow.Statement (.cmpLt16 ra rb cb) := row_of_sub _ _ _ _ _

theorem EncodingRow.cmpLe8 (ra rb : RegNum) (cb : FlagNum) :
    EncodingRow.Statement (.cmpLe8 ra rb cb) := row_of_sub _ _ _ _ _

theorem EncodingRow.cmpLe16 (ra rb : RegNum) (cb : FlagNum) :
    EncodingRow.Statement (.cmpLe16 ra rb cb) := row_of_sub _ _ _ _ _

theorem EncodingRow.macLo (ra rb rd : RegNum) :
    EncodingRow.Statement (.macLo ra rb rd) := (row_of_size _ _ _ _ _).trans rfl

theorem EncodingRow.macHi (ra rb rd : RegNum) :
    EncodingRow.Statement (.macHi ra rb rd) := (row_of_size _ _ _ _ _).trans rfl

theorem EncodingRow.mulLo (ra rb rd : RegNum) :
    EncodingRow.Statement (.mulLo ra rb rd) := (row_of_size _ _ _ _ _).trans rfl

theorem EncodingRow.mulHi (ra rb rd : RegNum) :
    EncodingRow.Statement (.mulHi ra rb rd) := (row_of_size _ _ _ _ _).trans rfl

theorem EncodingRow.mixLo (ra rb rd : RegNum) :
    EncodingRow.Statement (.mixLo ra rb rd) := (row_of_size _ _ _ _ _).trans rfl

theorem EncodingRow.mixHi (ra rb rd : RegNum) :
    EncodingRow.Statement (.mixHi ra rb rd) := (row_of_size _ _ _ _ _).trans rfl

theorem EncodingRow.muxLo (ra rb rd : RegNum) :
    EncodingRow.Statement (.muxLo ra rb rd) := (row_of_size _ _ _ _ _).trans rfl

theorem EncodingRow.muxHi (ra rb rd : RegNum) :
    EncodingRow.Statement (.muxHi ra rb rd) := (row_of_size _ _ _ _ _).trans rfl

theorem EncodingRow.andW (ra rb rd : RegNum) :
    EncodingRow.Statement (.andW ra rb rd) := row_of_sub _ _ _ _ _

theorem EncodingRow.orW (ra rb rd : RegNum) :
    EncodingRow.Statement (.orW ra rb rd) := row_of_sub _ _ _ _ _

theorem EncodingRow.xorW (ra rb rd : RegNum) :
    EncodingRow.Statement (.xorW ra rb rd) := row_of_sub _ _ _ _ _

theorem EncodingRow.notW (ra rd : RegNum) :
    EncodingRow.Statement (.notW ra rd) := row_of_sub _ _ _ _ _

theorem EncodingRow.copyLo (ra rd : RegNum) :
    EncodingRow.Statement (.copyLo ra rd) := row_of_sub _ _ _ _ _

theorem EncodingRow.copyHi (ra rd : RegNum) :
    EncodingRow.Statement (.copyHi ra rd) := row_of_sub _ _ _ _ _

theorem EncodingRow.swap (ra rd : RegNum) :
    EncodingRow.Statement (.swap ra rd) := (row_of_bit10 _ _ _ _ _).trans rfl

theorem EncodingRow.lw (ra rd : RegNum) :
    EncodingRow.Statement (.lw ra rd) := row_of_sub _ _ _ _ _

theorem EncodingRow.lwi (ra rd : RegNum) :
    EncodingRow.Statement (.lwi ra rd) := row_of_sub _ _ _ _ _

theorem EncodingRow.lwd (ra rd : RegNum) :
    EncodingRow.Statement (.lwd ra rd) := row_of_sub _ _ _ _ _

theorem EncodingRow.sw (ra rb : RegNum) :
    EncodingRow.Statement (.sw ra rb) := row_of_sub _ _ _ _ _

theorem EncodingRow.swi (ra rb : RegNum) :
    EncodingRow.Statement (.swi ra rb) := row_of_sub _ _ _ _ _

theorem EncodingRow.swd (ra rb : RegNum) :
    EncodingRow.Statement (.swd ra rb) := row_of_sub _ _ _ _ _

theorem EncodingRow.read (port : Port) (cb : FlagNum) (rd : RegNum) :
    EncodingRow.Statement (.read port cb rd) := (row_of_size _ _ _ _ _).trans rfl

theorem EncodingRow.write (port : Port) (cb : FlagNum) (rd : RegNum) :
    EncodingRow.Statement (.write port cb rd) := (row_of_size _ _ _ _ _).trans rfl

theorem EncodingRow.wait (mask : BitVec 4) (point : Point) :
    EncodingRow.Statement (.wait mask point) := row_of_sub _ _ _ _ _

theorem EncodingRow.kill :
    EncodingRow.Statement (.kill) := row_of_sub _ _ _ _ _

theorem EncodingRow.init (ra : RegNum) (target : Tid) :
    EncodingRow.Statement (.init ra target) := row_of_sub _ _ _ _ _

theorem EncodingRow.jmpr (ra : RegNum) (cb : FlagNum) :
    EncodingRow.Statement (.jmpr ra cb) := (row_of_size _ _ _ _ _).trans rfl

theorem EncodingRow.jmpSpr1 :
    EncodingRow.Statement (.jmpSpr1) := (row_of_size _ _ _ _ _).trans rfl

theorem EncodingRow.jalr (ra : RegNum) (cb : FlagNum) :
    EncodingRow.Statement (.jalr ra cb) := row_of_op _ _ _ _ _

theorem EncodingRow.jmpi (offset : Int) (cb : FlagNum) :
    EncodingRow.Statement (.jmpi offset cb) := row_of_op _ _ _ _ _

theorem EncodingRow.jali (offset : Int) (cb : FlagNum) :
    EncodingRow.Statement (.jali offset cb) := row_of_op _ _ _ _ _

theorem EncodingRow.liHi (imm : Byte) (rd : RegNum) :
    EncodingRow.Statement (.liHi imm rd) := row_of_op _ _ _ _ _

theorem EncodingRow.liLo (imm : Byte) (rd : RegNum) :
    EncodingRow.Statement (.liLo imm rd) := row_of_op _ _ _ _ _

theorem EncodingRow.getFlag (rd : RegNum) :
    EncodingRow.Statement (.getFlag rd) := row_of_sub _ _ _ _ _

theorem EncodingRow.getSpr1 (rd : RegNum) :
    EncodingRow.Statement (.getSpr1 rd) := row_of_sub _ _ _ _ _

theorem EncodingRow.getSpr2 (rd : RegNum) :
    EncodingRow.Statement (.getSpr2 rd) := row_of_sub _ _ _ _ _

theorem EncodingRow.getExr (rd : RegNum) :
    EncodingRow.Statement (.getExr rd) := row_of_sub _ _ _ _ _

theorem EncodingRow.getWaitReg (rd : RegNum) :
    EncodingRow.Statement (.getWaitReg rd) := row_of_sub _ _ _ _ _

theorem EncodingRow.getTar (rd : RegNum) :
    EncodingRow.Statement (.getTar rd) := row_of_sub _ _ _ _ _

theorem EncodingRow.getWs (rd : RegNum) :
    EncodingRow.Statement (.getWs rd) := row_of_sub _ _ _ _ _

theorem EncodingRow.getIntr (rd : RegNum) :
    EncodingRow.Statement (.getIntr rd) := row_of_sub _ _ _ _ _

theorem EncodingRow.putFlag (ra : RegNum) :
    EncodingRow.Statement (.putFlag ra) := row_of_sub _ _ _ _ _

theorem EncodingRow.putSpr1 (ra : RegNum) :
    EncodingRow.Statement (.putSpr1 ra) := row_of_sub _ _ _ _ _

theorem EncodingRow.putDebug (value : Bool) :
    EncodingRow.Statement (.putDebug value) := row_of_sub _ _ _ _ _

theorem EncodingRow.putIntrMask (value : Bool) :
    EncodingRow.Statement (.putIntrMask value) := row_of_sub _ _ _ _ _

theorem EncodingRow.addi8 (ra : RegNum) (imm : BitVec 3) (rd : RegNum) :
    EncodingRow.Statement (.addi8 ra imm rd) := row_of_sub _ _ _ _ _

theorem EncodingRow.addi16 (ra : RegNum) (imm : BitVec 3) (rd : RegNum) :
    EncodingRow.Statement (.addi16 ra imm rd) := row_of_sub _ _ _ _ _

theorem EncodingRow.subi8 (ra : RegNum) (imm : BitVec 3) (rd : RegNum) :
    EncodingRow.Statement (.subi8 ra imm rd) := row_of_sub _ _ _ _ _

theorem EncodingRow.subi16 (ra : RegNum) (imm : BitVec 3) (rd : RegNum) :
    EncodingRow.Statement (.subi16 ra imm rd) := row_of_sub _ _ _ _ _

theorem EncodingRow.getThread (rd : RegNum) :
    EncodingRow.Statement (.getThread rd) := row_of_sub _ _ _ _ _

theorem EncodingRow.swft (ra rb rd : RegNum) :
    EncodingRow.Statement (.swft ra rb rd) := row_of_sub _ _ _ _ _

theorem EncodingRow.swsg (ra rb rd : RegNum) :
    EncodingRow.Statement (.swsg ra rb rd) := row_of_sub _ _ _ _ _

theorem EncodingRow.swsgi (ra rb rd : RegNum) :
    EncodingRow.Statement (.swsgi ra rb rd) := row_of_sub _ _ _ _ _

theorem EncodingRow.swsgd (ra rb rd : RegNum) :
    EncodingRow.Statement (.swsgd ra rb rd) := row_of_sub _ _ _ _ _

theorem EncodingRow.nop :
    EncodingRow.Statement (.nop) := row_of_op _ _ _ _ _

end Sys2Proof.Laws
end

