-- ==== Sys2Proof/Tests/Slice0.lean ====
section
/-!
SUPPORT. The model's own tests. The expected values are the worked examples that stand at the end of the
rules of spec/40 to spec/49 and the vectors of spec/95_test_vectors.md; the words of the decode tests are
written out from the encodings of spec/opcode_table.json, every don't-care bit 1. The theorems named
`meets_<statement>` show states and operands that meet all hypotheses of a statement together.
-/

namespace Sys2Proof.Tests

open Machine

/-! ## Well-formedness -/

/-- The one check of WellFormed, the reach of the 8-bit offset, refuses the nearest offsets outside it. -/
theorem test_offset_out_of_reach :
    Instr.wellFormed (.jmpi (-129) 0) = false ∧ Instr.wellFormed (.jmpi 128 0) = false ∧
    Instr.wellFormed (.jali (-129) 0) = false ∧ Instr.wellFormed (.jali 128 0) = false := by decide

/-- The ends of the reach are well-formed. -/
theorem test_offset_in_reach :
    Instr.wellFormed (.jmpi (-128) 0) = true ∧ Instr.wellFormed (.jali 127 0) = true := by decide

/-! ## Decoding -/

/-- The word belongs to the row with this value and mask, and decodes to the instruction. -/
abbrev Reads (w value mask : Word) (i : Instr) : Prop := w &&& mask = value ∧ decodeWord w = .ok i

theorem test_decode_arithmetic :
  Reads 0b00000_00_001_010_011 0x0000 0xFE00 (.add8 1 2 3) ∧
  Reads 0b00000_01_001_010_011 0x0200 0xFE00 (.add16 1 2 3) ∧
  Reads 0b00000_10_001_010_011 0x0400 0xFE00 (.sub8 1 2 3) ∧
  Reads 0b00000_11_001_010_011 0x0600 0xFE00 (.sub16 1 2 3) ∧
  Reads 0b00001_00_001_010_011 0x0800 0xFE00 (.avg8 1 2 3) ∧
  Reads 0b00001_01_001_010_011 0x0A00 0xFE00 (.avg16 1 2 3) ∧
  Reads 0b00001_10_001_010_011 0x0C00 0xFE00 (.savg8 1 2 3) ∧
  Reads 0b00001_11_001_010_011 0x0E00 0xFE00 (.savg16 1 2 3) ∧
  Reads 0b11100_00_001_101_011 0xE000 0xFE00 (.addi8 1 5 3) ∧
  Reads 0b11100_01_001_101_011 0xE200 0xFE00 (.addi16 1 5 3) ∧
  Reads 0b11100_10_001_101_011 0xE400 0xFE00 (.subi8 1 5 3) ∧
  Reads 0b11100_11_001_101_011 0xE600 0xFE00 (.subi16 1 5 3) := by decide

theorem test_decode_shift :
  Reads 0b00010_10_001_010_011 0x1000 0xFA00 (.rsl8 1 2 3) ∧
  Reads 0b00010_11_001_010_011 0x1200 0xFA00 (.rsl16 1 2 3) ∧
  Reads 0b00011_10_001_010_011 0x1800 0xFA00 (.rsa8 1 2 3) ∧
  Reads 0b00011_11_001_010_011 0x1A00 0xFA00 (.rsa16 1 2 3) ∧
  Reads 0b00100_10_001_010_011 0x2000 0xFA00 (.lsl8 1 2 3) ∧
  Reads 0b00100_11_001_010_011 0x2200 0xFA00 (.lsl16 1 2 3) ∧
  Reads 0b00101_10_001_010_011 0x2800 0xFA00 (.rot8 1 2 3) ∧
  Reads 0b00101_11_001_010_011 0x2A00 0xFA00 (.rot16 1 2 3) := by decide

theorem test_decode_compare :
  Reads 0b00110_00_001_010_011 0x3000 0xFE00 (.cmpEq8 1 2 3) ∧
  Reads 0b00110_01_001_010_011 0x3200 0xFE00 (.cmpEq16 1 2 3) ∧
  Reads 0b00110_10_001_010_011 0x3400 0xFE00 (.cmpNe8 1 2 3) ∧
  Reads 0b00110_11_001_010_011 0x3600 0xFE00 (.cmpNe16 1 2 3) ∧
  Reads 0b00111_00_001_010_011 0x3800 0xFE00 (.cmpGt8 1 2 3) ∧
  Reads 0b00111_01_001_010_011 0x3A00 0xFE00 (.cmpGt16 1 2 3) ∧
  Reads 0b00111_10_001_010_011 0x3C00 0xFE00 (.cmpGe8 1 2 3) ∧
  Reads 0b00111_11_001_010_011 0x3E00 0xFE00 (.cmpGe16 1 2 3) ∧
  Reads 0b01000_00_001_010_011 0x4000 0xFE00 (.cmpLt8 1 2 3) ∧
  Reads 0b01000_01_001_010_011 0x4200 0xFE00 (.cmpLt16 1 2 3) ∧
  Reads 0b01000_10_001_010_011 0x4400 0xFE00 (.cmpLe8 1 2 3) ∧
  Reads 0b01000_11_001_010_011 0x4600 0xFE00 (.cmpLe16 1 2 3) := by decide

theorem test_decode_multiply :
  Reads 0b01001_10_001_010_011 0x4800 0xFA00 (.macLo 1 2 3) ∧
  Reads 0b01001_11_001_010_011 0x4A00 0xFA00 (.macHi 1 2 3) ∧
  Reads 0b01010_10_001_010_011 0x5000 0xFA00 (.mulLo 1 2 3) ∧
  Reads 0b01010_11_001_010_011 0x5200 0xFA00 (.mulHi 1 2 3) := by decide

theorem test_decode_mixMux :
  Reads 0b01011_10_001_010_011 0x5800 0xFA00 (.mixLo 1 2 3) ∧
  Reads 0b01011_11_001_010_011 0x5A00 0xFA00 (.mixHi 1 2 3) ∧
  Reads 0b01100_10_001_010_011 0x6000 0xFA00 (.muxLo 1 2 3) ∧
  Reads 0b01100_11_001_010_011 0x6200 0xFA00 (.muxHi 1 2 3) := by decide

theorem test_decode_logic_and_immediate :
  Reads 0b01101_00_001_010_011 0x6800 0xFE00 (.andW 1 2 3) ∧
  Reads 0b01101_01_001_010_011 0x6A00 0xFE00 (.orW 1 2 3) ∧
  Reads 0b01101_10_001_010_011 0x6C00 0xFE00 (.xorW 1 2 3) ∧
  Reads 0b01101_11_001_111_011 0x6E00 0xFE00 (.notW 1 3) ∧
  Reads 0b01110_00_001_111_011 0x7000 0xFE00 (.copyLo 1 3) ∧
  Reads 0b01110_01_001_111_011 0x7200 0xFE00 (.copyHi 1 3) ∧
  Reads 0b01110_11_001_111_011 0x7400 0xFC00 (.swap 1 3) ∧
  Reads 0b10111_11111010_011 0xB800 0xF800 (.liHi 0xFA 3) ∧
  Reads 0b11000_11111010_011 0xC000 0xF800 (.liLo 0xFA 3) := by decide

theorem test_decode_load_store :
  Reads 0b01111_00_001_111_011 0x7800 0xFE00 (.lw 1 3) ∧
  Reads 0b01111_01_001_111_011 0x7A00 0xFE00 (.lwi 1 3) ∧
  Reads 0b01111_10_001_111_011 0x7C00 0xFE00 (.lwd 1 3) ∧
  Reads 0b10000_00_001_010_111 0x8000 0xFE00 (.sw 1 2) ∧
  Reads 0b10000_01_001_010_111 0x8200 0xFE00 (.swi 1 2) ∧
  Reads 0b10000_10_001_010_111 0x8400 0xFE00 (.swd 1 2) ∧
  Reads 0b11110_00_001_010_011 0xF000 0xFE00 (.swft 1 2 3) := by decide

theorem test_decode_port :
  Reads 0b10001_10_101_100_011 0x8800 0xFA00 (.read 5 4 3) ∧
  Reads 0b10001_11_101_100_011 0x8A00 0xFA00 (.write 5 4 3) := by decide

theorem test_decode_thread :
  Reads 0b10010_00_101_010_111 0x9000 0xFE00 (.wait 0b1010 2) ∧
  Reads 0b10010_01_111_111_111 0x9200 0xFE00 (.kill) ∧
  Reads 0b10010_10_001_111_111 0x9400 0xFE00 (.init 1 3) := by decide

theorem test_decode_jump :
  Reads 0b10011_10_001_111_011 0x9800 0xFA00 (.jmpr 1 3) ∧
  Reads 0b10011_11_111_111_111 0x9A00 0xFA00 (.jmpSpr1) ∧
  Reads 0b10100_11_001_111_011 0xA000 0xF800 (.jalr 1 3) ∧
  Reads 0b10101_11111010_011 0xA800 0xF800 (.jmpi (-6) 3) ∧
  Reads 0b10110_11111010_011 0xB000 0xF800 (.jali (-6) 3) := by decide

theorem test_decode_get :
  Reads 0b11001_00_111_111_011 0xC800 0xFE00 (.getFlag 3) ∧
  Reads 0b11001_01_111_111_011 0xCA00 0xFE00 (.getSpr1 3) ∧
  Reads 0b11001_10_111_111_011 0xCC00 0xFE00 (.getSpr2 3) ∧
  Reads 0b11001_11_111_111_011 0xCE00 0xFE00 (.getExr 3) ∧
  Reads 0b11010_00_111_111_011 0xD000 0xFE00 (.getWaitReg 3) ∧
  Reads 0b11010_01_111_111_011 0xD200 0xFE00 (.getTar 3) ∧
  Reads 0b11010_10_111_111_011 0xD400 0xFE00 (.getWs 3) ∧
  Reads 0b11010_11_111_111_011 0xD600 0xFE00 (.getIntr 3) ∧
  Reads 0b11101_00_111_111_011 0xE800 0xFE00 (.getThread 3) := by decide

theorem test_decode_put_and_nop :
  Reads 0b11011_00_001_111_111 0xD800 0xFE00 (.putFlag 1) ∧
  Reads 0b11011_01_001_111_111 0xDA00 0xFE00 (.putSpr1 1) ∧
  Reads 0b11011_10_111_111_111 0xDC00 0xFE00 (.putDebug true) ∧
  Reads 0b11011_11_111_111_111 0xDE00 0xFE00 (.putIntrMask true) ∧
  Reads 0b11111_11_111_111_111 0xF800 0xF800 (.nop) := by decide

theorem test_decode_video_store :
  Reads 0b11110_01_001_010_011 0xF200 0xFE00 (.swsg 1 2 3) ∧
  Reads 0b11110_10_001_010_011 0xF400 0xFE00 (.swsgi 1 2 3) ∧
  Reads 0b11110_11_001_010_011 0xF600 0xFE00 (.swsgd 1 2 3) := by decide

/-- The first and last words of the unassigned pairs (R99, vectors V-K). -/
theorem test_decode_unassigned :
    decodeWord 0x7E00 = .error (.unassigned 15 3) ∧ decodeWord 0x87FF = .error (.unassigned 16 3) ∧
    decodeWord 0x9600 = .error (.unassigned 18 3) ∧ decodeWord 0xEA00 = .error (.unassigned 29 1) ∧
    decodeWord 0xEC01 = .error (.unassigned 29 2) ∧ decodeWord 0xEFFF = .error (.unassigned 29 3) := by
  decide

/-! ## Small machines -/

/-- Registers set in a thread. -/
def setRegs (th : Thread) : List (RegNum × Word) → Thread
  | [] => th
  | (r, v) :: rest => setRegs { th with regs := th.regs.set r v } rest

/-- The machine after reset with thread t's private state changed. -/
def withThread (t : Tid) (f : Thread → Thread) (s : State) : State := s.setThread t (f (s.thread t))

/-- Thread 0 at 0x4000 with some registers set. -/
def at0 (regs : List (RegNum × Word)) : State :=
  withThread 0 (fun th => setRegs { th with pc := 0x4000 } regs) State.reset

/-- What is seen of a next state. -/
def seen {α : Type} (r : Result) (f : State → α) : Option α :=
  match r with
  | .next s => some (f s)
  | .fault _ => none
  | .refused _ => none

/-- The two operand registers and the destination of the tests. -/
def ab (a b : Word) : State := at0 [(1, a), (2, b)]

/-- Register 3 and flags 6 and 7 after an instruction. -/
def alu (i : Instr) (s : State) : Option (Word × Bool × Bool) :=
  seen (exec i s) fun t => (t.reg 3, t.cur.readFlag 6, t.cur.readFlag 7)

/-- The whole FLAG register after an instruction. -/
def flags (i : Instr) (s : State) : Option Byte := seen (exec i s) fun t => t.cur.flagByte

/-! ## Arithmetic, shifts, compares, multiply, permutation -/

theorem test_add8 : alu (.add8 1 2 3) (ab 0x80FF 0x8001) = some (0x0000, true, true) := by decide
theorem test_add8_lanes : alu (.add8 1 2 3) (ab 0x01FF 0x0101) = some (0x0200, true, false) := by decide
theorem test_add16 : alu (.add16 1 2 3) (ab 0xFFFF 0x0001) = some (0x0000, true, false) := by decide
theorem test_sub8 : alu (.sub8 1 2 3) (ab 0x0500 0x0101) = some (0x04FF, true, false) := by decide
theorem test_sub16 : alu (.sub16 1 2 3) (ab 0x0003 0x0005) = some (0xFFFE, true, false) := by decide
theorem test_avg8 : alu (.avg8 1 2 3) (ab 0xFF03 0xFF04) = some (0xFF03, false, false) := by decide
theorem test_avg16 : alu (.avg16 1 2 3) (ab 0x0003 0x0004) = some (0x0003, false, false) := by decide
theorem test_savg8 : alu (.savg8 1 2 3) (ab 0x0A02 0x0406) = some (0x03FE, true, false) := by decide
theorem test_savg16 : alu (.savg16 1 2 3) (ab 0x0009 0x0004) = some (0x0002, false, false) := by decide
theorem test_addi8 : alu (.addi8 1 3 3) (ab 0xFE01 0) = some (0x0104, false, true) := by decide
theorem test_addi16 : alu (.addi16 1 7 3) (ab 0x00FF 0) = some (0x0106, false, false) := by decide
theorem test_subi8 : alu (.subi8 1 2 3) (ab 0x0102 0) = some (0xFF00, false, true) := by decide
theorem test_subi16 : alu (.subi16 1 1 3) (ab 0x0100 0) = some (0x00FF, false, false) := by decide
theorem test_rsl8 : alu (.rsl8 1 2 3) (ab 0x80F0 4) = some (0x080F, false, false) := by decide
theorem test_rsl16 : alu (.rsl16 1 2 3) (ab 0x8001 1) = some (0x4000, false, false) := by decide
theorem test_rsa8 : alu (.rsa8 1 2 3) (ab 0x80F0 4) = some (0xF8FF, false, false) := by decide
theorem test_rsa16 : alu (.rsa16 1 2 3) (ab 0x8001 1) = some (0xC000, false, false) := by decide
theorem test_lsl8 : alu (.lsl8 1 2 3) (ab 0x81FF 1) = some (0x02FE, false, false) := by decide
theorem test_lsl16 : alu (.lsl16 1 2 3) (ab 0x81FF 4) = some (0x1FF0, false, false) := by decide
theorem test_rot8 : alu (.rot8 1 2 3) (ab 0x8112 1) = some (0x0324, false, false) := by decide
theorem test_rot16 : alu (.rot16 1 2 3) (ab 0x8001 4) = some (0x0018, false, false) := by decide

theorem test_cmpEq8 : flags (.cmpEq8 1 2 2) (ab 0x12FF 0x34FF) = some 0b00000101 := by decide
theorem test_cmpEq16 : flags (.cmpEq16 1 2 2) (ab 0x12FF 0x34FF) = some 0b00000001 := by decide
theorem test_cmpNe8 : flags (.cmpNe8 1 2 3) (ab 0x12FF 0x34FF) = some 0b00010001 := by decide
theorem test_cmpNe16 : flags (.cmpNe16 1 2 3) (ab 5 5) = some 0b00000001 := by decide
theorem test_cmpGt8 : flags (.cmpGt8 1 2 1) (ab 0x80FF 0x7F00) = some 0b00000111 := by decide
theorem test_cmpGt16 : flags (.cmpGt16 1 2 5) (ab 3 3) = some 0b00000001 := by decide
theorem test_cmpGe8 : flags (.cmpGe8 1 2 4) (ab 0x0105 0x0206) = some 0b00000001 := by decide
theorem test_cmpGe16 : flags (.cmpGe16 1 2 5) (ab 3 3) = some 0b00100001 := by decide
theorem test_cmpLt8 : flags (.cmpLt8 1 2 6) (ab 0x0105 0x0206) = some 0b11000001 := by decide
theorem test_cmpLt16 : flags (.cmpLt16 1 2 1) (ab 0x0001 0xFFFF) = some 0b00000011 := by decide
theorem test_cmpLe8 : flags (.cmpLe8 1 2 7) (ab 0x0507 0x0506) = some 0b00000001 := by decide
theorem test_cmpLe16 : flags (.cmpLe16 1 2 2) (ab 0x0506 0x0506) = some 0b00000101 := by decide

theorem test_macLo :
    alu (.macLo 1 2 3) (at0 [(1, 0x00FF), (2, 0x00FF), (3, 0x0200)]) = some (0x0001, true, false) := by
  decide
theorem test_macHi :
    alu (.macHi 1 2 3) (at0 [(1, 0x0305), (2, 0x0407), (3, 0x0010)]) = some (0x001C, false, false) := by
  decide
theorem test_mulLo : alu (.mulLo 1 2 3) (ab 0x0305 0x0407) = some (0x0023, false, false) := by decide
theorem test_mulHi : alu (.mulHi 1 2 3) (ab 0x0305 0x0407) = some (0x000C, false, false) := by decide

theorem test_mixLo : alu (.mixLo 1 2 3) (ab 0x1122 0x3344) = some (0x3322, false, false) := by decide
theorem test_mixHi : alu (.mixHi 1 2 3) (ab 0x1122 0x3344) = some (0x1144, false, false) := by decide
theorem test_muxLo : alu (.muxLo 1 2 3) (ab 0x1122 0x3344) = some (0x2233, false, false) := by decide
theorem test_muxHi : alu (.muxHi 1 2 3) (ab 0x1122 0x3344) = some (0x4411, false, false) := by decide
theorem test_and : alu (.andW 1 2 3) (ab 0x0FF0 0x3C3C) = some (0x0C30, false, false) := by decide
theorem test_or : alu (.orW 1 2 3) (ab 0x0FF0 0x3C3C) = some (0x3FFC, false, false) := by decide
theorem test_xor : alu (.xorW 1 2 3) (ab 0x0FF0 0x3C3C) = some (0x33CC, false, false) := by decide
theorem test_not : alu (.notW 1 3) (ab 0x0FF0 0) = some (0xF00F, false, false) := by decide
theorem test_copyLo : alu (.copyLo 1 3) (ab 0x12AB 0) = some (0xABAB, false, false) := by decide
theorem test_copyHi : alu (.copyHi 1 3) (ab 0x12AB 0) = some (0x1212, false, false) := by decide
theorem test_swap : alu (.swap 1 3) (ab 0x12AB 0) = some (0xAB12, false, false) := by decide
theorem test_liHi : alu (.liHi 0xAB 3) (at0 [(3, 0x1234)]) = some (0xAB34, false, false) := by decide
theorem test_liLo : alu (.liLo 0xAB 3) (at0 [(3, 0x1234)]) = some (0x12AB, false, false) := by decide

/-- A write to R0 is dropped with DEBUG = 0 and done with DEBUG = 1 (R9, R22). -/
theorem test_r0 :
    seen (exec (.notW 0 0) (at0 [])) (fun t => t.reg 0) = some 0 ∧
    seen (exec (.notW 0 0) (withThread 0 (fun th => { th with debug := true }) (at0 []))) (fun t => t.reg 0)
      = some 0xFFFF := by decide

/-! ## Loads, stores, ports -/

/-- Thread 0 with RA = 1 holding an address at which a word stands, and RB = 2 holding 0x1234. -/
def loads (a v : Word) : State := (at0 [(1, a), (2, 0x1234)]).storeWord a v

/-- Registers 1 and 3, EXR and the pc after an instruction. -/
def mems (i : Instr) (s : State) : Option (Word × Word × Word × Word) :=
  seen (exec i s) fun t => (t.reg 1, t.reg 3, t.cur.exr, t.cur.pc)

theorem test_lw : mems (.lw 1 3) (loads 0x9000 0xBEEF) = some (0x9000, 0xBEEF, 0, 0x4002) := by decide
theorem test_lwi : mems (.lwi 1 3) (loads 0xFFFE 0x0005) = some (0x0000, 0x0005, 0, 0x4002) := by decide
theorem test_lwd : mems (.lwd 1 3) (loads 0x9002 0x0007) = some (0x9000, 0x0007, 0, 0x4002) := by decide
theorem test_lw_odd : mems (.lw 1 3) (loads 0x9001 0) = some (0x9001, 0, 2, 0x0010) := by decide
theorem test_lwi_clash : exec (.lwi 1 1) (loads 0x9000 5) = .refused .loadIntoItsAddress := rfl

/-- Register 1, EXR, the pc and the word at an address after an instruction. -/
def stores (i : Instr) (a : Word) (s : State) : Option (Word × Word × Word × Word) :=
  seen (exec i s) fun t => (t.reg 1, t.cur.exr, t.cur.pc, t.loadWord a)

theorem test_sw : stores (.sw 1 2) 0x9000 (loads 0x9000 0) = some (0x9000, 0, 0x4002, 0x1234) := by
  decide
theorem test_swi : stores (.swi 1 2) 0x9000 (loads 0x9000 0) = some (0x9002, 0, 0x4002, 0x1234) := by
  decide
theorem test_swd : stores (.swd 1 2) 0x9002 (loads 0x9002 0) = some (0x9000, 0, 0x4002, 0x1234) := by
  decide
theorem test_sw_protected :
    stores (.sw 1 2) 0x7FFE (loads 0x7FFE 7) = some (0x7FFE, 4, 0x0010, 7) := by decide
theorem test_swi_odd_and_protected :
    stores (.swi 1 2) 0x4000 (loads 0x4001 7) = some (0x4001, 6, 0x0010, 7) := by decide

/-- The port of SWFT takes the word and flag 6 is set; the store is done. -/
theorem test_swft :
    seen (exec (.swft 1 2 3) (loads 0x9000 0)) (fun t => (t.loadWord 0x9000, t.outq[3], t.cur.readFlag 6))
      = some (0x1234, [0x1234], true) := by decide

/-- SWFT to a full port stores all the same and clears flag 6. -/
theorem test_swft_full :
    seen (exec (.swft 1 2 3) { loads 0x9000 0 with
        outq := Vector.replicate 8 (List.replicate 256 7) })
      (fun t => (t.loadWord 0x9000, decide ((t.outq[3]).length = 256), t.cur.readFlag 6))
      = some (0x1234, true, false) := by decide +kernel

/-- Register 1 and the Video RAM writes after an instruction. -/
def videos (i : Instr) (sel : Word) : Option (Word × List VramWrite) :=
  seen (exec i (at0 [(1, 0x0100), (2, 0x00FF), (3, sel)])) fun t => (t.reg 1, t.vram)

theorem test_swsg : videos (.swsg 1 2 3) 1 = some (0x0100, [⟨1, 0x0100, 0x00FF⟩]) := by decide
theorem test_swsgi : videos (.swsgi 1 2 3) 1 = some (0x0101, [⟨1, 0x0100, 0x00FF⟩]) := by decide
theorem test_swsgd : videos (.swsgd 1 2 3) 2 = some (0x00FF, [⟨2, 0x0100, 0x00FF⟩]) := by decide
theorem test_swsgi_cancelled : videos (.swsgi 1 2 3) 0 = some (0x0101, []) := by decide
theorem test_swsg_bank3 :
    exec (.swsg 1 2 3) (at0 [(3, 3)]) = .refused .videoSelector ∧
    exec (.swsg 1 2 3) (at0 [(3, 0x0101)]) = .refused .videoSelector := ⟨rfl, rfl⟩

theorem test_read :
    seen (exec (.read 2 1 3) { at0 [] with inq := State.reset.inq.set 2 [0x0041, 0x0042] })
      (fun t => (t.reg 3, t.cur.readFlag 1, t.inq[2])) = some (0x0041, true, [0x0042]) := by decide
theorem test_read_empty :
    seen (exec (.read 2 1 3) (at0 [(3, 7)])) (fun t => (t.reg 3, t.cur.readFlag 1, t.inq[2]))
      = some (7, false, []) := by decide
theorem test_write :
    seen (exec (.write 0 2 3) (at0 [(3, 0x0048)])) (fun t => (t.outq[0], t.cur.readFlag 2))
      = some ([0x0048], true) := by decide
theorem test_write_full :
    seen (exec (.write 0 2 3) { at0 [(3, 0x0048)] with
        outq := Vector.replicate 8 (List.replicate 256 7) })
      (fun t => (decide ((t.outq[0]).length = 256), t.cur.readFlag 2)) = some (true, false) := by
  decide +kernel

/-- A word an output device takes leaves the queue and stays in what the port received (R83, R365). -/
theorem test_drain :
    (({ at0 [] with outq := State.reset.outq.set 3 [5, 6] }.deviceMove (.drain 3)).outq[3],
      ({ at0 [] with outq := State.reset.outq.set 3 [5, 6] }.deviceMove (.drain 3)).portReceived 3)
      = ([6], [5, 6]) := by decide

/-! ## Threads -/

/-- Thread t's cycle, the threads of a mask active and every pc at 0x4000 + 0x100 t. -/
def turnOf (t : Tid) (tar : BitVec 4) : State :=
  { State.reset with
    turn := t
    tar := tar
    threads := Vector.ofFn fun u => { Thread.reset with pc := 0x4000 + 0x100 * BitVec.ofNat 16 u } }

/-- The barrier of vector V-L 1 to 3 with threads 2 and 0 stalled and thread 1 awaited. -/
def barrier : State :=
  { turnOf 1 0b0111 with
    wr := #v[0, 0, 0, 0b0010]
    ws := #v[⟨true, 3⟩, ⟨false, 0⟩, ⟨true, 3⟩, ⟨false, 0⟩] }

theorem test_wait_first :
    seen (exec (.wait 0b1010 2) (turnOf 1 0b1010)) (fun t => (t.wr[2], t.ws[1], (t.thread 1).pc))
      = some (0b1000, ⟨true, 2⟩, 0x4100) := by decide
theorem test_wait_last :
    seen (exec (.wait 0b0111 3) barrier) (fun t => (t.wr[3], maskOf t.stalled, (t.thread 0).pc,
      (t.thread 1).pc, (t.thread 2).pc)) = some (0, 0, 0x4002, 0x4102, 0x4202) := by decide
theorem test_kill_awaited :
    seen (exec .kill barrier) (fun t => (t.tar, t.wr[3], maskOf t.stalled, (t.thread 0).exr,
      (t.thread 2).spr2, (t.thread 2).pc, (t.thread 1).pc))
      = some (0b0101, 0, 0, 16, 0x4200, 0x0810, 0x4100) := by decide
theorem test_kill_alone : seen (exec .kill (turnOf 2 0b0101)) (fun t => (t.tar, (t.thread 2).pc))
    = some (0b0001, 0x4200) := by decide
theorem test_init :
    seen (exec (.init 5 3) (withThread 2 (fun th => setRegs th [(5, 0x4300)]) (turnOf 2 0b0100)))
      (fun t => ((t.thread 3).pc, (t.thread 2).pc, t.tar, t.activation))
      = some (0x4300, 0x4202, 0b0100, some ⟨3, 2⟩) := by decide
theorem test_init_active :
    seen (exec (.init 5 3) (turnOf 2 0b1100)) (fun t => ((t.thread 2).exr, (t.thread 2).spr2,
      (t.thread 2).pc, (t.thread 3).pc)) = some (8, 0x4200, 0x0810, 0x4300) := by decide

/-! ## Jumps -/

/-- Register 7, the pc, EXR and INTRMASK after an instruction. -/
def jumps (i : Instr) (s : State) : Option (Word × Word × Word × Bool) :=
  seen (exec i s) fun t => (t.reg 7, t.cur.pc, t.cur.exr, t.cur.imask)

/-- Thread 0 at an address. -/
def atPc (pc : Word) (regs : List (RegNum × Word)) : State :=
  withThread 0 (fun th => { th with pc := pc }) (at0 regs)

theorem test_jmpr : jumps (.jmpr 7 0) (atPc 0x4000 [(7, 0x4010)]) = some (0x4010, 0x4010, 0, false) := by
  decide
theorem test_jalr_self : jumps (.jalr 7 0) (atPc 0x4004 [(7, 0x4100)]) = some (0x4006, 0x4100, 0, false) := by
  decide
theorem test_jalr_untaken : jumps (.jalr 3 1) (atPc 0x4004 [(3, 0x4101)]) = some (0, 0x4006, 0, false) := by
  decide
theorem test_jalr_bad : jumps (.jalr 3 0) (atPc 0x4004 [(3, 0x8001)]) = some (0, 0x0010, 6, true) := by
  decide
theorem test_jmpi :
    jumps (.jmpi (-6) 1) (withThread 0 (fun th => { th with flag := 3 }) (atPc 0x4010 []))
      = some (0, 0x400A, 0, false) := by decide
theorem test_jali : jumps (.jali 16 0) (atPc 0x4004 []) = some (0x4006, 0x4014, 0, false) := by decide
theorem test_jmpSpr1 :
    jumps .jmpSpr1 (withThread 0 (fun th => { th with spr1 := 0x4022, imask := true }) (at0 []))
      = some (0, 0x4022, 0, false) := by decide
theorem test_jmpSpr1_unmasked :
    jumps .jmpSpr1 (withThread 0 (fun th => { th with spr1 := 0x4022 }) (at0 [])) = some (0, 0x0010, 1, true) := by
  decide

/-! ## System registers -/

/-- Register 1 after an instruction of thread 0. -/
def gets (i : Instr) (f : Thread → Thread) : Option Word :=
  seen (exec i (withThread 0 f (at0 []))) fun t => t.reg 1

theorem test_getFlag : gets (.getFlag 1) (fun th => { th with flag := 0b01000101 }) = some 0x0045 := by
  decide
theorem test_getSpr1 : gets (.getSpr1 1) (fun th => { th with spr1 := 0x4022 }) = some 0x4022 := by decide
theorem test_getSpr2 : gets (.getSpr2 1) (fun th => { th with spr2 := 0x4008 }) = some 0x4008 := by decide
theorem test_getIntr : gets (.getIntr 1) (fun th => { th with intr := 0x1300 }) = some 0x1300 := by decide
theorem test_getExr :
    seen (exec (.getExr 1) (withThread 0 (fun th => { th with exr := 6 }) (at0 [])))
      (fun t => (t.reg 1, t.cur.exr)) = some (6, 0) := by decide
theorem test_getExr_r0 :
    seen (exec (.getExr 0) (withThread 0 (fun th => { th with exr := 6 }) (at0 [])))
      (fun t => (t.reg 0, t.cur.exr)) = some (0, 0) := by decide
theorem test_getWaitReg :
    seen (exec (.getWaitReg 1) (at0 [(1, 0xFFFF)])) (fun t => t.reg 1)
      = some (joinBytes 0 (Config.waitRegView State.reset.wr)) := rfl
theorem test_getTar : seen (exec (.getTar 1) (turnOf 0 0b0101)) (fun t => t.reg 1) = some 5 := by decide
theorem test_getWs :
    seen (exec (.getWs 1) { turnOf 0 0b0011 with ws := State.reset.ws.set 1 ⟨true, 2⟩ }) (fun t => t.reg 1)
      = some 2 := by decide
theorem test_getThread : seen (exec (.getThread 1) (turnOf 2 0b0100)) (fun t => (t.thread 2).readReg 1)
    = some 2 := by decide
theorem test_putFlag : flags (.putFlag 2) (ab 0 0x00F0) = some 0b11110001 := by decide
theorem test_putSpr1 : seen (exec (.putSpr1 2) (ab 0 0x4022)) (fun t => t.cur.spr1) = some 0x4022 := by
  decide
theorem test_putDebug :
    seen (exec (.putDebug false) (withThread 0 (fun th => { th with debug := true }) (at0 [(0, 0x8280)])))
      (fun t => (t.cur.debug, t.reg 0)) = some (false, 0) := by decide
theorem test_putDebug_on : seen (exec (.putDebug true) (at0 [])) (fun t => t.cur.debug) = some true := by
  decide
theorem test_putIntrMask : seen (exec (.putIntrMask true) (at0 [])) (fun t => t.cur.imask) = some true := by
  decide
theorem test_nop : seen (exec .nop (at0 [])) (fun t => t.cur.pc) = some 0x4002 := by decide

/-! ## Cycles -/

/-- An unassigned word at the pc raises ILLEGAL_INSTRUCTION (R99), and the next cycle is thread 1's. -/
theorem test_step_unassigned :
    seen (step (State.reset.withFetchWord 16 0x7E00)) (fun t => ((t.thread 0).exr, (t.thread 0).pc, t.turn))
      = some (1, 0x0010, 1) := by decide

/-- A fetched instruction runs. -/
theorem test_step_runs :
    seen (step (State.reset.withFetchWord 16 0xDC08)) (fun t => ((t.thread 0).debug, (t.thread 0).pc))
      = some (true, 0x0002) := by decide

/-- Interrupt entry of thread 1 (vector V-L 17). -/
theorem test_interrupt_entry :
    seen (.next ({ turnOf 1 2 with irq := State.reset.irq.set 1 (some 0x2400) }.takeInterrupt 0x2400))
      (fun t => ((t.thread 1).intr, (t.thread 1).spr1, (t.thread 1).pc, t.irq[1]))
      = some (0x2400, 0x4100, 0x0500, none) := by decide

/-! ## States that meet the hypotheses of the statements -/

theorem meets_DecodeOfEncodeIsTheInstruction :
    Instr.wellFormed (.jmpi (-128) 7) = true ∧ Instr.wellFormed (.jali 127 0) = true ∧
    Instr.wellFormed (.wait 0b1111 3) = true := by decide +kernel

theorem meets_DecodingFollowsTheEncodingTable :
    decodeWord 0xFFFF = .ok .nop ∧ 0xFFFF &&& (rowOf .nop).mask = (rowOf .nop).value ∧
    decodeWord 0x0000 = .ok (.add8 0 0 0) ∧
    0x0000 &&& (rowOf (.add8 0 0 0)).mask = (rowOf (.add8 0 0 0)).value := by decide +kernel

/-- A word at the pc of thread 0. -/
def holding (pc w : Word) (regs : List (RegNum × Word)) : State := (atPc pc regs).storeWord pc w

theorem meets_UnassignedWordsRaiseIllegalInstruction :
    (IsAligned (holding 0 0x7E00 []).cur.pc ∧ (holding 0 0x7E00 []).cur.pc.toNat < 0x8000 ∧
      decodeWord ((holding 0 0x7E00 []).loadWord 0) = .error (.unassigned 15 3)) ∧
    (IsAligned (holding 0x7FFE 0xEFFF []).cur.pc ∧ (holding 0x7FFE 0xEFFF []).cur.pc.toNat < 0x8000 ∧
      decodeWord ((holding 0x7FFE 0xEFFF []).loadWord 0x7FFE) = .error (.unassigned 29 3)) := by
  unfold IsAligned; decide +kernel

theorem meets_StepRunsTheDecodedInstruction :
    let s := holding 0 0x0253 []; let s' := holding 0x7FFE 0xF800 []
    (s.beginCycle.runnable s.beginCycle.turn = true ∧ IsAligned s.beginCycle.cur.pc ∧
      s.beginCycle.cur.pc.toNat < 0x8000 ∧
      decodeWord (s.beginCycle.loadWord s.beginCycle.cur.pc) = .ok (.add16 1 2 3)) ∧
    (s'.beginCycle.runnable s'.beginCycle.turn = true ∧ IsAligned s'.beginCycle.cur.pc ∧
      s'.beginCycle.cur.pc.toNat < 0x8000 ∧
      decodeWord (s'.beginCycle.loadWord s'.beginCycle.cur.pc) = .ok .nop) := by
  unfold IsAligned; decide +kernel

theorem meets_DeadOrStalledThreadLetsItsCyclePass :
    (turnOf 3 0b0111).beginCycle.runnable 3 = false ∧ (turnOf 3 0b0111).runnable 3 = false ∧
    barrier.beginCycle.runnable 0 = false ∧ barrier.runnable 0 = false ∧
    (turnOf 3 0b0111).inputs = [] ∧ (turnOf 3 0b0111).activation = none := by decide +kernel

theorem meets_FetchOutsideProgramMemoryFaults :
    let odd := atPc 0x8001 []; let low := atPc 0x8000 []; let high := atPc 0xFFFE []
    (odd.beginCycle.runnable odd.turn = true ∧ ¬ IsAligned odd.beginCycle.cur.pc) ∧
    (low.beginCycle.runnable low.turn = true ∧ IsAligned low.beginCycle.cur.pc ∧
      0x8000 ≤ low.beginCycle.cur.pc.toNat) ∧
    (high.beginCycle.runnable high.turn = true ∧ IsAligned high.beginCycle.cur.pc ∧
      0x8000 ≤ high.beginCycle.cur.pc.toNat) := by
  unfold IsAligned; decide +kernel

theorem meets_ReadAfterWriteOfWords : IsAligned 0x0000 ∧ IsAligned 0xFFFE := by
  unfold IsAligned; decide +kernel

theorem meets_AlignedLoadsComplete :
    (IsAligned ((ab 0x0000 0).reg 1) ∧ ¬ ((1 : RegNum) = 2 ∧ ((2 : RegNum) ≠ 0 ∨ (ab 0 0).cur.debug = true))) ∧
    (IsAligned ((ab 0xFFFE 0).reg 1) ∧
      ¬ ((1 : RegNum) = 0 ∧ ((0 : RegNum) ≠ 0 ∨ (ab 0xFFFE 0).cur.debug = true))) ∧
    (IsAligned ((at0 []).reg 0) ∧ ¬ ((0 : RegNum) = 0 ∧ ((0 : RegNum) ≠ 0 ∨ (at0 []).cur.debug = true))) := by
  unfold IsAligned; decide +kernel

/-- The hypothesis of the statements about stores, of register 1 and the executing thread. -/
def MayStore (s : State) : Prop := IsAligned (s.reg 1) ∧ StorePermitted s.cur.pc (s.reg 1)

theorem meets_ForbiddenLoadsAndStoresRaise :
    ¬ IsAligned ((ab 0x0001 0).reg 1) ∧ ¬ IsAligned ((ab 0xFFFF 0).reg 1) ∧
    ¬ MayStore (ab 0x0000 0) ∧ ¬ MayStore (ab 0x4000 0) ∧ ¬ MayStore (ab 0x7FFE 0) ∧
    ¬ MayStore (ab 0x7FFF 0) ∧ ¬ MayStore (ab 0x8001 0) ∧ ¬ MayStore (atPc 0x0000 [(1, 0x3FFE)]) := by
  unfold MayStore IsAligned StorePermitted; decide +kernel

theorem meets_PermittedStoresComplete :
    MayStore (ab 0x8000 0) ∧ MayStore (ab 0xFFFE 0) ∧ MayStore (atPc 0x3FFE [(1, 0x4000)]) ∧
    MayStore (atPc 0x3FFE [(1, 0x7FFE)]) := by
  unfold MayStore IsAligned StorePermitted; decide +kernel

theorem meets_StoreAndFallThroughToPort :
    let full := { ab 0x8000 7 with outq := Vector.replicate 8 (List.replicate 256 7) }
    IsAligned (full.reg 1) ∧ StorePermitted full.cur.pc (full.reg 1) ∧ (full.outq[7]).length = 256 ∧
    IsAligned ((ab 0xFFFE 7).reg 1) ∧ StorePermitted (ab 0xFFFE 7).cur.pc ((ab 0xFFFE 7).reg 1) ∧
    ((ab 0xFFFE 7).outq[7]).length = 0 := by
  unfold IsAligned StorePermitted; decide +kernel

theorem meets_VideoStoresComplete :
    ((at0 []).reg 3).toNat ≤ 2 ∧ ((at0 [(3, 2)]).reg 3).toNat ≤ 2 := by decide +kernel

theorem meets_CasesWithoutAResultAreRefused :
    (IsAligned ((ab 0xFFFE 0).reg 1) ∧ ((1 : RegNum) ≠ 0 ∨ (ab 0xFFFE 0).cur.debug = true)) ∧
    (IsAligned ((withThread 0 (fun th => { th with debug := true }) (at0 [])).reg 0) ∧
      (withThread 0 (fun th => { th with debug := true }) (at0 [])).cur.debug = true) ∧
    2 < ((at0 [(3, 3)]).reg 3).toNat ∧ 2 < ((at0 [(3, 0xFFFF)]).reg 3).toNat ∧
    (turnOf 1 0b0011).active 3 = false ∧
    { turnOf 1 0b0011 with activation := some ⟨2, 0⟩ }.activation = some ⟨2, 0⟩ ∧
    (⟨2, 0⟩ : Activation).initiator ≠ (turnOf 1 0b0011).turn := by
  unfold IsAligned; decide +kernel

theorem meets_ReadTakesTheOldestWord :
    (State.reset.inq[(2 : Port)] = []) ∧
    ({ at0 [] with inq := State.reset.inq.set 2 [0x0041, 0x0042] }.inq[(2 : Port)] = 0x0041 :: [0x0042]) := by
  decide +kernel

theorem meets_FirstArrivalAtABarrier :
    ((∀ u : Tid, (0b0001#4).getLsbD u = true → (turnOf 0 0b0001).active u = true) ∧
      (0b0001#4).getLsbD (turnOf 0 0b0001).turn = true ∧ (turnOf 0 0b0001).wr[(3 : Point)] = 0 ∧
      (∀ u : Tid, (0b0001#4).getLsbD u = true → u = (turnOf 0 0b0001).turn)) ∧
    ((∀ u : Tid, (0b1111#4).getLsbD u = true → (turnOf 3 0b1111).active u = true) ∧
      (0b1111#4).getLsbD (turnOf 3 0b1111).turn = true ∧ (turnOf 3 0b1111).wr[(0 : Point)] = 0 ∧
      (∃ u : Tid, (0b1111#4).getLsbD u = true ∧ u ≠ (turnOf 3 0b1111).turn)) := by decide +kernel

/-- The barrier of vector V-L 1 to 3 with thread 2 stalled and threads 0 and 1 awaited. -/
def barrier2 : State :=
  { turnOf 0 0b0111 with
    wr := #v[0, 0, 0, 0b0011]
    ws := #v[⟨false, 0⟩, ⟨false, 0⟩, ⟨true, 3⟩, ⟨false, 0⟩] }

theorem meets_LaterArrivalAtABarrierStalls :
    (∀ u : Tid, (0b0111#4).getLsbD u = true → barrier2.active u = true) ∧
    (∀ u : Tid, (0b0111#4).getLsbD u =
      ((barrier2.wr[(3 : Point)]).getLsbD u || barrier2.stalledAt 3 u)) ∧
    (barrier2.wr[(3 : Point)]).getLsbD barrier2.turn = true ∧
    (∃ u : Tid, (barrier2.wr[(3 : Point)]).getLsbD u = true ∧ u ≠ barrier2.turn) := by decide +kernel

theorem meets_LastArrivalReleasesTheBarrier :
    (∀ u : Tid, (0b0111#4).getLsbD u = true → barrier.active u = true) ∧
    (∀ u : Tid, (0b0111#4).getLsbD u = ((barrier.wr[(3 : Point)]).getLsbD u || barrier.stalledAt 3 u)) ∧
    (∀ u : Tid, (barrier.wr[(3 : Point)]).getLsbD u = true ↔ u = barrier.turn) := by decide +kernel

theorem meets_WaitForDeadAndInitOfActiveRaise :
    ((0b0010#4).getLsbD (1 : Tid) = true ∧ (turnOf 0 0b0001).active 1 = false) ∧
    (turnOf 0 0b0001).active 0 = true ∧ (turnOf 0 0b1001).active 3 = true := by decide +kernel

theorem meets_MisfitWaitsHaveNoResult :
    ((∀ u : Tid, (0b0000#4).getLsbD u = true → (turnOf 0 0b0001).active u = true) ∧
      (0b0000#4).getLsbD (turnOf 0 0b0001).turn = false) ∧
    ((∀ u : Tid, (0b0011#4).getLsbD u = true → barrier.active u = true) ∧
      (0b0011#4).getLsbD barrier.turn = true ∧ barrier.wr[(3 : Point)] ≠ 0 ∧
      (∃ u : Tid, (0b0011#4).getLsbD u ≠
        ((barrier.wr[(3 : Point)]).getLsbD u || barrier.stalledAt 3 u))) ∧
    (let other := { barrier2 with wr := #v[0, 0, 0, 0b0010] };
      (∀ u : Tid, (0b0111#4).getLsbD u = true → other.active u = true) ∧
      (0b0111#4).getLsbD other.turn = true ∧ other.wr[(3 : Point)] ≠ 0 ∧
      (other.wr[(3 : Point)]).getLsbD other.turn = false) := by decide +kernel

theorem meets_KillEndsTheThreadAndItsBarriers :
    barrier.stalled barrier.turn = false ∧ WaitsFor barrier 0 barrier.turn ∧
    ¬ WaitsFor barrier 3 barrier.turn := by
  unfold WaitsFor; decide +kernel

theorem meets_HaltIsForEver :
    { State.reset with tar := 0 }.tar = 0 ∧ { State.reset with tar := 0 }.activation = none := ⟨rfl, rfl⟩

theorem meets_InitLoadsThePcOfADeadThread :
    (turnOf 2 0b0100).active (turnOf 2 0b0100).turn = true ∧ (turnOf 2 0b0100).active 3 = false ∧
    (turnOf 2 0b0100).activation = none := by decide +kernel

/-- Thread t's cycle; thread 0 at a NOP, thread 1 stalled at point 2 for thread 0, thread 2 runnable at a NOP
with an activation of thread 3 pending, one word in a queue each way, one Video RAM write. -/
def busy (t : Tid) : State :=
  { (((turnOf t 0b0111).storeWord 0x4000 0xF800).storeWord 0x4200 0xF800) with
    wr := #v[0, 0, 0b0001, 0]
    ws := #v[⟨false, 0⟩, ⟨true, 2⟩, ⟨false, 1⟩, ⟨false, 0⟩]
    inq := State.reset.inq.set 2 [7]
    outq := State.reset.outq.set 5 [8]
    vram := [⟨2, 0x0100, 0x00FF⟩]
    activation := some ⟨3, 2⟩ }

/-- The invariant of the machine holds of a state other than that of reset. -/
theorem busy_inv (t : Tid) : (busy t).Inv := by
  refine ⟨rfl, ?_, ?_, ?_, ?_, ?_, ?_, ?_⟩
  · revert t; unfold R0Rule; decide +kernel
  · revert t; unfold Flag0Rule; decide +kernel
  · revert t; unfold ExrRule; decide +kernel
  · intro p
    refine ⟨?_, ?_⟩
    · revert t p; decide +kernel
    · have h : ∀ (t : Tid) (p : Port), ((busy t).inq[p]).length ≤ 1 := by decide +kernel
      exact Nat.le_trans (h t p) (Nat.le_add_left 1 _)
  · intro v hv
    cases hv with
    | head => exact .inr rfl
    | tail _ hv => cases hv
  · revert t; unfold BarrierRule; decide +kernel
  · intro a ha
    cases ha
    revert t; decide +kernel

theorem meets_EveryStepKeepsTheInvariant : (busy 0).Inv ∧ ∃ s', step (busy 0) = .next s' :=
  ⟨busy_inv 0, _, rfl⟩

theorem meets_ActivationTakesOneMachineCycle :
    (busy 3).Inv ∧ (busy 3).activation = some ⟨3, 2⟩ ∧
    (busy 3).turn = (⟨3, 2⟩ : Activation).initiator + 1 ∧ ∃ s₃, runFor 3 (busy 3) = some s₃ :=
  ⟨busy_inv 3, rfl, rfl, _, rfl⟩

theorem meets_AnyFairContainsTheRoundRobin : (busy 3).Inv ∧ ∃ s₄, runFor 4 (busy 3) = some s₄ :=
  ⟨busy_inv 3, _, rfl⟩

/-- Thread t's cycle; thread 0 at a jump to itself, JMPI 0, 0, the others dead. -/
def looping (t : Tid) : State := (turnOf t 0b0001).storeWord 0x4000 0xA800

theorem looping_inv (t : Tid) : (looping t).Inv := by
  refine ⟨rfl, ?_, ?_, ?_, fun p => ⟨?_, ?_⟩, (fun _ h => nomatch h), ?_, (fun _ h => nomatch h)⟩
  · revert t; unfold R0Rule; decide
  · revert t; unfold Flag0Rule; decide
  · revert t; unfold ExrRule; decide
  · revert t p; decide
  · have h : ∀ (t : Tid) (p : Port), ((looping t).inq[p]).length ≤ 0 := by decide
    exact Nat.le_trans (h t p) (Nat.zero_le _)
  · revert t; unfold BarrierRule; decide

theorem looping_step (t : Tid) : step (looping t) = .next (looping (t + 1)) := by
  fin_cases t <;> rfl

/-- An unending run in which a thread is runnable in every cycle. -/
theorem meets_RoundRobinStepsEveryRunnableThread :
    (looping 0).Inv ∧ (looping 0).runnable 0 = true ∧
    ∃ σ : Nat → State, σ 0 = looping 0 ∧ ∀ n, step (σ n) = .next (σ (n + 1)) := by
  refine ⟨looping_inv 0, rfl, fun n => looping (Fin.ofNat 4 n), rfl, fun n => ?_⟩
  have h : (Fin.ofNat 4 n + 1 : Tid) = Fin.ofNat 4 (n + 1) := by
    apply Fin.ext
    simp [Fin.val_add]
  rw [looping_step, h]

theorem meets_JumpsCheckLinkAndGo :
    ((at0 []).cur.readFlag 7 = false) ∧
    ((ab 0x7FFE 0).cur.readFlag 0 = true ∧ IsAligned ((ab 0x7FFE 0).reg 1) ∧
      ((ab 0x7FFE 0).reg 1).toNat < 0x8000) ∧
    ¬ IsAligned ((ab 0x0001 0).reg 1) ∧ ¬ ((ab 0x8000 0).reg 1).toNat < 0x8000 ∧
    (IsAligned (BitVec.ofInt 16 ((atPc 0x7F80 []).cur.pc.toNat + 126)) ∧
      (BitVec.ofInt 16 ((atPc 0x7F80 []).cur.pc.toNat + 126)).toNat < 0x8000) ∧
    ¬ (BitVec.ofInt 16 ((atPc 0x7FFE []).cur.pc.toNat + 2)).toNat < 0x8000 ∧
    ¬ IsAligned (BitVec.ofInt 16 ((atPc 0x4000 []).cur.pc.toNat + (-127))) := by
  unfold IsAligned; decide +kernel

theorem meets_ReturnFromInterrupt :
    (withThread 0 (fun th => { th with imask := true }) (at0 [])).cur.imask = true ∧
    (at0 []).cur.imask = false := by decide +kernel

/-- Thread 1's cycle with a request pending for it. -/
def requested : State := { turnOf 1 0b0010 with irq := State.reset.irq.set 1 (some 0x2400) }

theorem meets_InterruptBoundary :
    (turnOf 1 0b0010).irq[(turnOf 1 0b0010).turn] = none ∧ barrier.runnable 0 = false ∧
    (requested.raise [.illegalAddress]).cur.imask = true ∧ HoldsOff (.putIntrMask false) ∧
    requested.irq[requested.turn] = some 0x2400 ∧ requested.runnable requested.turn = true ∧
    requested.cur.imask = false ∧ ¬ HoldsOff .nop :=
  ⟨rfl, rfl, rfl, .inr (.inr (.inr (.inr (.inr ⟨false, rfl⟩)))), rfl, rfl, rfl,
    by unfold HoldsOff; simp⟩

/-- Code below 0x4000 stores at 0x4000, and the byte there changes. -/
theorem meets_EveryStepRespectsWriteProtection :
    let s := (holding 0x3FFE 0x8050 [(1, 0x4000), (2, 0x1234)]).storeWord 0x4000 0
    ∃ s', step s = .next s' ∧ Memory.readByte s'.mem 0x4000 ≠ Memory.readByte s.mem 0x4000 :=
  ⟨_, rfl, by decide⟩

/-- A step of thread 1 whose KILL delivers ILLEGAL_WAIT to thread 0, and one that leaves thread 2 alone. -/
theorem meets_NoStepWritesAnotherThreadsPrivateState :
    (let s := barrier.storeWord 0x4100 0x9200;
      ((0 : Tid) ≠ s.turn ∧ decodeWord (s.loadWord s.cur.pc) = .ok .kill ∧ ∃ s', step s = .next s')) ∧
    ((2 : Tid) ≠ (busy 0).turn ∧ ∃ s', step (busy 0) = .next s') :=
  ⟨⟨by decide, rfl, _, rfl⟩, by decide, _, rfl⟩

/-- Two machines that differ in thread 1's R3, at a step that answers next, one that faults and one that
refuses. -/
theorem meets_NoStepReadsAnotherThreadsPrivateState :
    (∀ pc w, AgreeButPrivate 1 (holding pc w []) (withThread 1 (fun th => setRegs th [(3, 9)]) (holding pc w []))) ∧
    (1 : Tid) ≠ (holding 0x4000 0xF800 []).turn ∧
    (∃ t, step (holding 0x4000 0xF800 []) = .next t) ∧
    step (holding 0x8000 0xF800 []) = .fault .fetchOutsideProgramMemory ∧
    step (holding 0x4000 0x9000 []) = .refused .waitWithoutSelf :=
  ⟨fun _ _ => rfl, by decide, ⟨_, rfl⟩, rfl, rfl⟩

/-- A step that completes an activation, and a KILL. -/
theorem meets_OnlyInitAndKillChangeTheActiveThreads :
    (∃ s', step (busy 2) = .next s' ∧ (busy 2).active 3 = false ∧ s'.active 3 = true) ∧
    ∃ s', step (holding 0x4000 0x9200 []) = .next s' ∧ (holding 0x4000 0x9200 []).active 0 = true ∧
      s'.active 0 = false :=
  ⟨⟨_, rfl, rfl, rfl⟩, _, rfl, rfl, rfl⟩

theorem meets_OnlyTheListedWritersChangeFlags :
    ∃ s', exec (.add16 1 2 3) (ab 0xFFFF 1) = .next s' ∧
      (s'.thread 0).readFlag 6 ≠ ((ab 0xFFFF 1).thread 0).readFlag 6 :=
  ⟨_, rfl, by decide⟩

/-- Another thread's EXR, and one's own by an exception. -/
theorem meets_OnlyGetExrClearsExceptionBits :
    (∃ s', exec (.getExr 1) (at0 []) = .next s' ∧ (1 : Tid) ≠ (at0 []).turn) ∧
    ∃ s', exec (.lw 1 2) (ab 0x9001 0) = .next s' ∧ (∀ rd, Instr.lw 1 2 ≠ .getExr rd) ∧
      (s'.thread 0).exr ≠ ((ab 0x9001 0).thread 0).exr :=
  ⟨⟨_, rfl, by decide⟩, _, rfl, by simp, by decide⟩

theorem meets_R0IsNotWritableOutsideDebugMode :
    (∃ s', exec (.notW 0 0) (at0 []) = .next s' ∧ ((at0 []).thread 0).debug = false) ∧
    ∃ s', exec (.putDebug false) (at0 []) = .next s' ∧ ((at0 []).thread 0).debug = false :=
  ⟨⟨_, rfl, rfl⟩, _, rfl, rfl⟩

end Sys2Proof.Tests
end

section
/-!
PROOFS. The statements of spec/00_scope.md: words read after they were written (R11), loads (R9), and R0 outside
debug mode (R9, R22).
-/

namespace Sys2Proof.Machine

/-! ## Words and their byte images (R11, R64) -/

/-- Storing a word leaves every word at another aligned address as it was. -/
theorem Memory.readWord_writeWord_of_ne (m : Memory) {a b : Word} (v : Word) (ha : IsAligned a)
    (hb : IsAligned b) (hne : b ≠ a) : Memory.readWord (Memory.writeWord m a v) b = Memory.readWord m b := by
  have hn : b.toNat ≠ a.toNat := fun e => hne (BitVec.eq_of_toNat_eq e)
  have ha' := wordBase_of_even ((isOdd_eq_false_iff a).mpr ha)
  have hb' := wordBase_of_even ((isOdd_eq_false_iff b).mpr hb)
  unfold IsAligned at ha hb
  rw [Memory.readWord, Memory.readWord, Memory.readByte_writeWord_of_ne _ _ _ (by omega) (by omega),
    Memory.readByte_writeWord_of_ne _ _ _ (by omega) (by omega)]

/-- The byte image after a word is stored: the two bytes of the word as the byte order lays them out, and every
other byte as before. -/
theorem Memory.imageByte_writeWord (o : ByteOrder) (m : Memory) {a : Word} (v : Word) (ha : IsAligned a)
    (c : Nat) :
    Memory.imageByte o (Memory.writeWord m a v) c =
      if c = a.toNat then (bytesOfWord o v).1 else if c = a.toNat + 1 then (bytesOfWord o v).2
      else Memory.imageByte o m c := by
  rw [Memory.imageByte, Memory.imageByte, Memory.readByte_writeWord,
    wordBase_of_even ((isOdd_eq_false_iff a).mpr ha)]
  unfold IsAligned at ha
  by_cases hlow : c = a.toNat
  · subst hlow
    cases o <;> simp [byteCell, bytesOfWord, ha]
  · by_cases hhigh : c = a.toNat + 1
    · subst hhigh
      have hodd : (a.toNat + 1) % 2 = 1 := by omega
      cases o <;> simp [byteCell, bytesOfWord, hodd]
    · have hhalf := byteCell_half o c
      rw [if_neg hlow, if_neg hhigh, if_neg (by omega), if_neg (by omega)]

/-! ## Loads (R195) -/

/-- `LW` from an aligned address: one register written (R196). -/
theorem State.load_unstepped_completes (s : State) (ra rd : RegNum) (ha : IsAligned (s.reg ra)) :
    ∃ t, s.load none ra rd = .next t ∧ DataEffect s t rd (s.loadWord (s.reg ra)) noFlags := by
  have h := s.load_completes none ra rd ha rfl
  simp only [Thread.writable_iff] at h
  exact h

theorem Thread.loadClash_eq_false_iff (th : Thread) (ra rd : RegNum) (w : Word) :
    th.loadClash ra rd (some w) = false ↔ ¬ (ra = rd ∧ (rd ≠ 0 ∨ th.debug = true)) := by
  rw [← Thread.writable_iff, ← Bool.not_eq_true]
  simp only [Thread.loadClash, Option.isSome_some, Bool.true_and, Bool.and_eq_true, beq_iff_eq]
  exact not_congr (and_congr_right fun e => by rw [e])

/-- A stepping load from an aligned address whose two register writes do not clash (R197, R198). -/
theorem State.load_stepped_completes (s : State) (d : Int) (w : Word) (hw : w = BitVec.ofInt 16 d)
    (ra rd : RegNum) (ha : IsAligned (s.reg ra)) (hc : ¬ (ra = rd ∧ (rd ≠ 0 ∨ s.cur.debug = true))) :
    ∃ t, s.load (some w) ra rd = .next t ∧ OwnEffect s t s.cur
      (fun r => if r = rd ∧ (rd ≠ 0 ∨ s.cur.debug = true) then s.loadWord (s.reg ra)
        else regsStepped s.cur ra (some d) r) (flagsWith s.cur noFlags) (s.cur.pc + 2) := by
  have h := s.load_completes (some w) ra rd ha ((s.cur.loadClash_eq_false_iff _ _ _).mpr hc)
  simp only [Thread.writable_iff, Thread.readReg_stepReg _ _ d w hw] at h
  exact h

/-! ## R0 outside debug mode (R9, R22) -/

/-- No thread with DEBUG = 0 has another R0 afterwards. -/
def KeepsR0 (s t : State) : Prop :=
  ∀ u : Tid, (s.thread u).debug = false → (t.thread u).readReg 0 = (s.thread u).readReg 0

/-- No thread has other general registers or another DEBUG: what an instruction does before it retires. -/
def SameRegisters (s t : State) : Prop :=
  ∀ u : Tid, (t.thread u).regs = (s.thread u).regs ∧ (t.thread u).debug = (s.thread u).debug

theorem sameRegisters_of_threads {s t : State} (h : t.threads = s.threads) : SameRegisters s t :=
  fun u => by rw [State.thread, State.thread, h]; exact ⟨rfl, rfl⟩

theorem keepsR0_of_regs {s t : State} (h : ∀ u, (t.thread u).regs = (s.thread u).regs) : KeepsR0 s t :=
  fun u _ => by rw [Thread.readReg, Thread.readReg, h u]

/-- A write to R0 is dropped while DEBUG is 0, and one to another register leaves R0. -/
theorem Thread.readReg_zero_writeReg {th : Thread} (r : RegNum) (v : Word) (hd : th.debug = false) :
    (th.writeReg r v).readReg 0 = th.readReg 0 := by
  rw [Thread.readReg_writeReg, if_neg]
  rintro ⟨rfl, hw⟩
  simp [Thread.writable, hd] at hw

theorem Thread.readReg_zero_stepReg {th : Thread} (ra : RegNum) (step : Option Word) (hd : th.debug = false) :
    (th.stepReg ra step).readReg 0 = th.readReg 0 := by
  cases step with
  | none => rfl
  | some d => exact Thread.readReg_zero_writeReg _ _ hd

theorem Thread.readReg_zero_writeAlu {th : Thread} (rd : RegNum) (r : AluOut) (hd : th.debug = false) :
    (th.writeAlu rd r).readReg 0 = th.readReg 0 := by
  rw [Thread.readReg_writeAlu, ← Thread.readReg_writeReg_eq, Thread.readReg_zero_writeReg _ _ hd]

theorem keepsR0_updCur {s s₁ : State} {f : Thread → Thread} (hs : SameRegisters s s₁)
    (hf : s₁.cur.debug = false → (f s₁.cur).readReg 0 = s₁.cur.readReg 0) : KeepsR0 s (s₁.updCur f) := by
  intro u hd
  obtain ⟨hregs, hdebug⟩ := hs u
  have hr : (s₁.thread u).readReg 0 = (s.thread u).readReg 0 := by rw [Thread.readReg, Thread.readReg, hregs]
  rw [State.thread_updCur]
  split
  · subst_vars
    exact (hf (hdebug.trans hd)).trans hr
  · exact hr

/-- `retire`, in a state where registers and DEBUG are still those of `s`, keeps R0 if the change does. -/
theorem keepsR0_retire {s s₁ t : State} {f : Thread → Thread} (h : s₁.retire f = .next t)
    (hs : SameRegisters s s₁) (hf : s₁.cur.debug = false → (f s₁.cur).readReg 0 = s₁.cur.readReg 0) :
    KeepsR0 s t := by
  cases h
  exact keepsR0_updCur hs hf

theorem keepsR0_raise (s : State) (es : List Exc) : KeepsR0 s (s.raise es) :=
  keepsR0_updCur (sameRegisters_of_threads rfl) fun _ => rfl

theorem keepsR0_guarded {s t : State} {es : List Exc} {go : Result} (h : s.guarded es go = .next t)
    (hgo : go = .next t → KeepsR0 s t) : KeepsR0 s t := by
  rcases State.guarded_next h with ⟨-, hg⟩ | ⟨-, rfl⟩
  · exact hgo hg
  · exact keepsR0_raise s es

theorem keepsR0_retireReg {s t : State} {rd : RegNum} {v : Word} (h : s.retireReg rd v = .next t) :
    KeepsR0 s t :=
  keepsR0_retire h (sameRegisters_of_threads rfl) (Thread.readReg_zero_writeReg rd v)

theorem keepsR0_retireAlu {s t : State} {rd : RegNum} {r : AluOut} (h : s.retireAlu rd r = .next t) :
    KeepsR0 s t :=
  keepsR0_retire h (sameRegisters_of_threads rfl) (Thread.readReg_zero_writeAlu rd r)

theorem keepsR0_compareWords {s t : State} {rel : Rel} {ra rb : RegNum} {cb : FlagNum}
    (h : s.compareWords rel ra rb cb = .next t) : KeepsR0 s t :=
  keepsR0_retire h (sameRegisters_of_threads rfl) fun _ => rfl

theorem keepsR0_compareLanes {s t : State} {rel : Rel} {ra rb : RegNum} {cb : FlagNum}
    (h : s.compareLanes rel ra rb cb = .next t) : KeepsR0 s t := by
  refine keepsR0_retire h (sameRegisters_of_threads rfl) fun _ => ?_
  split <;> rfl

theorem keepsR0_load {s t : State} {step : Option Word} {ra rd : RegNum} (h : s.load step ra rd = .next t) :
    KeepsR0 s t := by
  refine keepsR0_guarded h fun hg => ?_
  split at hg
  · cases hg
  · refine keepsR0_retire hg (sameRegisters_of_threads rfl) fun hd => ?_
    rw [Thread.readReg_zero_writeReg _ _ ((Thread.debug_stepReg _ _ _).trans hd),
      Thread.readReg_zero_stepReg _ _ hd]

theorem keepsR0_store {s t : State} {step : Option Word} {ra rb : RegNum} (h : s.store step ra rb = .next t) :
    KeepsR0 s t :=
  keepsR0_guarded h fun hg =>
    keepsR0_retire hg (sameRegisters_of_threads rfl) (Thread.readReg_zero_stepReg ra step)

theorem keepsR0_videoStore {s t : State} {step : Option Word} {ra rb rd : RegNum}
    (h : s.videoStore step ra rb rd = .next t) : KeepsR0 s t := by
  simp only [State.videoStore] at h
  split at h
  · exact keepsR0_retire h (sameRegisters_of_threads rfl) (Thread.readReg_zero_stepReg _ step)
  · split at h
    · exact keepsR0_retire h (sameRegisters_of_threads rfl) (Thread.readReg_zero_stepReg _ step)
    · cases h

/-- A jump writes at most the link register R7. -/
theorem keepsR0_jump {s t : State} {cb : FlagNum} {link : Bool} {target : Word}
    (h : s.jump cb link target = .next t) : KeepsR0 s t := by
  unfold State.jump at h
  split at h
  · refine keepsR0_guarded h fun hg => ?_
    cases hg
    refine keepsR0_updCur (sameRegisters_of_threads rfl) fun hd => ?_
    split
    · exact Thread.readReg_zero_writeReg _ _ hd
    · rfl
  · split at h
    · exact keepsR0_retire h (sameRegisters_of_threads rfl) (Thread.readReg_zero_writeReg _ _)
    · exact keepsR0_retire h (sameRegisters_of_threads rfl) fun _ => rfl

/-- Everything a `PortRead` that finds a word can do: it takes the word off its queue. -/
theorem State.portRead_eq_some {s t : State} {p : Port} {v : Word} (h : s.portRead p = some (v, t)) :
    ∃ rest, s.inq[p] = v :: rest ∧ t = { s with inq := s.inq.set p rest } := by
  unfold State.portRead at h
  split at h
  · cases h
  · rename_i rest hq
    cases h
    exact ⟨rest, hq, rfl⟩

theorem keepsR0_read {s t : State} {p : Port} {cb : FlagNum} {rd : RegNum}
    (h : execRead p cb rd s = .next t) : KeepsR0 s t := by
  unfold execRead at h
  split at h
  · rename_i hp
    obtain ⟨rest, -, rfl⟩ := State.portRead_eq_some hp
    exact keepsR0_retire h (sameRegisters_of_threads rfl) (Thread.readReg_zero_writeReg rd _)
  · exact keepsR0_retire h (sameRegisters_of_threads rfl) fun _ => rfl

/-- Whatever a WAIT does, to its own thread or to those it releases, no register changes. -/
theorem keepsR0_wait {s t : State} {m : BitVec 4} {p : Point} (h : execWait m p s = .next t) :
    KeepsR0 s t := by
  rcases execWait_cases h with ⟨-, rfl⟩ | ⟨-, -, ⟨-, -, rfl⟩ | ⟨-, -, rfl⟩ | ⟨-, -, -, rfl⟩ | ⟨-, -, -, rfl⟩⟩
  · exact keepsR0_raise s _
  · exact keepsR0_updCur (sameRegisters_of_threads rfl) fun _ => rfl
  · exact keepsR0_of_regs fun _ => rfl
  · refine keepsR0_of_regs fun u => ?_
    rw [State.thread_release]
    split <;> rfl
  · exact keepsR0_of_regs fun _ => rfl

/-- The exceptions a KILL delivers change no register. -/
theorem keepsR0_kill {s t : State} (h : execKill s = .next t) : KeepsR0 s t := by
  cases h
  refine keepsR0_of_regs fun u => ?_
  change ((s.deliverIllegalWait s.turn).thread u).regs = _
  rw [State.thread_deliver]
  split <;> rfl

/-- An INIT loads the target's pc, not its registers. -/
theorem keepsR0_init {s t : State} {ra : RegNum} {target : Tid} (h : execInit ra target s = .next t) :
    KeepsR0 s t := by
  rcases execInit_cases h with ⟨-, rfl⟩ | ⟨-, -, hr⟩
  · exact keepsR0_raise s _
  · refine keepsR0_retire hr (fun u => ?_) fun _ => rfl
    change ((s.setThread target _).thread u).regs = _ ∧ ((s.setThread target _).thread u).debug = _
    rw [State.thread_setThread]
    split
    · subst_vars; exact ⟨rfl, rfl⟩
    · exact ⟨rfl, rfl⟩

/-- Every instruction but PUT.DEBUG 0 leaves R0 of every thread whose DEBUG is 0. -/
theorem exec_keepsR0 {i : Instr} {s t : State} (h : exec i s = .next t) (hi : i ≠ .putDebug false) :
    KeepsR0 s t := by
  cases i with
  | add8 | add16 | sub8 | sub16 | avg8 | avg16 | savg8 | savg16 | addi8 | addi16 | subi8 | subi16
  | macLo | macHi | mulLo | mulHi => exact keepsR0_retireAlu h
  | rsl8 | rsl16 | rsa8 | rsa16 | lsl8 | lsl16 | rot8 | rot16
  | mixLo | mixHi | muxLo | muxHi | andW | orW | xorW | notW | copyLo | copyHi | swap | liHi | liLo
  | getFlag | getSpr1 | getSpr2 | getWaitReg | getTar | getWs | getIntr | getThread =>
    exact keepsR0_retireReg h
  | cmpEq16 | cmpNe16 | cmpGt16 | cmpGe16 | cmpLt16 | cmpLe16 => exact keepsR0_compareWords h
  | cmpEq8 | cmpNe8 | cmpGt8 | cmpGe8 | cmpLt8 | cmpLe8 => exact keepsR0_compareLanes h
  | lw | lwi | lwd => exact keepsR0_load h
  | sw | swi | swd => exact keepsR0_store h
  | swsg | swsgi | swsgd => exact keepsR0_videoStore h
  | jmpr | jalr | jmpi | jali => exact keepsR0_jump h
  | read => exact keepsR0_read h
  | wait => exact keepsR0_wait h
  | kill => exact keepsR0_kill h
  | init => exact keepsR0_init h
  | swft ra rb rd =>
    exact keepsR0_guarded (es := storeExc s.cur.pc (s.reg ra)) h fun hg =>
      keepsR0_retire hg (sameRegisters_of_threads rfl) fun _ => rfl
  | jmpSpr1 =>
    refine keepsR0_guarded (es := returnExc s.cur.imask) h fun hg => ?_
    cases hg
    exact keepsR0_updCur (sameRegisters_of_threads rfl) fun _ => rfl
  | getExr rd =>
    exact keepsR0_retire h (sameRegisters_of_threads rfl) (Thread.readReg_zero_writeReg rd s.cur.exr)
  | putDebug value =>
    cases value with
    | false => exact absurd rfl hi
    | true => exact keepsR0_retire h (sameRegisters_of_threads rfl) fun _ => rfl
  | write | putFlag | putSpr1 | putIntrMask | nop =>
    exact keepsR0_retire h (sameRegisters_of_threads rfl) fun _ => rfl

/-- PUT.DEBUG 0 clears R0 of its own thread and leaves the other threads alone (R276). -/
theorem execPutDebug_false_thread {s t : State} (h : execPutDebug false s = .next t) (u : Tid) :
    (u = s.turn ∧ (t.thread u).readReg 0 = 0) ∨ t.thread u = s.thread u := by
  cases h
  rw [State.thread_updCur]
  split
  · rename_i hu
    exact .inl ⟨hu, Vector.getElem_set_self _⟩
  · exact .inr rfl

/-! ## The statements -/

/-- Settles O23: read after write and separation of words, and the byte image by `imageByte_writeWord`. -/
theorem readAfterWriteOfWords : Obligations.ReadAfterWriteOfWords := by
  intro m a b v ha hb
  refine ⟨?_, fun o => ?_⟩
  · split
    · subst_vars; exact Memory.readWord_writeWord_same m _ v
    · exact Memory.readWord_writeWord_of_ne m v ha hb ‹_›
  · have himage := Memory.imageByte_writeWord o m v ha
    refine ⟨(himage _).trans (if_pos rfl), ?_, fun c hlow hhigh => ?_⟩
    · rw [himage, if_neg (Nat.succ_ne_self _), if_pos rfl]
    · rw [himage, if_neg hlow, if_neg hhigh]

/-- Settles O24: the three rows of the encoding table, then the loads without and with a step. -/
theorem alignedLoadsComplete : Obligations.AlignedLoadsComplete := by
  refine ⟨decodesAs_of_sub 15 0 rfl rfl fun _ => rfl, decodesAs_of_sub 15 1 rfl rfl fun _ => rfl,
    decodesAs_of_sub 15 2 rfl rfl fun _ => rfl, fun s ra rd ha => ⟨?_, fun hc => ⟨?_, ?_⟩⟩⟩
  · exact s.load_unstepped_completes ra rd ha
  · exact s.load_stepped_completes 2 2 (by decide) ra rd ha hc
  · exact s.load_stepped_completes (-2) (-2) (by decide) ra rd ha hc

/-- Settles O58: every instruction but PUT.DEBUG 0 keeps R0, and PUT.DEBUG 0 clears that of its own thread. -/
theorem r0IsNotWritableOutsideDebugMode : Obligations.R0IsNotWritableOutsideDebugMode := by
  intro i s t u h hd
  by_cases hi : i = .putDebug false
  · subst hi
    rcases execPutDebug_false_thread h u with ⟨hu, h0⟩ | hsame
    · exact .inr ⟨rfl, hu, h0⟩
    · exact .inl (by rw [hsame])
  · exact .inl (exec_keepsR0 h hi u hd)

end Sys2Proof.Machine
end

section
/-!
PROOFS. The statements of spec/10_state.md: reset and the invariant of the machine (R40), isolation of the
threads' own registers (R20), exception entry (R28, R305), and who changes TAR, FLAG and EXR (R34, R27, R28).
-/

namespace Sys2Proof.Machine

/-! ## What an instruction and a step lead to -/

/-- The machine after a KILL of the executing thread (R230, R231). -/
def State.killed (s : State) : State :=
  { s.deliverIllegalWait s.turn with tar := clearBit s.tar s.turn }

theorem execKill_eq (s : State) : execKill s = .next s.killed := rfl

theorem State.thread_killed (s : State) (u : Tid) :
    s.killed.thread u =
      if s.awaits u s.turn then Thread.enterException u [.illegalWait] (s.thread u) else s.thread u :=
  s.thread_deliver s.turn u

theorem State.wr_killed (s : State) (p : Point) :
    s.killed.wr[p] = if (s.wr[p]).getLsbD s.turn then 0 else s.wr[p] := s.wr_deliver s.turn p

theorem State.ws_killed (s : State) (u : Tid) :
    s.killed.ws[u] = if s.awaits u s.turn then ⟨false, (s.ws[u]).s⟩ else s.ws[u] := s.ws_deliver s.turn u

theorem State.active_killed (s : State) (u : Tid) : s.killed.active u = (s.active u && u != s.turn) :=
  getLsbD_clearBit s.tar s.turn u

/-- The states an instruction can lead to: those of a local step, and what WAIT, KILL and INIT can do besides. -/
inductive ExecLeads (i : Instr) (s : State) : State → Prop
  /-- A change of the executing thread and of memory, ports and Video RAM. -/
  | ownStep {t : State} (hlocal : LocalStep s t) : ExecLeads i s t
  /-- The executing thread stalls at point `p`, the others of `row` awaited: the mask of a first arrival, or the row
  of the barrier in progress (R227). -/
  | stall (p : Point) (row : BitVec 4) (hactive : ∀ u : Tid, row.getLsbD u = true → s.active u = true)
      (hrow : s.wr[p] = 0 ∨ row = s.wr[p]) (hothers : clearBit row s.turn ≠ 0) :
      ExecLeads i s ((s.setRow p (clearBit row s.turn)).stallAt p)
  /-- The executing thread arrives last at point `p` (R227). -/
  | release (p : Point) (hrow : (s.wr[p]).getLsbD s.turn = true) : ExecLeads i s (s.release p)
  /-- The executing thread dies (R230, R231). -/
  | kill (hi : i = .kill) : ExecLeads i s s.killed
  /-- An activation of the dead thread `u` is left pending (R235, R236). -/
  | start (u : Tid) (a : Word) (hdead : s.active u = false) (hnone : s.activation = none) :
      ExecLeads i s ((s.startThread u a).updCur Thread.advance)

theorem execLeads_wait {m : BitVec 4} {p : Point} {s t : State} (h : execWait m p s = .next t) :
    ExecLeads (.wait m p) s t := by
  rcases execWait_cases h with ⟨-, rfl⟩ | ⟨hexc, -, hcases⟩
  · exact .ownStep (localStep_raise s _)
  · have hactive := (waitExc_eq_nil_iff s.tar m).mp hexc
    rcases hcases with ⟨-, -, rfl⟩ | ⟨hrow, hothers, rfl⟩ | ⟨hturn, -, -, rfl⟩ | ⟨-, hmask, hothers, rfl⟩
    · exact .ownStep (localStep_updCur s _ (Thread.keeps_advance _))
    · exact .stall p m hactive (.inl hrow) hothers
    · exact .release p hturn
    · refine .stall p (s.wr[p]) (fun u hu => hactive u ?_) (.inr rfl) hothers
      rw [hmask, getLsbD_barrierMask, hu, Bool.true_or]

theorem execLeads_init {ra : RegNum} {u : Tid} {s t : State} (h : execInit ra u s = .next t) :
    ExecLeads (.init ra u) s t := by
  rcases execInit_cases h with ⟨-, rfl⟩ | ⟨hdead, hnone, hretire⟩
  · exact .ownStep (localStep_raise s _)
  · cases hretire
    exact .start u _ hdead hnone

/-- Everything an instruction can lead to. -/
theorem exec_leads {i : Instr} {s t : State} (h : exec i s = .next t) : ExecLeads i s t := by
  by_cases hwait : ∃ m p, i = .wait m p
  · obtain ⟨m, p, rfl⟩ := hwait
    exact execLeads_wait h
  by_cases hinit : ∃ r u, i = .init r u
  · obtain ⟨r, u, rfl⟩ := hinit
    exact execLeads_init h
  by_cases hkill : i = .kill
  · subst hkill
    cases h
    exact .kill rfl
  · push Not at hwait hinit
    exact .ownStep (exec_local h hwait hkill hinit)

/-- Everything a step can do when it answers a next state: the thread lets its cycle pass, raises
ILLEGAL_INSTRUCTION, or executes the instruction at its pc and passes its boundary. -/
theorem step_executes {s s' : State} (h : step s = .next s') :
    s' = s.beginCycle.rotate ∨
    s' = (s.beginCycle.raise [.illegalInstruction]).rotate ∨
    ∃ i t, s.beginCycle.runnable s.turn = true ∧ decodeWord (s.loadWord s.cur.pc) = .ok i ∧
      exec i s.beginCycle = .next t ∧ s' = (t.boundary i).rotate := by
  rcases step_cases h with ⟨-, rfl⟩ | ⟨hrun, t, hturn, rfl⟩
  · exact .inl rfl
  · obtain ⟨w, hfetch, ⟨e, -, rfl⟩ | ⟨i, t₁, hdecode, hexec, rfl⟩⟩ := State.runTurn_cases hturn
    · exact .inr (.inl rfl)
    · obtain ⟨-, -, hword⟩ := (State.fetch_eq_ok_iff _ w).mp hfetch
      rw [State.loadWord, State.mem_beginCycle, State.cur_beginCycle] at hword
      exact .inr (.inr ⟨i, t₁, hrun, by rw [State.loadWord, hword]; exact hdecode, hexec, rfl⟩)

theorem exec_turn {i : Instr} {s t : State} (h : exec i s = .next t) : t.turn = s.turn := by
  cases exec_leads h with
  | ownStep hlocal =>
    obtain ⟨-, -, -, -, -, hturn, -⟩ := hlocal.shared
    exact hturn
  | stall | release | kill | start => rfl

/-- TAR after an instruction: only KILL changes it (R34, R230). -/
theorem exec_tar {i : Instr} {s t : State} (h : exec i s = .next t) :
    t.tar = s.tar ∨ (i = .kill ∧ t.tar = clearBit s.tar s.turn) := by
  cases exec_leads h with
  | ownStep hlocal => exact .inl hlocal.shared.1
  | kill hi => exact .inr ⟨hi, rfl⟩
  | stall | release | start => exact .inl rfl

/-! ## The invariant -/

/-- The laws of the single threads, and those of memory, the queues and Video RAM, carry over; the two rules of
the shared registers are shown apart. -/
theorem State.Inv.of_keeps {s t : State} (hs : s.Inv) (hthreads : ∀ u, (s.thread u).Keeps (t.thread u))
    (hmemory : Memory.wf s.mem = true → Memory.wf t.mem = true) (hqueues : QueueRule s → QueueRule t)
    (hvideo : VideoRule s → VideoRule t) (hbarriers : BarrierRule t) (hactivation : ActivationRule t) : t.Inv where
  memory := hmemory hs.memory
  r0 u := (hthreads u).r0 (hs.r0 u)
  flag0 u := (hthreads u).flag0 (hs.flag0 u)
  exr u := (hthreads u).exr (hs.exr u)
  queues := hqueues hs.queues
  video := hvideo hs.video
  barriers := hbarriers
  activation := hactivation

/-- No activation is pending that the thread of this cycle has made. -/
def NoneDue (s : State) : Prop := ∀ a, s.activation = some a → a.initiator ≠ s.turn

theorem BarrierRule.congr {s t : State} (htar : t.tar = s.tar) (hwr : t.wr = s.wr) (hws : t.ws = s.ws)
    (h : BarrierRule s) : BarrierRule t := by
  simpa only [BarrierRule, State.stalledAt, State.active, htar, hwr, hws] using h

theorem ActivationRule.congr {s t : State} (htar : t.tar = s.tar) (hws : t.ws = s.ws)
    (hact : t.activation = s.activation) (h : ActivationRule s) : ActivationRule t := by
  simpa only [ActivationRule, State.runnable, State.stalled, State.active, htar, hws, hact] using h

theorem State.runnable_iff (s : State) (u : Tid) :
    s.runnable u = true ↔ s.active u = true ∧ s.stalled u = false := by
  simp [State.runnable]

/-- A thread that executes is stalled at no point. -/
theorem State.stalledAt_of_runnable {s : State} {u : Tid} (h : s.runnable u = true) (p : Point) :
    s.stalledAt p u = false := by
  have hw : (s.ws[u]).w = false := ((s.runnable_iff u).mp h).2
  simp only [State.stalledAt, hw, Bool.false_and]

/-! ### Around the instruction -/

theorem State.active_withBit {s t : State} {v : Tid} (htar : t.tar = withBit s.tar v) (u : Tid) :
    t.active u = (s.active u || u == v) := by
  rw [State.active, htar, getLsbD_withBit, State.active]

/-- More active threads do not hurt a barrier. -/
theorem BarrierRule.of_active {s t : State} (hwr : t.wr = s.wr) (hws : t.ws = s.ws)
    (hactive : ∀ u, s.active u = true → t.active u = true) (h : BarrierRule s) : BarrierRule t := by
  intro p
  obtain ⟨hiff, hthreads⟩ := h p
  simp only [State.stalledAt, hwr, hws] at hiff hthreads ⊢
  exact ⟨hiff, fun n => ⟨(hthreads n).1, fun hn => hactive n ((hthreads n).2 hn)⟩⟩

/-- The start of a cycle keeps the invariant, and no activation of the executing thread is pending after it. -/
theorem State.Inv.beginCycle {s : State} (hs : s.Inv) : s.beginCycle.Inv ∧ NoneDue s.beginCycle := by
  obtain ⟨hthreads, hmem, hvram, hwr, hws, hturn, -⟩ := s.beginCycle_same
  have hinv (hb : BarrierRule s.beginCycle) (ha : ActivationRule s.beginCycle) : s.beginCycle.Inv :=
    hs.of_keeps (fun u => by rw [State.thread_beginCycle]; exact .refl _) (fun h => by rw [hmem]; exact h)
      State.beginCycle_queues (fun h => by rw [VideoRule, hvram]; exact h) hb ha
  rcases s.beginCycle_activation with ⟨a, -, -, htar, hnone⟩ | ⟨hnotDue, htar, hsame⟩
  · have hactive (u : Tid) (h : s.active u = true) : s.beginCycle.active u = true := by
      rw [State.active_withBit htar, h, Bool.true_or]
    exact ⟨hinv (hs.barriers.of_active hwr hws hactive) fun b hb => absurd (hnone.symm.trans hb) (by simp),
      fun b hb => absurd (hnone.symm.trans hb) (by simp)⟩
  · exact ⟨hinv (hs.barriers.congr htar hwr hws) (hs.activation.congr htar hws hsame),
      fun b hb => by rw [hturn]; exact hnotDue b (hsame ▸ hb)⟩

theorem State.Inv.rotate {s : State} (hs : s.Inv) : s.rotate.Inv :=
  hs.of_keeps (fun _ => .refl _) id id id (hs.barriers.congr rfl rfl rfl) (hs.activation.congr rfl rfl rfl)

theorem State.Inv.boundary {s : State} (hs : s.Inv) (i : Instr) : (s.boundary i).Inv := by
  obtain ⟨htar, hwr, hws, hmem, hinq, houtq, hvram, hact, -, -, hothers⟩ := s.boundary_same i
  refine hs.of_keeps (fun u => ?_) (fun h => hmem ▸ h) (fun h => ?_) (fun h => ?_)
    (hs.barriers.congr htar hwr hws) (hs.activation.congr htar hws hact)
  · by_cases hu : u = s.turn
    · subst hu; exact s.boundary_keeps i
    · rw [hothers u hu]; exact .refl _
  · simpa only [QueueRule, hinq, houtq] using h
  · simpa only [VideoRule, hvram] using h

/-! ### The instruction -/

theorem LocalStep.keeps {s t : State} (h : LocalStep s t) (u : Tid) : (s.thread u).Keeps (t.thread u) := by
  by_cases hu : u = s.turn
  · subst hu; exact h.own
  · rw [h.others u hu]; exact .refl _

theorem State.Inv.localStep {s t : State} (hs : s.Inv) (h : LocalStep s t) : t.Inv := by
  obtain ⟨htar, hwr, hws, -, hact, -⟩ := h.shared
  exact hs.of_keeps h.keeps h.memory h.queues h.video (hs.barriers.congr htar hwr hws)
    (hs.activation.congr htar hws hact)

/-- The threads stalled at a point after one more stalls. -/
theorem State.stalledAt_stall (s : State) (p q : Point) (m : BitVec 4) (n : Tid) :
    ((s.setRow p m).stallAt p).stalledAt q n = if n = s.turn then p == q else s.stalledAt q n := by
  rw [State.stalledAt, State.ws_stallAt, State.setRow_turn]
  by_cases hn : n = s.turn
  · rw [if_pos hn, if_pos hn]; rfl
  · rw [if_neg hn, if_neg hn]; rfl

/-- A thread that arrives and stalls begins a barrier of active threads, or goes over from the awaited to the
stalled of the barrier in progress. -/
theorem BarrierRule.stall {s : State} {p : Point} {row : BitVec 4} (h : BarrierRule s)
    (hrun : s.runnable s.turn = true) (hactive : ∀ u : Tid, row.getLsbD u = true → s.active u = true)
    (hrow : s.wr[p] = 0 ∨ row = s.wr[p]) (hothers : clearBit row s.turn ≠ 0) :
    BarrierRule ((s.setRow p (clearBit row s.turn)).stallAt p) := by
  intro q
  obtain ⟨hiff, hthreads⟩ := h q
  have hturn := State.stalledAt_of_runnable hrun q
  have hwr : ((s.setRow p (clearBit row s.turn)).stallAt p).wr[q] = if q = p then clearBit row s.turn else s.wr[q] :=
    s.wr_setRow p q _
  simp only [hwr, State.stalledAt_stall]
  by_cases hq : q = p
  · subst hq
    have hfree (n : Tid) (hn : row.getLsbD n = true) : s.stalledAt q n = false := by
      rw [← Bool.not_eq_true]
      intro hst
      rcases hrow with h0 | rfl
      · exact (hiff.mpr ⟨n, hst⟩) h0
      · exact (hthreads n).1 ⟨hn, hst⟩
    simp only [if_true, beq_self_eq_true, getLsbD_clearBit]
    refine ⟨⟨fun _ => ⟨s.turn, if_pos rfl⟩, fun _ => hothers⟩, fun n => ⟨?_, ?_⟩⟩
    · rintro ⟨hn, hst⟩
      simp only [Bool.and_eq_true, bne_iff_ne] at hn
      rw [if_neg hn.2, hfree n hn.1] at hst
      exact absurd hst (by decide)
    · intro hn
      by_cases hnt : n = s.turn
      · rw [hnt]; exact ((s.runnable_iff _).mp hrun).1
      · rw [if_neg hnt] at hn
        rcases hn with hn | hst
        · exact hactive n (Bool.and_eq_true _ _ ▸ hn).1
        · exact (hthreads n).2 (.inr hst)
  · have hsame (n : Tid) : (if n = s.turn then p == q else s.stalledAt q n) = s.stalledAt q n := by
      split
      · subst_vars; rw [hturn, beq_eq_false_iff_ne]; exact Ne.symm hq
      · rfl
    simp only [if_neg hq, hsame]
    exact h q

/-- The threads stalled at a point after a release. -/
theorem State.stalledAt_release (s : State) (p q : Point) (n : Tid) :
    (s.release p).stalledAt q n = (s.stalledAt q n && q != p) := by
  rw [State.stalledAt, State.ws_release]
  by_cases hq : q = p
  · subst hq
    rw [bne_self_eq_false, Bool.and_false]
    split
    · rfl
    · exact Bool.eq_false_iff.mpr ‹_›
  · rw [bne_iff_ne.mpr hq, Bool.and_true]
    split
    · rename_i hst
      have hpoint : (s.ws[n]).s = p := beq_iff_eq.mp (Bool.and_eq_true _ _ ▸ hst).2
      rw [State.stalledAt, hpoint, beq_eq_false_iff_ne.mpr (Ne.symm hq), Bool.and_false, Bool.and_false]
    · rfl

theorem BarrierRule.release {s : State} (p : Point) (h : BarrierRule s) : BarrierRule (s.release p) := by
  intro q
  obtain ⟨hiff, hthreads⟩ := h q
  simp only [State.wr_release, State.stalledAt_release]
  by_cases hq : q = p
  · subst hq; simp
  · simp only [if_neg hq, bne_iff_ne.mpr hq, Bool.and_true]
    exact ⟨hiff, hthreads⟩

/-- The threads stalled at a point after a KILL: those of the rows that awaited the executing thread are gone. -/
theorem State.stalledAt_killed (s : State) (q : Point) (n : Tid) :
    s.killed.stalledAt q n = (s.stalledAt q n && !(s.wr[q]).getLsbD s.turn) := by
  rw [State.stalledAt, State.ws_killed]
  split
  · rename_i hawaits
    obtain ⟨-, hawaited⟩ := (s.awaits_eq_true_iff n s.turn).mp hawaits
    change false = _
    by_cases hpoint : (s.ws[n]).s = q
    · subst hpoint; rw [hawaited, Bool.not_true, Bool.and_false]
    · rw [State.stalledAt, beq_eq_false_iff_ne.mpr hpoint, Bool.and_false, Bool.false_and]
  · rename_i hawaits
    cases hst : s.stalledAt q n with
    | false => exact hst
    | true =>
      obtain ⟨hw, hpoint⟩ := Bool.and_eq_true _ _ ▸ hst
      rw [beq_iff_eq] at hpoint
      subst hpoint
      have hawaited : (s.wr[(s.ws[n]).s]).getLsbD s.turn = false :=
        Bool.eq_false_iff.mpr fun hb => hawaits ((s.awaits_eq_true_iff n s.turn).mpr ⟨hw, hb⟩)
      rw [hawaited, Bool.not_false, Bool.and_true]
      exact hst

/-- The death of the executing thread takes the barriers that awaited it away and leaves the others. -/
theorem BarrierRule.killed {s : State} (hrun : s.runnable s.turn = true) (h : BarrierRule s) :
    BarrierRule s.killed := by
  intro q
  obtain ⟨hiff, hthreads⟩ := h q
  simp only [State.stalledAt_killed, State.active_killed, State.wr_killed]
  cases hawaited : (s.wr[q]).getLsbD s.turn with
  | true => simp
  | false =>
    simp only [Bool.false_eq_true, if_false, Bool.not_false, Bool.and_true]
    refine ⟨hiff, fun n => ⟨(hthreads n).1, fun hn => ?_⟩⟩
    have hne : n ≠ s.turn := by
      rintro rfl
      rw [State.stalledAt_of_runnable hrun q, hawaited] at hn
      exact absurd hn (by decide)
    rw [(hthreads n).2 hn, bne_iff_ne.mpr hne, Bool.and_true]

/-- An INIT loads the pc of its target. -/
theorem State.thread_startThread (s : State) (v : Tid) (a : Word) (u : Tid) :
    (s.startThread v a).thread u = if u = v then (s.thread u).jumpTo a else s.thread u := by
  change (s.setThread v _).thread u = _
  rw [State.thread_setThread]
  split
  · subst_vars; rfl
  · rfl

/-- An instruction keeps the laws of every single thread. -/
theorem exec_keeps {i : Instr} {s t : State} (h : exec i s = .next t) (u : Tid) :
    (s.thread u).Keeps (t.thread u) := by
  cases exec_leads h with
  | ownStep hlocal => exact hlocal.keeps u
  | stall => exact .refl _
  | release p _ =>
    rw [State.thread_release]
    split
    · exact .of_eq rfl rfl rfl rfl
    · exact .refl _
  | kill _ =>
    rw [State.thread_killed]
    split
    · exact Thread.keeps_enterException _ _ _
    · exact .refl _
  | start v a _ _ =>
    have hpc : (s.thread u).Keeps ((s.startThread v a).thread u) := by
      rw [State.thread_startThread]
      split
      · exact Thread.keeps_jumpTo _ _
      · exact .refl _
    rw [State.thread_updCur]
    split
    · subst_vars; exact hpc.trans (Thread.keeps_advance _)
    · exact hpc

/-- The rule of a pending activation carries over when no dead thread comes alive and no thread but the executing
one, which has none pending, stops. -/
theorem ActivationRule.of_pending {s t : State} (h : ActivationRule s) (hdue : NoneDue s)
    (hact : t.activation = s.activation) (hdead : ∀ u, s.active u = false → t.active u = false)
    (hrun : ∀ u, u ≠ s.turn → s.runnable u = true → t.runnable u = true) : ActivationRule t := by
  intro a ha
  rw [hact] at ha
  obtain ⟨htarget, hinitiator⟩ := h a ha
  exact ⟨hdead _ htarget, hrun _ (hdue a ha) hinitiator⟩

/-- The executing thread has no activation pending, so that its own death or stall breaks none. -/
theorem ActivationRule.exec {i : Instr} {s t : State} (hs : ActivationRule s) (hrun : s.runnable s.turn = true)
    (hdue : NoneDue s) (h : exec i s = .next t) : ActivationRule t := by
  cases exec_leads h with
  | ownStep hlocal =>
    obtain ⟨htar, -, hws, -, hact, -⟩ := hlocal.shared
    exact hs.congr htar hws hact
  | stall p row _ _ _ =>
    refine hs.of_pending hdue rfl (fun _ h => h) fun u hu h => ?_
    rw [State.runnable_iff, State.stalled, State.ws_stallAt, State.setRow_turn, if_neg hu]
    exact (s.runnable_iff u).mp h
  | release p _ =>
    refine hs.of_pending hdue rfl (fun _ h => h) fun u hu h => ?_
    rw [State.runnable_iff, State.stalled, State.ws_release, State.stalledAt_of_runnable h p]
    exact (s.runnable_iff u).mp h
  | kill _ =>
    refine hs.of_pending hdue rfl (fun u h => ?_) fun u hu h => ?_
    · rw [State.active_killed, h, Bool.false_and]
    · obtain ⟨hactive, hstalled⟩ := (s.runnable_iff u).mp h
      rw [State.runnable_iff, State.active_killed, hactive, bne_iff_ne.mpr hu, State.stalled, State.ws_killed]
      refine ⟨rfl, ?_⟩
      split
      · rfl
      · exact hstalled
  | start v a hdead _ =>
    intro b hb
    cases hb
    exact ⟨hdead, hrun⟩

theorem State.Inv.exec {i : Instr} {s t : State} (hs : s.Inv) (hrun : s.runnable s.turn = true)
    (hdue : NoneDue s) (h : exec i s = .next t) : t.Inv := by
  have hactivation := hs.activation.exec hrun hdue h
  have hkeeps := exec_keeps h
  cases exec_leads h with
  | ownStep hlocal => exact hs.localStep hlocal
  | stall p row hactive hrow hothers =>
    exact hs.of_keeps hkeeps id id id (hs.barriers.stall hrun hactive hrow hothers) hactivation
  | release p _ => exact hs.of_keeps hkeeps id id id (hs.barriers.release p) hactivation
  | kill _ => exact hs.of_keeps hkeeps id id id (hs.barriers.killed hrun) hactivation
  | start v a _ _ => exact hs.of_keeps hkeeps id id id (hs.barriers.congr rfl rfl rfl) hactivation

/-! ## What an instruction does to the threads -/

/-- Nothing of a thread's own registers differs but its pc. -/
def SameButPc (th th' : Thread) : Prop := th' = { th with pc := th'.pc }

/-- Another thread's own registers after an instruction: only its pc can differ (R227, R235), but for the
ILLEGAL_WAIT that a KILL delivers to a thread that waits for the executing one (R20, R231). -/
theorem exec_otherThread {i : Instr} {s t : State} {u : Tid} (h : exec i s = .next t) (hu : u ≠ s.turn) :
    SameButPc (s.thread u) (t.thread u) ∨
    (i = .kill ∧ WaitsFor s u s.turn ∧
      t.thread u = Thread.enterException u [.illegalWait] (s.thread u)) := by
  cases exec_leads h with
  | ownStep hlocal => rw [hlocal.others u hu]; exact .inl rfl
  | stall => exact .inl rfl
  | release p _ =>
    rw [State.thread_release]
    split <;> exact .inl rfl
  | kill hi =>
    rw [State.thread_killed]
    split
    · exact .inr ⟨hi, (s.awaits_eq_true_iff u s.turn).mp ‹_›, rfl⟩
    · exact .inl rfl
  | start v a _ _ =>
    rw [State.thread_updCur, State.startThread_turn, if_neg hu, State.thread_startThread]
    split <;> exact .inl rfl

/-- Another thread's own registers after a step: only its pc can differ, but for the ILLEGAL_WAIT of a KILL at
the executing thread's pc (R20, R231). -/
theorem step_otherThread {s s' : State} {u : Tid} (h : step s = .next s') (hu : u ≠ s.turn) :
    SameButPc (s.thread u) (s'.thread u) ∨
    (decodeWord (s.loadWord s.cur.pc) = .ok .kill ∧ WaitsFor s u s.turn ∧
      s'.thread u = Thread.enterException u [.illegalWait] (s.thread u)) := by
  have hu' : u ≠ s.beginCycle.turn := by rw [State.turn_beginCycle]; exact hu
  have hbegin := s.thread_beginCycle u
  rcases step_executes h with rfl | rfl | ⟨i, t, -, hdecode, hexec, rfl⟩
  · rw [State.thread_rotate, hbegin]
    exact .inl rfl
  · rw [State.thread_rotate, State.raise, State.thread_updCur, if_neg hu', hbegin]
    exact .inl rfl
  · obtain ⟨-, -, -, -, -, -, -, -, -, -, hothers⟩ := t.boundary_same i
    rw [State.thread_rotate, hothers u (by rw [exec_turn hexec]; exact hu'), ← hbegin]
    refine (exec_otherThread hexec hu').imp id ?_
    rintro ⟨rfl, hwaits, hentered⟩
    obtain ⟨-, -, -, hwr, hws, hturn, -⟩ := s.beginCycle_same
    simp only [WaitsFor, hwr, hws, hturn] at hwaits
    exact ⟨hdecode, hwaits, hentered⟩

/-- What an instruction may write of FLAG and EXR of its own thread when it completes without an exception: the
flags that the table of R27 lists for it, and EXR only if it is GET.EXR (R264). -/
structure OwnWrites (i : Instr) (th th' : Thread) : Prop where
  flags : ∀ k, flagWriter i k = false → th'.readFlag k = th.readFlag k
  exr : (∀ rd, i ≠ .getExr rd) → th'.exr = th.exr

/-- The executing thread after instruction `i`: it entered an exception, or FLAG and EXR are written as `i` may. -/
def OwnOutcome (i : Instr) (s t : State) : Prop :=
  (∃ es, t.thread s.turn = Thread.enterException s.turn es s.cur) ∨ OwnWrites i s.cur (t.thread s.turn)

theorem OwnWrites.of_eq {i : Instr} {th th' : Thread} (hflag : th'.flag = th.flag) (hexr : th'.exr = th.exr) :
    OwnWrites i th th' :=
  ⟨fun k _ => by rw [Thread.readFlag, Thread.readFlag, hflag], fun _ => hexr⟩

/-- Writing a flag that the table lists. -/
theorem OwnWrites.writeFlag {i : Instr} {th th' : Thread} (h : OwnWrites i th th') {cb : FlagNum}
    (hcb : flagWriter i cb = true) (b : Bool) : OwnWrites i th (th'.writeFlag cb b) := by
  refine ⟨fun k hk => ?_, h.exr⟩
  rw [Thread.readFlag_writeFlag, ← h.flags k hk]
  split
  · subst_vars; rfl
  · rw [if_neg]
    rintro rfl
    exact absurd (hcb.symm.trans hk) (by decide)

theorem OwnWrites.refl (i : Instr) (th : Thread) : OwnWrites i th th := .of_eq rfl rfl

theorem OwnWrites.writeReg {i : Instr} {th th' : Thread} (h : OwnWrites i th th') (r : RegNum) (v : Word) :
    OwnWrites i th (th'.writeReg r v) := ⟨h.flags, h.exr⟩

theorem OwnWrites.stepReg (i : Instr) (th : Thread) (ra : RegNum) (step : Option Word) :
    OwnWrites i th (th.stepReg ra step) := by
  cases step <;> exact .of_eq rfl rfl

section
variable {i : Instr} {s s₁ t : State}

theorem ownOutcome_raise (es : List Exc) : OwnOutcome i s (s.raise es) :=
  .inl ⟨es, by rw [State.raise, State.thread_updCur, if_pos rfl]⟩

theorem ownOutcome_guarded {es : List Exc} {go : Result} (h : s.guarded es go = .next t)
    (hgo : go = .next t → OwnOutcome i s t) : OwnOutcome i s t := by
  rcases State.guarded_next h with ⟨-, hg⟩ | ⟨-, rfl⟩
  · exact hgo hg
  · exact ownOutcome_raise es

/-- `retire`, in a state whose executing thread is still that of `s`. -/
theorem ownOutcome_retire {f : Thread → Thread} (h : s₁.retire f = .next t) (hturn : s₁.turn = s.turn)
    (hcur : s₁.cur = s.cur) (hf : OwnWrites i s.cur (f s.cur)) : OwnOutcome i s t := by
  cases h
  refine .inr ?_
  rw [State.thread_updCur_of_eq _ hturn hcur]
  exact ⟨hf.flags, hf.exr⟩

theorem ownOutcome_retireReg {rd : RegNum} {v : Word} (h : s.retireReg rd v = .next t) : OwnOutcome i s t :=
  ownOutcome_retire h rfl rfl ((OwnWrites.refl i _).writeReg rd v)

theorem ownOutcome_retireAlu {rd : RegNum} {r : AluOut} (h : s.retireAlu rd r = .next t)
    (h6 : flagWriter i 6 = true) (h7 : r.flag7 = none ∨ flagWriter i 7 = true) : OwnOutcome i s t := by
  refine ownOutcome_retire h rfl rfl ?_
  have hlow : OwnWrites i s.cur ((s.cur.writeReg rd r.value).writeFlag 6 r.flag6) :=
    ((OwnWrites.refl i s.cur).writeReg rd _).writeFlag h6 _
  rw [Thread.writeAlu]
  cases hb : r.flag7 with
  | none => exact hlow
  | some b => exact hlow.writeFlag (h7.resolve_left (by rw [hb]; simp)) b

theorem ownOutcome_compareWords {rel : Rel} {ra rb : RegNum} {cb : FlagNum}
    (h : s.compareWords rel ra rb cb = .next t) (hcb : flagWriter i cb = true) : OwnOutcome i s t :=
  ownOutcome_retire h rfl rfl ((OwnWrites.refl i _).writeFlag hcb _)

/-- The lane compares write the flag CB names and the next one, where there is one. -/
theorem ownOutcome_compareLanes {rel : Rel} {ra rb : RegNum} {cb : FlagNum}
    (h : s.compareLanes rel ra rb cb = .next t)
    (hcb : ∀ k : FlagNum, k = cb ∨ k.val = cb.val + 1 → flagWriter i k = true) : OwnOutcome i s t := by
  refine ownOutcome_retire h rfl rfl ?_
  have hlow (b : Bool) : OwnWrites i s.cur (s.cur.writeFlag cb b) :=
    (OwnWrites.refl i s.cur).writeFlag (hcb cb (.inl rfl)) b
  split
  · exact hlow _
  · rename_i hne
    have hnext : ∀ cb : FlagNum, cb ≠ 7 → (cb + 1).val = cb.val + 1 := by decide
    exact (hlow _).writeFlag (hcb _ (.inr (hnext cb hne))) _

theorem ownOutcome_load {step : Option Word} {ra rd : RegNum} (h : s.load step ra rd = .next t) :
    OwnOutcome i s t := by
  refine ownOutcome_guarded h fun hg => ?_
  split at hg
  · cases hg
  · exact ownOutcome_retire hg rfl rfl ((OwnWrites.stepReg i _ ra step).writeReg rd _)

theorem ownOutcome_store {step : Option Word} {ra rb : RegNum} (h : s.store step ra rb = .next t) :
    OwnOutcome i s t :=
  ownOutcome_guarded h fun hg => ownOutcome_retire hg rfl rfl (.stepReg i _ ra step)

theorem ownOutcome_videoStore {step : Option Word} {ra rb rd : RegNum}
    (h : s.videoStore step ra rb rd = .next t) : OwnOutcome i s t := by
  simp only [State.videoStore] at h
  split at h
  · exact ownOutcome_retire h rfl rfl (.stepReg i _ _ step)
  · split at h
    · exact ownOutcome_retire h rfl rfl (.stepReg i _ _ step)
    · cases h

theorem ownOutcome_updCur {f : Thread → Thread} (hf : OwnWrites i s.cur (f s.cur)) :
    OwnOutcome i s (s.updCur f) :=
  .inr (by rw [State.thread_updCur, if_pos rfl]; exact hf)

theorem ownOutcome_jump {cb : FlagNum} {link : Bool} {target : Word} (h : s.jump cb link target = .next t) :
    OwnOutcome i s t := by
  unfold State.jump at h
  split at h
  · refine ownOutcome_guarded h fun hg => ?_
    cases hg
    exact ownOutcome_updCur (by split <;> exact .of_eq rfl rfl)
  · split at h <;> exact ownOutcome_retire h rfl rfl (.of_eq rfl rfl)

theorem ownOutcome_read {p : Port} {cb : FlagNum} {rd : RegNum} (h : execRead p cb rd s = .next t)
    (hcb : flagWriter i cb = true) : OwnOutcome i s t := by
  unfold execRead at h
  split at h
  · rename_i hp
    obtain ⟨rest, -, rfl⟩ := State.portRead_eq_some hp
    exact ownOutcome_retire h rfl rfl (((OwnWrites.refl i _).writeReg rd _).writeFlag hcb _)
  · exact ownOutcome_retire h rfl rfl ((OwnWrites.refl i _).writeFlag hcb _)

theorem ownOutcome_wait {m : BitVec 4} {p : Point} (h : execWait m p s = .next t) : OwnOutcome i s t := by
  rcases execWait_cases h with ⟨-, rfl⟩ | ⟨-, -, ⟨-, -, rfl⟩ | ⟨-, -, rfl⟩ | ⟨-, -, -, rfl⟩ | ⟨-, -, -, rfl⟩⟩
  · exact ownOutcome_raise _
  · exact ownOutcome_updCur (.of_eq rfl rfl)
  · exact .inr (.refl i _)
  · refine .inr ?_
    rw [State.thread_release, if_pos (.inr rfl)]
    exact .of_eq rfl rfl
  · exact .inr (.refl i _)

theorem ownOutcome_kill (h : execKill s = .next t) : OwnOutcome i s t := by
  rw [execKill_eq] at h
  cases h
  rw [OwnOutcome, State.thread_killed]
  split
  · exact .inl ⟨_, rfl⟩
  · exact .inr (.refl i _)

theorem ownOutcome_init {ra : RegNum} {target : Tid} (h : execInit ra target s = .next t) :
    OwnOutcome i s t := by
  rcases execInit_cases h with ⟨-, rfl⟩ | ⟨-, -, hretire⟩
  · exact ownOutcome_raise _
  · cases hretire
    have hjump : OwnWrites i s.cur ((s.startThread target (s.reg ra)).thread s.turn) := by
      rw [State.thread_startThread]
      split <;> exact .of_eq rfl rfl
    refine .inr ?_
    rw [State.thread_updCur, State.startThread_turn, if_pos rfl]
    exact ⟨hjump.flags, hjump.exr⟩

end

/-- What every instruction does to FLAG and EXR of its own thread. -/
theorem exec_ownOutcome {i : Instr} {s t : State} (h : exec i s = .next t) : OwnOutcome i s t := by
  cases i with
  | add16 | sub16 | avg16 | savg16 | addi16 | subi16 | macLo | macHi | mulLo | mulHi =>
    exact ownOutcome_retireAlu h rfl (.inl rfl)
  | add8 | sub8 | avg8 | savg8 | addi8 | subi8 => exact ownOutcome_retireAlu h rfl (.inr rfl)
  | rsl8 | rsl16 | rsa8 | rsa16 | lsl8 | lsl16 | rot8 | rot16
  | mixLo | mixHi | muxLo | muxHi | andW | orW | xorW | notW | copyLo | copyHi | swap | liHi | liLo
  | getFlag | getSpr1 | getSpr2 | getWaitReg | getTar | getWs | getIntr | getThread =>
    exact ownOutcome_retireReg h
  | cmpEq16 | cmpNe16 | cmpGt16 | cmpGe16 | cmpLt16 | cmpLe16 =>
    exact ownOutcome_compareWords h (beq_self_eq_true _)
  | cmpEq8 | cmpNe8 | cmpGt8 | cmpGe8 | cmpLt8 | cmpLe8 =>
    exact ownOutcome_compareLanes h fun k hk => by simpa [flagWriter] using hk
  | lw | lwi | lwd => exact ownOutcome_load h
  | sw | swi | swd => exact ownOutcome_store h
  | swsg | swsgi | swsgd => exact ownOutcome_videoStore h
  | jmpr | jalr | jmpi | jali => exact ownOutcome_jump h
  | read => exact ownOutcome_read h (beq_self_eq_true _)
  | wait => exact ownOutcome_wait h
  | kill => exact ownOutcome_kill h
  | init => exact ownOutcome_init h
  | write p cb rd =>
    exact ownOutcome_retire h rfl rfl ((OwnWrites.refl (.write p cb rd) _).writeFlag (beq_self_eq_true cb) _)
  | swft ra rb rd =>
    exact ownOutcome_guarded (es := storeExc s.cur.pc (s.reg ra)) h fun hg =>
      ownOutcome_retire hg rfl rfl ((OwnWrites.refl _ _).writeFlag rfl _)
  | jmpSpr1 =>
    refine ownOutcome_guarded (es := returnExc s.cur.imask) h fun hg => ?_
    cases hg
    exact ownOutcome_updCur (.of_eq rfl rfl)
  | getExr rd => exact ownOutcome_retire h rfl rfl ⟨fun _ _ => rfl, fun hi => absurd rfl (hi rd)⟩
  | putFlag ra =>
    refine ownOutcome_retire h rfl rfl ⟨fun k hk => ?_, fun _ => rfl⟩
    have hzero : k = 0 := by simpa [flagWriter] using hk
    subst hzero
    rfl
  | putSpr1 | putDebug | putIntrMask | nop => exact ownOutcome_retire h rfl rfl (.of_eq rfl rfl)

/-! ## Reset (R40) -/

theorem thread_reset (u : Tid) : State.reset.thread u = Thread.reset :=
  Vector.getElem_replicate ..

theorem ws_reset (u : Tid) : State.reset.ws[u] = ⟨false, 0⟩ := Vector.getElem_replicate ..

theorem wr_reset (p : Point) : State.reset.wr[p] = 0 := Vector.getElem_replicate ..

theorem inq_reset (p : Port) : State.reset.inq[p] = [] := Vector.getElem_replicate ..

theorem outq_reset (p : Port) : State.reset.outq[p] = [] := Vector.getElem_replicate ..

theorem readReg_reset (r : RegNum) : Thread.reset.readReg r = 0 := Vector.getElem_replicate ..

theorem stalledAt_reset (p : Point) (u : Tid) : State.reset.stalledAt p u = false := by
  rw [State.stalledAt, ws_reset]; rfl

/-! ## TAR and EXR (R28, R34) -/

/-- TAR after the start of a cycle (R236). -/
theorem State.active_beginCycle (s : State) (u : Tid) :
    s.beginCycle.active u = true ↔ s.active u = true ∨
      ∃ a, s.activation = some a ∧ a.target = u ∧ a.initiator = s.turn := by
  rcases s.beginCycle_activation with ⟨a, hact, hdue, htar, -⟩ | ⟨hnotDue, htar, -⟩
  · rw [State.active_withBit htar, Bool.or_eq_true, beq_iff_eq]
    refine or_congr_right ⟨fun h => ⟨a, hact, h.symm, hdue⟩, ?_⟩
    rintro ⟨b, hb, rfl, -⟩
    rw [Option.some.inj (hact.symm.trans hb)]
  · rw [State.active, htar]
    refine ⟨.inl, ?_⟩
    rintro (h | ⟨a, ha, -, hdue⟩)
    · exact h
    · exact absurd hdue (hnotDue a ha)

/-- After the start of its cycle a step takes no thread into TAR, and takes one out only by the KILL at its pc. -/
theorem step_active {s s' : State} (h : step s = .next s') (u : Tid) :
    s'.active u = s.beginCycle.active u ∨
    (decodeWord (s.loadWord s.cur.pc) = .ok .kill ∧
      s'.active u = (s.beginCycle.active u && u != s.turn)) := by
  rcases step_executes h with rfl | rfl | ⟨i, t, -, hdecode, hexec, rfl⟩
  · exact .inl rfl
  · exact .inl rfl
  · have htar : (t.boundary i).rotate.active u = t.tar.getLsbD u := by
      rw [State.active, State.rotate_tar, (t.boundary_same i).1]
    rw [htar]
    rcases exec_tar hexec with hsame | ⟨rfl, hkilled⟩
    · exact .inl (by rw [hsame, State.active])
    · exact .inr ⟨hdecode, by rw [hkilled, getLsbD_clearBit, State.turn_beginCycle, State.active]⟩

/-- An exception entry clears no bit of EXR (R305). -/
theorem exr_enterException (u : Tid) (es : List Exc) (th : Thread) :
    th.exr &&& (Thread.enterException u es th).exr = th.exr := by
  ext i hi
  simp only [Thread.enterException_exr, BitVec.getElem_and, BitVec.getElem_or]
  cases th.exr[i] <;> rfl

/-! ## What an instruction reads (R20) -/

/-- Agreement but for thread u's own registers, field by field. -/
theorem agreeButPrivate_iff {u : Tid} {s₁ s₂ : State} : AgreeButPrivate u s₁ s₂ ↔
    s₂ = { s₁ with threads := s₂.threads } ∧ (∀ v, v ≠ u → s₂.thread v = s₁.thread v) ∧
      (s₂.thread u).pc = (s₁.thread u).pc := by
  constructor
  · intro h
    have hthread (v : Tid) : s₂.thread v =
        if v = u then { s₂.thread u with pc := (s₁.thread u).pc } else s₁.thread v := by
      conv_lhs => rw [h]
      exact State.thread_setThread _ _ _ _
    refine ⟨?_, fun v hv => (hthread v).trans (if_neg hv), by rw [hthread u, if_pos rfl]⟩
    rw [h]; rfl
  · rintro ⟨hshared, hothers, hpc⟩
    have hthreads : s₂.threads = s₁.threads.set u { s₂.thread u with pc := (s₁.thread u).pc } := by
      apply Vector.ext
      intro v hv
      change s₂.thread ⟨v, hv⟩ = (s₁.setThread u _).thread ⟨v, hv⟩
      rw [State.thread_setThread]
      split
      · rename_i hvu
        rw [hvu, ← hpc]
      · exact hothers _ ‹_›
    rw [AgreeButPrivate, State.setThread, ← hthreads]
    exact hshared

/-- Two machines in the same cycle that differ at most in the own registers of a thread `u` whose cycle it is
not. -/
structure AgreeOnTurn (u : Tid) (s₁ s₂ : State) : Prop where
  shared : s₂ = { s₁ with threads := s₂.threads }
  thread : ∀ v, v ≠ u → s₂.thread v = s₁.thread v
  pc : (s₂.thread u).pc = (s₁.thread u).pc
  ne : u ≠ s₁.turn

/-- Two results that stop for the same reason, or go on in machines that agree. -/
inductive AgreeResults (u : Tid) : Result → Result → Prop
  | next {t₁ t₂ : State} (h : AgreeOnTurn u t₁ t₂) : AgreeResults u (.next t₁) (.next t₂)
  | fault (r : Fault) : AgreeResults u (.fault r) (.fault r)
  | refused (r : Refusal) : AgreeResults u (.refused r) (.refused r)

/-- A choice made by one condition, whatever its two decision procedures. -/
theorem AgreeResults.ite {u : Tid} {c : Prop} {d₁ d₂ : Decidable c} {a₁ a₂ b₁ b₂ : Result}
    (ha : AgreeResults u a₁ a₂) (hb : AgreeResults u b₁ b₂) :
    AgreeResults u (@ite _ c d₁ a₁ b₁) (@ite _ c d₂ a₂ b₂) := by
  by_cases h : c
  · rw [if_pos h, if_pos h]; exact ha
  · rw [if_neg h, if_neg h]; exact hb

theorem AgreeResults.onNext {u : Tid} {r₁ r₂ : Result} {f : State → Result} (hr : AgreeResults u r₁ r₂)
    (hf : ∀ {t₁ t₂}, AgreeOnTurn u t₁ t₂ → AgreeResults u (f t₁) (f t₂)) :
    AgreeResults u (onNext f r₁) (onNext f r₂) := by
  cases hr with
  | next h => exact hf h
  | fault r => exact .fault r
  | refused r => exact .refused r

namespace AgreeOnTurn

variable {u : Tid} {s₁ s₂ : State} (h : AgreeOnTurn u s₁ s₂)
include h

/-! ### What is the same in both machines -/

theorem tar : s₂.tar = s₁.tar := by rw [h.shared]
theorem wr : s₂.wr = s₁.wr := by rw [h.shared]
theorem ws : s₂.ws = s₁.ws := by rw [h.shared]
theorem mem : s₂.mem = s₁.mem := by rw [h.shared]
theorem inq : s₂.inq = s₁.inq := by rw [h.shared]
theorem outq : s₂.outq = s₁.outq := by rw [h.shared]
theorem irq : s₂.irq = s₁.irq := by rw [h.shared]
theorem activation : s₂.activation = s₁.activation := by rw [h.shared]
theorem turn : s₂.turn = s₁.turn := by rw [h.shared]
theorem freeTicks : s₂.freeTicks = s₁.freeTicks := by rw [h.shared]
theorem inputs : s₂.inputs = s₁.inputs := by rw [h.shared]

theorem cur : s₂.cur = s₁.cur := by rw [State.cur, h.turn]; exact h.thread _ h.ne.symm

theorem reg (r : RegNum) : s₂.reg r = s₁.reg r := by rw [State.reg, h.cur, State.reg]

theorem loadWord (a : Word) : s₂.loadWord a = s₁.loadWord a := by rw [State.loadWord, h.mem, State.loadWord]

theorem portHasRoom (p : Port) : s₂.portHasRoom p = s₁.portHasRoom p := by
  simp only [State.portHasRoom, h.outq]

theorem active (v : Tid) : s₂.active v = s₁.active v := by rw [State.active, h.tar, State.active]

theorem stalled : s₂.stalled = s₁.stalled := by funext v; simp only [State.stalled, h.ws]

theorem runnable (v : Tid) : s₂.runnable v = s₁.runnable v := by
  rw [State.runnable, h.active, h.stalled, State.runnable]

theorem stalledAt (p : Point) : s₂.stalledAt p = s₁.stalledAt p := by
  funext v; simp only [State.stalledAt, h.ws]

theorem awaits (n m : Tid) : s₂.awaits n m = s₁.awaits n m := by simp only [State.awaits, h.stalled, h.wr, h.ws]

/-! ### Changes that keep the agreement -/

/-- A change that does to what the threads share the same whatever the threads are. -/
theorem map (f : State → State)
    (hshared : ∀ ths, f { s₁ with threads := ths } =
      { f s₁ with threads := (f { s₁ with threads := ths }).threads })
    (hturn : (f s₁).turn = s₁.turn) (hthread : ∀ v, v ≠ u → (f s₂).thread v = (f s₁).thread v)
    (hpc : ((f s₂).thread u).pc = ((f s₁).thread u).pc) : AgreeOnTurn u (f s₁) (f s₂) where
  shared := by
    have hs := hshared s₂.threads
    rw [← h.shared] at hs
    exact hs
  thread := hthread
  pc := hpc
  ne := by rw [hturn]; exact h.ne

/-- A change of what the threads share alone. -/
theorem mapShared (f : State → State)
    (hshared : ∀ ths, f { s₁ with threads := ths } = { f s₁ with threads := ths })
    (hturn : (f s₁).turn = s₁.turn) (hthreads : ∀ s : State, (f s).threads = s.threads) :
    AgreeOnTurn u (f s₁) (f s₂) := by
  have hthread (s : State) (v : Tid) : (f s).thread v = s.thread v := by rw [State.thread, hthreads, State.thread]
  refine h.map f (fun ths => by rw [hthreads]; exact hshared ths) hturn (fun v hv => ?_) ?_
  · rw [hthread, hthread, h.thread v hv]
  · rw [hthread, hthread, h.pc]

theorem storeWord (a v : Word) : AgreeOnTurn u (s₁.storeWord a v) (s₂.storeWord a v) :=
  h.mapShared (·.storeWord a v) (fun _ => rfl) rfl fun _ => rfl

theorem portWrite (p : Port) (v : Word) : AgreeOnTurn u (s₁.portWrite p v) (s₂.portWrite p v) :=
  h.mapShared (·.portWrite p v) (fun _ => rfl) rfl fun _ => rfl

theorem vramWrite (sel : BitVec 2) (off v : Word) :
    AgreeOnTurn u (s₁.vramWrite sel off v) (s₂.vramWrite sel off v) :=
  h.mapShared (·.vramWrite sel off v) (fun _ => rfl) rfl fun _ => rfl

theorem withInq (queues : Vector (List Word) 8) :
    AgreeOnTurn u { s₁ with inq := queues } { s₂ with inq := queues } :=
  h.mapShared (fun s => { s with inq := queues }) (fun _ => rfl) rfl fun _ => rfl

theorem stall (p : Point) (m : BitVec 4) :
    AgreeOnTurn u ((s₁.setRow p m).stallAt p) ((s₂.setRow p m).stallAt p) :=
  h.mapShared (fun s => (s.setRow p m).stallAt p) (fun _ => rfl) rfl fun _ => rfl

theorem release (p : Point) : AgreeOnTurn u (s₁.release p) (s₂.release p) := by
  refine h.map (·.release p) (fun _ => rfl) rfl (fun v hv => ?_) ?_
  · rw [State.thread_release, State.thread_release, h.turn, h.stalledAt, h.thread v hv]
  · rw [State.thread_release, State.thread_release, h.turn, h.stalledAt]
    split
    · exact congrArg (· + 2) h.pc
    · exact h.pc

theorem killed : AgreeOnTurn u s₁.killed s₂.killed := by
  refine h.map State.killed (fun _ => rfl) rfl (fun v hv => ?_) ?_
  · rw [State.thread_killed, State.thread_killed, h.turn, h.awaits, h.thread v hv]
  · rw [State.thread_killed, State.thread_killed, h.turn, h.awaits]
    split
    · rfl
    · exact h.pc

theorem startThread (v : Tid) (a : Word) : AgreeOnTurn u (s₁.startThread v a) (s₂.startThread v a) := by
  refine h.map (·.startThread v a) (fun _ => rfl) rfl (fun w hw => ?_) ?_
  · rw [State.thread_startThread, State.thread_startThread, h.thread w hw]
  · rw [State.thread_startThread, State.thread_startThread]
    split
    · rfl
    · exact h.pc

/-- Both executing threads, the same before, are the same after. -/
theorem updCur {f₁ f₂ : Thread → Thread} (hf : f₁ s₁.cur = f₂ s₁.cur) :
    AgreeOnTurn u (s₁.updCur f₁) (s₂.updCur f₂) := by
  have hset : ∀ s : State, ∀ f : Thread → Thread, s.updCur f = s.updCur fun _ => f s.cur := fun _ _ => rfl
  rw [hset s₁, hset s₂, h.cur, ← hf]
  refine h.map (·.updCur fun _ => f₁ s₁.cur) (fun _ => rfl) rfl (fun v hv => ?_) ?_
  · rw [State.thread_updCur, State.thread_updCur, h.turn, h.thread v hv]
  · rw [State.thread_updCur, State.thread_updCur, h.turn, if_neg h.ne, if_neg h.ne, h.pc]

theorem raise (es : List Exc) : AgreeOnTurn u (s₁.raise es) (s₂.raise es) := by
  rw [State.raise, State.raise, h.turn]
  exact h.updCur rfl

/-! ### Ways to complete -/

theorem retire {f₁ f₂ : Thread → Thread} (hf : f₁ s₁.cur = f₂ s₁.cur) :
    AgreeResults u (s₁.retire f₁) (s₂.retire f₂) :=
  .next (h.updCur (congrArg Thread.advance hf))

theorem guarded {es₁ es₂ : List Exc} {go₁ go₂ : Result} (hes : es₁ = es₂) (hgo : AgreeResults u go₁ go₂) :
    AgreeResults u (s₁.guarded es₁ go₁) (s₂.guarded es₂ go₂) := by
  subst hes
  cases es₁ with
  | nil => exact hgo
  | cons e es => exact .next (h.raise (e :: es))

theorem retireReg {rd : RegNum} {v₁ v₂ : Word} (hv : v₁ = v₂) :
    AgreeResults u (s₁.retireReg rd v₁) (s₂.retireReg rd v₂) := h.retire (by rw [hv])

theorem retireAlu {rd : RegNum} {r₁ r₂ : AluOut} (hr : r₁ = r₂) :
    AgreeResults u (s₁.retireAlu rd r₁) (s₂.retireAlu rd r₂) := h.retire (by rw [hr])

theorem compareWords (rel : Rel) (ra rb : RegNum) (cb : FlagNum) :
    AgreeResults u (s₁.compareWords rel ra rb cb) (s₂.compareWords rel ra rb cb) :=
  h.retire (by simp only [h.reg])

theorem compareLanes (rel : Rel) (ra rb : RegNum) (cb : FlagNum) :
    AgreeResults u (s₁.compareLanes rel ra rb cb) (s₂.compareLanes rel ra rb cb) :=
  h.retire (by simp only [h.reg])

theorem load (step : Option Word) (ra rd : RegNum) :
    AgreeResults u (s₁.load step ra rd) (s₂.load step ra rd) := by
  simp only [State.load, h.reg, h.cur, h.loadWord]
  exact h.guarded rfl (.ite (.refused _) (h.retire rfl))

theorem store (step : Option Word) (ra rb : RegNum) :
    AgreeResults u (s₁.store step ra rb) (s₂.store step ra rb) := by
  simp only [State.store, h.reg, h.cur]
  exact h.guarded rfl ((h.storeWord _ _).retire rfl)

theorem videoStore (step : Option Word) (ra rb rd : RegNum) :
    AgreeResults u (s₁.videoStore step ra rb rd) (s₂.videoStore step ra rb rd) := by
  simp only [State.videoStore, h.reg]
  exact .ite (h.retire rfl) (.ite ((h.vramWrite _ _ _).retire rfl) (.refused _))

theorem jump {cb : FlagNum} {link : Bool} {target₁ target₂ : Word} (ht : target₁ = target₂) :
    AgreeResults u (s₁.jump cb link target₁) (s₂.jump cb link target₂) := by
  subst ht
  simp only [State.jump, h.cur]
  exact .ite (h.guarded rfl (.next (h.updCur rfl))) (.ite (h.retire rfl) (h.retire rfl))

theorem execSwft (ra rb rd : RegNum) :
    AgreeResults u (Machine.execSwft ra rb rd s₁) (Machine.execSwft ra rb rd s₂) := by
  simp only [Machine.execSwft, h.reg, h.cur, h.portHasRoom]
  exact h.guarded rfl (((h.storeWord _ _).portWrite _ _).retire rfl)

theorem execRead (p : Port) (cb : FlagNum) (rd : RegNum) :
    AgreeResults u (Machine.execRead p cb rd s₁) (Machine.execRead p cb rd s₂) := by
  simp only [Machine.execRead, State.portRead, h.inq]
  cases s₁.inq[p] with
  | nil => exact h.retire rfl
  | cons v rest => exact (h.withInq _).retire rfl

theorem execWrite (p : Port) (cb : FlagNum) (rd : RegNum) :
    AgreeResults u (Machine.execWrite p cb rd s₁) (Machine.execWrite p cb rd s₂) := by
  simp only [Machine.execWrite, h.reg, h.portHasRoom]
  exact (h.portWrite p _).retire rfl

theorem execWait (m : BitVec 4) (p : Point) :
    AgreeResults u (Machine.execWait m p s₁) (Machine.execWait m p s₂) := by
  simp only [Machine.execWait, State.arriveFirst, State.arriveLater, State.stalledMask, h.tar, h.turn, h.wr,
    h.stalledAt]
  exact h.guarded rfl (.ite (.refused _) (.ite (.ite (h.retire rfl) (.next (h.stall p _))) (.ite (.refused _)
    (.ite (.next (h.release p)) (.next (h.stall p _))))))

theorem execInit (ra : RegNum) (v : Tid) :
    AgreeResults u (Machine.execInit ra v s₁) (Machine.execInit ra v s₂) := by
  simp only [Machine.execInit, h.active, h.activation, h.reg]
  exact h.guarded rfl (.ite (.refused _) ((h.startThread v _).retire rfl))

/-! ### The instruction and the cycle -/

/-- What an instruction does to the rest of the machine does not depend on thread u's own registers. -/
theorem exec (i : Instr) : AgreeResults u (Machine.exec i s₁) (Machine.exec i s₂) := by
  cases i with
  | add8 | add16 | sub8 | sub16 | avg8 | avg16 | savg8 | savg16 | addi8 | addi16 | subi8 | subi16
  | macLo | macHi | mulLo | mulHi => exact h.retireAlu (by simp only [h.reg])
  | rsl8 | rsl16 | rsa8 | rsa16 | lsl8 | lsl16 | rot8 | rot16
  | mixLo | mixHi | muxLo | muxHi | andW | orW | xorW | notW | copyLo | copyHi | swap | liHi | liLo =>
    exact h.retireReg (by simp only [h.reg])
  | getFlag | getSpr1 | getSpr2 | getIntr => exact h.retireReg (by rw [h.cur])
  | getWaitReg => exact h.retireReg (by rw [h.wr])
  | getTar => exact h.retireReg (by rw [h.tar])
  | getWs => exact h.retireReg (by rw [h.stalled])
  | getThread => exact h.retireReg (by rw [h.turn])
  | cmpEq16 | cmpNe16 | cmpGt16 | cmpGe16 | cmpLt16 | cmpLe16 => exact h.compareWords _ _ _ _
  | cmpEq8 | cmpNe8 | cmpGt8 | cmpGe8 | cmpLt8 | cmpLe8 => exact h.compareLanes _ _ _ _
  | lw | lwi | lwd => exact h.load _ _ _
  | sw | swi | swd => exact h.store _ _ _
  | swsg | swsgi | swsgd => exact h.videoStore _ _ _ _
  | jmpr | jalr => exact h.jump (h.reg _).symm
  | jmpi | jali => exact h.jump (by rw [h.cur])
  | jmpSpr1 => exact h.guarded (by rw [h.cur]) (.next (h.updCur rfl))
  | swft => exact h.execSwft _ _ _
  | read => exact h.execRead _ _ _
  | write => exact h.execWrite _ _ _
  | wait => exact h.execWait _ _
  | kill => exact .next h.killed
  | init => exact h.execInit _ _
  | putFlag | putSpr1 => exact h.retire (by simp only [h.reg])
  | getExr | putDebug | putIntrMask | nop => exact h.retire rfl

theorem takeInterrupt (isr : Word) : AgreeOnTurn u (s₁.takeInterrupt isr) (s₂.takeInterrupt isr) := by
  have hentered : AgreeOnTurn u (s₁.updCur (Thread.enterInterrupt s₁.turn isr))
      (s₂.updCur (Thread.enterInterrupt s₂.turn isr)) := h.updCur (by rw [h.turn])
  exact hentered.mapShared (fun s => { s with irq := s.irq.set s.turn none }) (fun _ => rfl) rfl fun _ => rfl

theorem boundary (i : Instr) : AgreeOnTurn u (s₁.boundary i) (s₂.boundary i) := by
  have hticks : AgreeOnTurn u { s₁ with freeTicks := s₁.freeTicks + 1 }
      { s₂ with freeTicks := s₂.freeTicks + 1 } :=
    h.mapShared (fun s => { s with freeTicks := s.freeTicks + 1 }) (fun _ => rfl) rfl fun _ => rfl
  have hopen : s₂.boundaryOpen i = s₁.boundaryOpen i := by
    simp only [State.boundaryOpen, h.turn, h.runnable, h.cur]
  simp only [State.boundary, h.irq, h.turn, h.freeTicks, hopen] at hticks ⊢
  cases s₁.irq[s₁.turn] with
  | none => exact h
  | some isr =>
    cases s₁.boundaryOpen i with
    | false => exact h
    | true =>
      cases Config.interruptTaken s₁.freeTicks with
      | false => exact hticks
      | true => exact hticks.takeInterrupt isr

theorem deviceMove (m : DeviceMove) : AgreeOnTurn u (s₁.deviceMove m) (s₂.deviceMove m) :=
  h.mapShared (·.deviceMove m) (fun _ => by cases m <;> rfl) (by cases m <;> rfl) fun _ => by cases m <;> rfl

omit h in
theorem deviceMoves (ms : List DeviceMove) {s₁ s₂ : State} (h : AgreeOnTurn u s₁ s₂) :
    AgreeOnTurn u (s₁.deviceMoves ms) (s₂.deviceMoves ms) := by
  induction ms generalizing s₁ s₂ with
  | nil => exact h
  | cons m ms ih => exact ih (h.deviceMove m)

theorem completeActivation : AgreeOnTurn u s₁.completeActivation s₂.completeActivation := by
  simp only [State.completeActivation, h.activation]
  cases s₁.activation with
  | none => exact h
  | some p =>
    exact h.mapShared (fun s => { s with tar := withBit s.tar p.target, activation := none }) (fun _ => rfl) rfl
      fun _ => rfl

theorem beginCycle : AgreeOnTurn u s₁.beginCycle s₂.beginCycle := by
  have hinputs : AgreeOnTurn u s₁.takeInputs s₂.takeInputs := by
    rw [State.takeInputs, State.takeInputs, h.inputs]
    exact (h.deviceMoves (s₁.inputs.headD [])).mapShared (fun s => { s with inputs := s₁.inputs.tail })
      (fun _ => rfl) rfl fun _ => rfl
  have hdue : s₂.takeInputs.activationDue = s₁.takeInputs.activationDue := by
    simp only [State.activationDue, hinputs.activation, hinputs.turn]
  simp only [State.beginCycle, State.activate, hdue]
  cases s₁.takeInputs.activationDue with
  | false => exact hinputs
  | true => exact hinputs.completeActivation

theorem runTurn : AgreeResults u s₁.runTurn s₂.runTurn := by
  have hfetch : s₂.fetch = s₁.fetch := by simp only [State.fetch, h.cur, h.loadWord]
  rw [State.runTurn, State.runTurn, hfetch]
  cases s₁.fetch with
  | error r => exact .fault r
  | ok w =>
    simp only
    cases decodeWord w with
    | error e => exact .next (h.raise _)
    | ok i => exact (h.exec i).onNext fun ht => .next (ht.boundary i)

theorem turnStep : AgreeResults u s₁.turnStep s₂.turnStep := by
  simp only [State.turnStep, h.turn, h.runnable]
  exact .ite h.runTurn (.next h)

end AgreeOnTurn

/-! ## The statements -/

/-- Settles O51: the start of the cycle, the instruction, its boundary and the rotation each keep the invariant. -/
theorem everyStepKeepsTheInvariant : Obligations.EveryStepKeepsTheInvariant := by
  intro s s' hs h
  obtain ⟨hbegin, hdue⟩ := hs.beginCycle
  rcases step_executes h with rfl | rfl | ⟨i, t, hrun, -, hexec, rfl⟩
  · exact hbegin.rotate
  · exact (hbegin.localStep (localStep_raise _ _)).rotate
  · rw [← State.turn_beginCycle] at hrun
    exact ((hbegin.exec hrun hdue hexec).boundary i).rotate

/-- Settles O53: a step leaves all of another thread but its pc, or it is the KILL that thread waits for. -/
theorem noStepWritesAnotherThreadsPrivateState : Obligations.NoStepWritesAnotherThreadsPrivateState := by
  intro s s' u h hu
  rcases step_otherThread h hu with hsame | ⟨hdecode, hwaits, hentered⟩
  · rw [hsame]
    exact ⟨rfl, rfl, rfl, rfl, .inl ⟨rfl, rfl, rfl, rfl⟩⟩
  · rw [hentered]
    exact ⟨rfl, rfl, rfl, rfl, .inr ⟨hdecode, hwaits, rfl⟩⟩

/-- Settles O54: the two cycles run in agreement up to the rotation, which reads no thread. -/
theorem noStepReadsAnotherThreadsPrivateState : Obligations.NoStepReadsAnotherThreadsPrivateState := by
  intro s₁ s₂ u hagree hu
  obtain ⟨hshared, hthread, hpc⟩ := agreeButPrivate_iff.mp hagree
  have hturn := (AgreeOnTurn.mk hshared hthread hpc hu).beginCycle.turnStep
  simp only [step]
  generalize s₁.beginCycle.turnStep = r₁ at hturn
  generalize s₂.beginCycle.turnStep = r₂ at hturn
  cases hturn with
  | @next t₁ t₂ h =>
    refine ⟨fun t ht => ?_, nofun, nofun⟩
    cases ht
    refine ⟨t₂.rotate, rfl, agreeButPrivate_iff.mpr ⟨?_, h.thread, h.pc⟩⟩
    exact congrArg State.rotate h.shared
  | fault r => exact ⟨nofun, fun f hf => hf, nofun⟩
  | refused r => exact ⟨nofun, nofun, fun f hf => hf⟩

/-- Settles O48: the entry by `raise_raised`, the bits by `getLsbD_excBits` and the codes of the five exceptions. -/
theorem exceptionEntry : Obligations.ExceptionEntry := by
  intro s es
  refine ⟨excBits es, s.raise_raised es, fun i => ?_⟩
  rw [getLsbD_excBits]
  constructor
  · rintro ⟨e, he, rfl⟩
    cases e <;> simp [Exc.code, he]
  · rintro (⟨rfl, he⟩ | ⟨rfl, he⟩ | ⟨rfl, he⟩ | ⟨rfl, he⟩ | ⟨rfl, he⟩) <;> exact ⟨_, he, rfl⟩

/-- Settles O55: the start of the cycle sets only the bit of the due activation's target, and of what follows only
KILL changes TAR. -/
theorem onlyInitAndKillChangeTheActiveThreads : Obligations.OnlyInitAndKillChangeTheActiveThreads := by
  intro s s' u h
  have hbegin := s.active_beginCycle u
  constructor
  · intro hdead hactive
    have hset : s.beginCycle.active u = true := by
      rcases step_active h u with hsame | ⟨-, hkilled⟩
      · exact hsame.symm.trans hactive
      · rw [hactive] at hkilled
        exact (Bool.and_eq_true _ _ ▸ hkilled.symm).1
    exact (hbegin.mp hset).resolve_left (by rw [hdead]; decide)
  · intro hactive hdead
    have hset := hbegin.mpr (.inl hactive)
    rcases step_active h u with hsame | ⟨hdecode, hkilled⟩
    · exact absurd (hsame.symm.trans hdead) (by rw [hset]; decide)
    · rw [hdead, hset, Bool.true_and] at hkilled
      exact ⟨by simpa using hkilled.symm, hdecode⟩

/-- Settles O56: a flag of another thread never changes; of the executing thread only one the table lists, and
bit 0 always reads 1. -/
theorem onlyTheListedWritersChangeFlags : Obligations.OnlyTheListedWritersChangeFlags := by
  intro i s t u k h hchanged
  by_cases hu : u = s.turn
  · subst hu
    refine ⟨rfl, ?_, ?_⟩
    · rcases exec_ownOutcome h with ⟨es, hentered⟩ | hwrites
      · rw [hentered] at hchanged
        exact absurd rfl hchanged
      · by_contra hk
        exact hchanged (hwrites.flags k (Bool.eq_false_iff.mpr hk))
    · rintro rfl
      exact hchanged rfl
  · rcases exec_otherThread h hu with hsame | ⟨-, -, hentered⟩
    · rw [hsame] at hchanged
      exact absurd rfl hchanged
    · rw [hentered] at hchanged
      exact absurd rfl hchanged

/-- Settles O57: without GET.EXR a thread's EXR changes only by an exception entry. -/
theorem onlyGetExrClearsExceptionBits : Obligations.OnlyGetExrClearsExceptionBits := by
  intro i s t u h hi
  have outcome : (∃ es, t.thread u = Thread.enterException u es (s.thread u)) ∨
      (t.thread u).exr = (s.thread u).exr := by
    by_cases hu : u = s.turn
    · subst hu
      exact (exec_ownOutcome h).imp id fun hwrites => hwrites.exr (hi rfl)
    · rcases exec_otherThread h hu with hsame | ⟨-, -, hentered⟩
      · exact .inr (by rw [hsame])
      · exact .inl ⟨_, hentered⟩
  rcases outcome with ⟨es, hentered⟩ | hsame
  · rw [hentered]
    exact ⟨exr_enterException u es _, fun _ => ⟨rfl, rfl, rfl, rfl⟩⟩
  · rw [hsame]
    exact ⟨BitVec.and_self, fun hne => absurd rfl hne⟩

/-- Settles O8: each field of the reset state. -/
theorem resetStateHasTheGivenValues : Obligations.ResetStateHasTheGivenValues := by
  refine ⟨fun u => ⟨?_, ?_, Vector.getElem_replicate .., ?_⟩, wr_reset, fun p => ⟨inq_reset p, outq_reset p, ?_⟩,
    rfl, rfl, rfl⟩
  · revert u; decide
  · rw [State.stalled, ws_reset]
  · rw [thread_reset]
    exact ⟨rfl, readReg_reset 0, rfl, rfl, rfl, rfl⟩
  · rw [State.portReceived, outq_reset, List.append_nil]
    exact Vector.getElem_replicate ..

/-- Settles O50: no thread, queue or barrier of the reset state holds anything. -/
theorem invariantHoldsAfterReset : Obligations.InvariantHoldsAfterReset where
  memory := rfl
  r0 u _ := by rw [thread_reset]; exact readReg_reset 0
  flag0 u := by rw [thread_reset]; rfl
  exr u := by rw [thread_reset]; rfl
  queues p := by rw [inq_reset, outq_reset]; exact ⟨Nat.zero_le _, Nat.zero_le _⟩
  video _ hv := absurd hv List.not_mem_nil
  barriers p := by
    rw [wr_reset]
    simp [stalledAt_reset]
  activation _ ha := absurd ha (by simp [State.reset])

end Sys2Proof.Machine
end

section
/-!
PROOFS. The statements of spec/20_memory.md: write protection (R70, R74), the fetch (R72), the order of memory
operations under the two schedules (R75), the devices (R83), stores and video stores (R70, R78).
-/

namespace Sys2Proof.Machine

/-! ## Write protection (R70, R74) -/

theorem SameMemory.protectedStep {s t : State} (h : SameMemory s t) : ProtectedStep s t :=
  fun a _ hne => absurd (h a) hne

/-- Of what an instruction can lead to, only a local step touches memory. -/
theorem exec_protected {i : Instr} {s t : State} (h : exec i s = .next t) : ProtectedStep s t := by
  cases exec_leads h with
  | ownStep hlocal => exact hlocal.protection
  | stall | release | kill | start => exact SameMemory.protectedStep fun _ => rfl

/-! ## The thread's turn (R72, R102) -/

theorem State.fetch_of_not_aligned {s : State} (h : ¬ IsAligned s.cur.pc) : s.fetch = .error .fetchOdd := by
  rw [State.fetch, (isOdd_eq_true_iff _).mpr h, if_pos rfl]

theorem State.fetch_of_dataMemory {s : State} (ha : IsAligned s.cur.pc) (hpc : 0x8000 ≤ s.cur.pc.toNat) :
    s.fetch = .error .fetchOutsideProgramMemory := by
  rw [State.fetch, (isOdd_eq_false_iff _).mpr ha, topBit_eq, decide_eq_true hpc]
  rfl

theorem State.runTurn_of_fetch_error {s : State} {r : Fault} (h : s.fetch = .error r) : s.runTurn = .fault r := by
  rw [State.runTurn, h]

theorem State.runTurn_of_decode {s : State} {w : Word} {i : Instr} (hfetch : s.fetch = .ok w)
    (hdecode : decodeWord w = .ok i) :
    s.runTurn = onNext (fun t => .next (t.boundary i)) (exec i s) := by
  rw [State.runTurn, hfetch]
  simp only [hdecode]

/-- The step of a thread that takes its turn (R360). -/
theorem step_of_runnable {s : State} (h : s.beginCycle.runnable s.turn = true) :
    step s = onNext (fun t => .next t.rotate) s.beginCycle.runTurn := by
  rw [step, State.turnStep, State.turn_beginCycle, h, if_pos rfl]

theorem onNext_onNext (f g : State → State) (r : Result) :
    onNext (fun t => .next (g t)) (onNext (fun t => .next (f t)) r) = onNext (fun t => .next (g (f t))) r := by
  cases r <;> rfl

/-! ## Devices (R83, R311) -/

theorem getElem_set_fin {α : Type} {n : Nat} (v : Vector α n) (p q : Fin n) (x : α) :
    (v.set p x)[q] = if q = p then x else v[q] := by
  simp only [Fin.getElem_fin, Vector.getElem_set, Fin.val_inj, eq_comm]

/-- The input queues after a word is offered to one of them (R83). -/
theorem State.getElem_inq_offer (s : State) (p q : Port) (v : Word) :
    (s.deviceMove (.offer p v)).inq[q] =
      if q = p ∧ (s.inq[p]).length < Config.inQueueDepth then s.inq[q] ++ [v] else s.inq[q] := by
  rw [State.inq_offer]
  by_cases hroom : (s.inq[p]).length < Config.inQueueDepth
  · rw [if_pos hroom, getElem_set_fin]
    by_cases hq : q = p
    · subst hq
      rw [if_pos rfl, if_pos ⟨rfl, hroom⟩]
    · rw [if_neg hq, if_neg fun h => hq h.1]
  · rw [if_neg hroom, if_neg fun h => hroom h.2]

/-- The output queues after a device takes a word from one of them (R83). -/
theorem State.getElem_outq_drain (s : State) (p q : Port) :
    (s.deviceMove (.drain p)).outq[q] = if q = p then (s.outq[q]).drop 1 else s.outq[q] := by
  rw [State.outq_drain, getElem_set_fin]
  split
  · subst_vars; exact List.drop_one.symm
  · rfl

/-- The requests after a device raises one (R311). -/
theorem State.getElem_irq_request (s : State) (u n : Tid) (a : Word) :
    (s.deviceMove (.request u a)).irq[n] = if n = u ∧ s.irq[u] = none then some a else s.irq[n] := by
  rw [State.irq_request]
  by_cases hfree : s.irq[u] = none
  · rw [if_pos (Option.isNone_iff_eq_none.mpr hfree), getElem_set_fin]
    simp only [hfree, and_true]
  · rw [if_neg (mt Option.isNone_iff_eq_none.mp hfree), if_neg fun h => hfree h.2]

/-! ## Stores (R199, R203, R209) -/

/-- The registers after a stepping form, or after one that keeps the address register. -/
theorem Thread.readReg_stepReg_eq_regsStepped (th : Thread) (ra : RegNum) {step : Option Int} {w : Option Word}
    (hw : w = step.map (BitVec.ofInt 16)) : (th.stepReg ra w).readReg = regsStepped th ra step := by
  subst hw
  cases step with
  | none => rfl
  | some d => exact funext (th.readReg_stepReg ra d _ rfl)

/-- A permitted store, its effect in the terms of `regsStepped` (R200, R201, R202). -/
theorem State.store_completes_stepped (s : State) (step : Option Int) {w : Option Word}
    (hw : w = step.map (BitVec.ofInt 16)) (ra rb : RegNum) (ha : IsAligned (s.reg ra))
    (hp : StorePermitted s.cur.pc (s.reg ra)) :
    ∃ t, s.store w ra rb = .next t ∧ StoreEffect s t (s.reg ra) (s.reg rb) (regsStepped s.cur ra step) := by
  rw [← s.cur.readReg_stepReg_eq_regsStepped ra hw]
  exact s.store_completes w ra rb ha hp

/-- A video store with selector 0, 1 or 2, its effect in the terms of `regsStepped` (R210, R211, R212). -/
theorem State.videoStore_completes_stepped (s : State) (step : Option Int) {w : Option Word}
    (hw : w = step.map (BitVec.ofInt 16)) (ra rb rd : RegNum) (hsel : (s.reg rd).toNat ≤ 2) :
    ∃ t, s.videoStore w ra rb rd = .next t ∧
      VideoEffect s t (s.reg rd) (s.reg ra) (s.reg rb) (regsStepped s.cur ra step) := by
  rw [← s.cur.readReg_stepReg_eq_regsStepped ra hw]
  exact s.videoStore_completes w ra rb rd hsel

/-- A permitted SWFT is the store, then the port write, then flag 6. -/
theorem execSwft_of_permitted {s : State} {ra : RegNum} (rb rd : RegNum) (ha : IsAligned (s.reg ra))
    (hp : StorePermitted s.cur.pc (s.reg ra)) :
    execSwft ra rb rd s =
      ((s.storeWord (s.reg ra) (s.reg rb)).portWrite rd (s.reg rb)).retire fun th =>
        th.writeFlag 6 (s.portHasRoom rd) := by
  simp only [execSwft, (storeExc_eq_nil_iff _ _).mpr ⟨ha, hp⟩, State.guarded_nil, swftPort_field]

/-! ## The device moves to come are read by no instruction (R83, log 7) -/

/-- The machine with another list of device moves to come. -/
def State.withInputs (l : List (List DeviceMove)) (s : State) : State := { s with inputs := l }

/-- A result with another list of device moves to come. -/
def resultWithInputs (l : List (List DeviceMove)) (r : Result) : Result := onNext (fun t => .next (t.withInputs l)) r

section
variable (l : List (List DeviceMove)) (s : State)

theorem retire_withInputs (f : Thread → Thread) : (s.withInputs l).retire f = resultWithInputs l (s.retire f) := rfl

variable {l s}

theorem ite_withInputs {c : Prop} {d d' : Decidable c} {a a' b b' : Result} (ha : a' = resultWithInputs l a)
    (hb : b' = resultWithInputs l b) : @ite _ c d' a' b' = resultWithInputs l (@ite _ c d a b) := by
  by_cases h : c
  · rw [if_pos h, if_pos h, ha]
  · rw [if_neg h, if_neg h, hb]

theorem guarded_withInputs {es : List Exc} {go go' : Result} (hgo : go' = resultWithInputs l go) :
    (s.withInputs l).guarded es go' = resultWithInputs l (s.guarded es go) := by
  cases es with
  | nil => exact hgo
  | cons e es => rfl

variable (l s)

theorem load_withInputs (step : Option Word) (ra rd : RegNum) :
    (s.withInputs l).load step ra rd = resultWithInputs l (s.load step ra rd) :=
  guarded_withInputs (ite_withInputs rfl (retire_withInputs l s _))

theorem store_withInputs (step : Option Word) (ra rb : RegNum) :
    (s.withInputs l).store step ra rb = resultWithInputs l (s.store step ra rb) :=
  guarded_withInputs (retire_withInputs l (s.storeWord _ _) _)

theorem videoStore_withInputs (step : Option Word) (ra rb rd : RegNum) :
    (s.withInputs l).videoStore step ra rb rd = resultWithInputs l (s.videoStore step ra rb rd) :=
  ite_withInputs (retire_withInputs l s _) (ite_withInputs (retire_withInputs l (s.vramWrite _ _ _) _) rfl)

theorem jump_withInputs (cb : FlagNum) (link : Bool) (target : Word) :
    (s.withInputs l).jump cb link target = resultWithInputs l (s.jump cb link target) :=
  ite_withInputs (guarded_withInputs rfl) (ite_withInputs (retire_withInputs l s _) (retire_withInputs l s _))

theorem execSwft_withInputs (ra rb rd : RegNum) :
    execSwft ra rb rd (s.withInputs l) = resultWithInputs l (execSwft ra rb rd s) :=
  guarded_withInputs (retire_withInputs l ((s.storeWord _ _).portWrite _ _) _)

theorem execRead_withInputs (p : Port) (cb : FlagNum) (rd : RegNum) :
    execRead p cb rd (s.withInputs l) = resultWithInputs l (execRead p cb rd s) := by
  have hq : (s.withInputs l).inq[p] = s.inq[p] := rfl
  simp only [execRead, State.portRead, hq]
  cases s.inq[p] with
  | nil => exact retire_withInputs l s _
  | cons v rest => exact retire_withInputs l { s with inq := s.inq.set p rest } _

theorem execWait_withInputs (m : BitVec 4) (p : Point) :
    execWait m p (s.withInputs l) = resultWithInputs l (execWait m p s) :=
  guarded_withInputs (ite_withInputs rfl (ite_withInputs (ite_withInputs (retire_withInputs l s _) rfl)
    (ite_withInputs rfl (ite_withInputs rfl rfl))))

theorem execInit_withInputs (ra : RegNum) (u : Tid) :
    execInit ra u (s.withInputs l) = resultWithInputs l (execInit ra u s) :=
  guarded_withInputs (ite_withInputs rfl (retire_withInputs l (s.startThread u _) _))

/-- No instruction reads or writes the list of device moves to come. -/
theorem exec_withInputs (i : Instr) : exec i (s.withInputs l) = resultWithInputs l (exec i s) := by
  cases i with
  | add8 | add16 | sub8 | sub16 | avg8 | avg16 | savg8 | savg16 | addi8 | addi16 | subi8 | subi16
  | macLo | macHi | mulLo | mulHi
  | rsl8 | rsl16 | rsa8 | rsa16 | lsl8 | lsl16 | rot8 | rot16
  | mixLo | mixHi | muxLo | muxHi | andW | orW | xorW | notW | copyLo | copyHi | swap | liHi | liLo
  | cmpEq8 | cmpEq16 | cmpNe8 | cmpNe16 | cmpGt8 | cmpGt16 | cmpGe8 | cmpGe16 | cmpLt8 | cmpLt16 | cmpLe8 | cmpLe16
  | getFlag | getSpr1 | getSpr2 | getExr | getWaitReg | getTar | getWs | getIntr | getThread
  | putFlag | putSpr1 | putDebug | putIntrMask | nop => exact retire_withInputs l s _
  | write => exact retire_withInputs l (s.portWrite _ _) _
  | lw | lwi | lwd => exact load_withInputs l s _ _ _
  | sw | swi | swd => exact store_withInputs l s _ _ _
  | swsg | swsgi | swsgd => exact videoStore_withInputs l s _ _ _ _
  | jmpr | jalr | jmpi | jali => exact jump_withInputs l s _ _ _
  | jmpSpr1 => exact guarded_withInputs rfl
  | swft => exact execSwft_withInputs l s _ _ _
  | read => exact execRead_withInputs l s _ _ _
  | wait => exact execWait_withInputs l s _ _
  | kill => rfl
  | init => exact execInit_withInputs l s _ _

theorem boundary_withInputs (i : Instr) : (s.withInputs l).boundary i = (s.boundary i).withInputs l := by
  have hirq : (s.withInputs l).irq[(s.withInputs l).turn] = s.irq[s.turn] := rfl
  have hopen : (s.withInputs l).boundaryOpen i = s.boundaryOpen i := rfl
  have hticks : (s.withInputs l).freeTicks = s.freeTicks := rfl
  simp only [State.boundary, hirq, hopen, hticks]
  cases s.irq[s.turn] with
  | none => rfl
  | some isr =>
    cases s.boundaryOpen i with
    | false => rfl
    | true => cases Config.interruptTaken s.freeTicks <;> rfl

theorem runTurn_withInputs : (s.withInputs l).runTurn = resultWithInputs l s.runTurn := by
  have hfetch : (s.withInputs l).fetch = s.fetch := rfl
  rw [State.runTurn, State.runTurn, hfetch]
  cases s.fetch with
  | error r => rfl
  | ok w =>
    simp only
    cases decodeWord w with
    | error e => rfl
    | ok i =>
      simp only [exec_withInputs]
      cases exec i s with
      | next t => exact congrArg Host.Outcome.next (boundary_withInputs l t i)
      | fault r => rfl
      | refused r => rfl

theorem activate_withInputs : (s.withInputs l).activate = s.activate.withInputs l := by
  have hdue : (s.withInputs l).activationDue = s.activationDue := rfl
  have hact : (s.withInputs l).activation = s.activation := rfl
  simp only [State.activate, State.completeActivation, hdue, hact]
  split
  · cases s.activation <;> rfl
  · rfl

end

/-! ## A cycle of the round robin as moves of any_fair (R75, R236, R360) -/

theorem FairState.run_append (f : FairState) (ms ms' : List FairMove) :
    f.run (ms ++ ms') = (f.run ms).bind (·.run ms') := by
  induction ms generalizing f with
  | nil => rfl
  | cons m ms ih =>
    simp only [List.cons_append, FairState.run]
    cases f.move m with
    | none => rfl
    | some f' => exact ih f'

theorem State.unscheduled_deviceMove (s : State) (m : DeviceMove) :
    (s.unscheduled.deviceMove m).unscheduled = (s.deviceMove m).unscheduled := by cases m <;> rfl

/-- The devices' moves of a cycle are moves of any_fair, whatever threads are held back. -/
theorem FairState.run_devices (s : State) (held : List Activation) (ms : List DeviceMove) :
    FairState.run ⟨s.unscheduled, held⟩ (ms.map .device) = some ⟨(s.deviceMoves ms).unscheduled, held⟩ := by
  induction ms generalizing s with
  | nil => rfl
  | cons m ms ih =>
    simp only [List.map_cons, FairState.run, FairState.move, State.unscheduled_deviceMove, Option.bind_some]
    exact ih (s.deviceMove m)

/-- The thread whose cycle it is starts its instruction under any_fair as it does in the round robin. -/
theorem FairState.startOf_turn (s : State) (held : List Activation) :
    FairState.startOf ⟨s.unscheduled, held⟩ s.turn = s.activate.withInputs [] := activate_withInputs [] s

/-- With no thread held back, the turn of a thread is a move of any_fair. -/
theorem FairState.move_turn {s t : State} (hrun : s.activate.runnable s.turn = true)
    (h : s.activate.runTurn = .next t) :
    FairState.move ⟨s.unscheduled, []⟩ (.run s.turn) = some ⟨t.unscheduled, []⟩ := by
  have hmay : FairState.mayRun ⟨s.unscheduled, []⟩ (s.activate.withInputs []) s.turn = true := by
    rw [FairState.mayRun, List.all_nil, Bool.and_true]
    exact hrun
  simp only [FairState.move, FairState.startOf_turn, hmay, if_true, runTurn_withInputs, h]
  rfl

theorem State.takeInputs_turn (s : State) : s.takeInputs.turn = s.turn := by
  rw [State.takeInputs, State.deviceMoves_eq]

theorem State.takeInputs_activation (s : State) : s.takeInputs.activation = s.activation := by
  rw [State.takeInputs, State.deviceMoves_eq]

/-- Where no activation is due, the start of a cycle is the devices' moves. -/
theorem State.beginCycle_of_noneDue {s : State} (h : NoneDue s) : s.beginCycle = s.takeInputs := by
  have hdue : s.takeInputs.activationDue = false := by
    rw [State.activationDue, State.takeInputs_activation, State.takeInputs_turn]
    cases hact : s.activation with
    | none => rfl
    | some a => exact beq_eq_false_iff_ne.mpr (h a hact)
  rw [State.beginCycle, State.activate, hdue]
  rfl

/-- A thread that made a pending activation executes in its next cycle (R236): in a cycle that passes, none is
due. -/
theorem State.Inv.noneDue_of_not_runnable {s : State} (hs : s.Inv) (h : s.beginCycle.runnable s.turn = false) :
    NoneDue s := by
  intro a ha hturn
  obtain ⟨-, hinitiator⟩ := hs.activation a ha
  rw [hturn, State.runnable_iff] at hinitiator
  obtain ⟨hactive, hstalled⟩ := hinitiator
  obtain ⟨-, -, -, -, hws, -⟩ := s.beginCycle_same
  have hrun : s.beginCycle.runnable s.turn = true :=
    (State.runnable_iff _ _).mpr
      ⟨(s.active_beginCycle _).mpr (.inl hactive), by rw [State.stalled, hws]; exact hstalled⟩
  exact absurd (h.symm.trans hrun) (by decide)

/-- One clock cycle of the round robin as moves of any_fair: those of the devices, then, unless the cycle passes,
the instruction of the thread whose cycle it is, with which an activation that is due completes. -/
def State.cycleMoves (s : State) : List FairMove :=
  (s.inputs.headD []).map .device ++ if s.beginCycle.runnable s.turn then [.run s.turn] else []

/-- A step from a state with the invariant is the moves of its cycle; no thread is held back before or after. -/
theorem FairState.run_cycleMoves {s s' : State} (hs : s.Inv) (h : step s = .next s') :
    FairState.run ⟨s.unscheduled, []⟩ s.cycleMoves = some ⟨s'.unscheduled, []⟩ := by
  rw [State.cycleMoves, FairState.run_append, FairState.run_devices, Option.bind_some]
  change FairState.run ⟨s.takeInputs.unscheduled, []⟩ _ = _
  rcases step_cases h with ⟨hpass, rfl⟩ | ⟨hrun, t, hturn, rfl⟩
  · rw [hpass, State.beginCycle_of_noneDue (hs.noneDue_of_not_runnable hpass)]
    rfl
  · rw [hrun, if_pos rfl, ← s.takeInputs_turn, FairState.run]
    rw [← s.takeInputs_turn] at hrun
    rw [FairState.move_turn hrun hturn]
    rfl

/-! ## The statements -/

/-- Settles O52: of what a step does, only the executed instruction touches memory, and `exec_protected` bounds it. -/
theorem everyStepRespectsWriteProtection : Obligations.EveryStepRespectsWriteProtection := by
  intro s s' h
  have hmem := s.mem_beginCycle
  rcases step_executes h with rfl | rfl | ⟨i, t, -, -, hexec, rfl⟩
  · exact SameMemory.protectedStep fun a => congrArg (Memory.readByte · a) hmem
  · exact SameMemory.protectedStep fun a => congrArg (Memory.readByte · a) hmem
  · obtain ⟨-, -, -, hboundary, -⟩ := t.boundary_same i
    intro a ha hne
    rw [State.rotate_mem, hboundary, ← hmem] at hne
    rw [← s.cur_beginCycle]
    exact exec_protected hexec a ha hne

/-- Settles O59, by induction on the number of cycles: each is its `cycleMoves`, and keeps the invariant. -/
theorem anyFairContainsTheRoundRobin : Obligations.AnyFairContainsTheRoundRobin := by
  intro n
  induction n with
  | zero =>
    intro s s' _ h
    cases h
    exact ⟨[], rfl⟩
  | succ n ih =>
    intro s s' hs h
    rw [runFor] at h
    split at h
    · rename_i s₁ hstep
      obtain ⟨moves, hmoves⟩ := ih s₁ s' (everyStepKeepsTheInvariant s s₁ hs hstep) h
      refine ⟨s.cycleMoves ++ moves, ?_⟩
      rw [FairState.run_append, FairState.run_cycleMoves hs hstep, Option.bind_some, hmoves]
    · cases h
    · cases h

/-- Settles O9: each move's queue or request by its lemma, and no other field changes. -/
theorem deviceMovesChangeOnlyTheirQueueOrRequest : Obligations.DeviceMovesChangeOnlyTheirQueueOrRequest := by
  intro s
  refine ⟨fun p v => ⟨_, rfl, rfl, fun q => s.getElem_inq_offer p q v⟩, fun p => ⟨_, rfl, rfl, fun q => ?_⟩,
    fun u a => ⟨_, rfl, rfl, fun n => s.getElem_irq_request u n a⟩⟩
  exact ⟨s.getElem_outq_drain p q, s.portReceived_deviceMove _ q⟩

/-- Settles O25: the three rows of the encoding table, then the store without and with a step. -/
theorem permittedStoresComplete : Obligations.PermittedStoresComplete := by
  refine ⟨decodesAs_of_sub 16 0 rfl rfl fun _ => rfl, decodesAs_of_sub 16 1 rfl rfl fun _ => rfl,
    decodesAs_of_sub 16 2 rfl rfl fun _ => rfl, fun s ra rb ha hp => ⟨?_, ?_, ?_⟩⟩
  · exact s.store_completes_stepped none rfl ra rb ha hp
  · exact s.store_completes_stepped (some 2) (by decide) ra rb ha hp
  · exact s.store_completes_stepped (some (-2)) (by decide) ra rb ha hp

/-- Settles O26: the checks of every load and of every store come before its effects. -/
theorem forbiddenLoadsAndStoresRaise : Obligations.ForbiddenLoadsAndStoresRaise := by
  refine ⟨fun s ra rd ha => ⟨?_, ?_, ?_⟩, fun s ra rb rd hforbidden => ?_⟩
  · exact s.load_raises none ra rd ha
  · exact s.load_raises (some 2) ra rd ha
  · exact s.load_raises (some (-2)) ra rd ha
  · have raises (go : Result) := s.guarded_store_raises s.cur.pc (s.reg ra) go hforbidden
    exact ⟨raises _, raises _, raises _, raises _⟩

/-- Settles O27: the row of the encoding table, then the store, the port and flag 6. -/
theorem storeAndFallThroughToPort : Obligations.StoreAndFallThroughToPort := by
  refine ⟨decodesAs_of_sub 30 0 rfl rfl fun _ => rfl, fun s ra rb rd ha hp =>
    ⟨_, execSwft_of_permitted rb rd ha hp, ?_, s.storeWord_stored (s.reg rb) ha, s.portWrite_appended rd _, ?_⟩⟩ <;>
    rw [State.thread_updCur_of_eq (s := s)
      (s₁ := (s.storeWord (s.reg ra) (s.reg rb)).portWrite rd (s.reg rb)) _ rfl rfl]
  · rfl
  · exact ⟨fun _ => rfl, fun i => s.cur.readFlag_writeFlag_eq 6 _ i, rfl, SameControl.refl _⟩

/-- Settles O28: the three rows of the encoding table, then the video store without and with a step. -/
theorem videoStoresComplete : Obligations.VideoStoresComplete := by
  refine ⟨decodesAs_of_sub 30 1 rfl rfl fun _ => rfl, decodesAs_of_sub 30 2 rfl rfl fun _ => rfl,
    decodesAs_of_sub 30 3 rfl rfl fun _ => rfl, fun s ra rb rd hsel => ⟨?_, ?_, ?_⟩⟩
  · exact s.videoStore_completes_stepped none rfl ra rb rd hsel
  · exact s.videoStore_completes_stepped (some 1) (by decide) ra rb rd hsel
  · exact s.videoStore_completes_stepped (some (-1)) (by decide) ra rb rd hsel

/-- Settles O5: the fetch finds the word, the decoder the instruction. -/
theorem stepRunsTheDecodedInstruction : Obligations.StepRunsTheDecodedInstruction := by
  intro s i hrun ha hpc hdecode
  have hfetch := (s.beginCycle.fetch_eq_ok_iff _).mpr ⟨ha, hpc, rfl⟩
  rw [step_of_runnable (s.turn_beginCycle ▸ hrun), State.runTurn_of_decode hfetch hdecode, onNext_onNext]

/-- Settles O7: the fetch checks the pc's alignment first, then that it lies in program memory. -/
theorem fetchOutsideProgramMemoryFaults : Obligations.FetchOutsideProgramMemoryFaults := by
  intro s hrun
  rw [step_of_runnable hrun]
  refine ⟨fun hodd => ?_, fun ha hpc => ?_⟩
  · rw [State.runTurn_of_fetch_error (State.fetch_of_not_aligned hodd)]
    rfl
  · rw [State.runTurn_of_fetch_error (State.fetch_of_dataMemory ha hpc)]
    rfl

end Sys2Proof.Machine
end

section
/-!
PROOFS. The statements of spec/30_encoding.md: the encoder and the decoder (R92, R97, R102), the encoding table (R98),
the unassigned words (R99), and the sums and differences with their rows (R121 to R124, R129 to R132).
-/

namespace Sys2Proof

open Machine (DecodesAs fieldImm8 fieldD)

/-! ## Decoding what was encoded (R92, R95) -/

/-- IMM8 is put in bits 10:3 and read back from there. -/
theorem imm8Of_imm8Fields (op : BitVec 5) (imm : Byte) (d : BitVec 3) :
    imm8Of (imm8Fields op imm d) = imm := by
  revert imm
  show ∀ imm : Byte, imm.extractLsb' 6 2 ++ imm.extractLsb' 3 3 ++ imm.extractLsb' 0 3 = imm
  decide

/-- Every byte is an offset in reach. -/
theorem offsetFits_toInt (b : Byte) : offsetFits b.toInt = true := by
  have hlow := b.le_toInt
  have hhigh := b.toInt_lt
  simp only [offsetFits, Bool.and_eq_true, decide_eq_true_eq]
  omega

/-- An offset in reach survives its field. -/
theorem toInt_imm8Of_ofInt {offset : Int} (h : offsetFits offset = true) (op : BitVec 5) (d : BitVec 3) :
    (imm8Of (imm8Fields op (BitVec.ofInt 8 offset) d)).toInt = offset := by
  simp only [offsetFits, Bool.and_eq_true, decide_eq_true_eq] at h
  rw [imm8Of_imm8Fields, BitVec.toInt_ofInt, Int.bmod_eq_of_le] <;> omega

theorem maskField_wait (mask : BitVec 4) (point : Point) :
    maskField (encodeFields (.wait mask point)) = mask := by
  revert mask point; decide

theorem pairField_wait (mask : BitVec 4) (point : Point) :
    pairField (encodeFields (.wait mask point)) = point := by
  revert mask point; decide

theorem pairField_init (ra : RegNum) (target : Tid) : pairField (encodeFields (.init ra target)) = target := by
  revert ra target; decide

/-- The `.8`, `LO` and other forms whose bit 9 is 0 (R93). -/
theorem ite_sizeBit_zero {α : Type} {op : BitVec 5} {a b d : BitVec 3} {x y : α} :
    (if sizeBit (mkFields op 0 a b d) then x else y) = y :=
  if_neg (show ¬ (0#2).getLsbD 0 = true by decide)

/-- The `.16`, `HI` and other forms whose bit 9 is 1 (R93). -/
theorem ite_sizeBit_one {α : Type} {op : BitVec 5} {a b d : BitVec 3} {x y : α} :
    (if sizeBit (mkFields op 1 a b d) then x else y) = x :=
  if_pos (show (1#2).getLsbD 0 = true by decide)

/-- The fields of a well-formed instruction decode to it: opcode and sub-op choose its constructor, and each operand
survives its field. -/
theorem decodeFields_encodeFields {i : Instr} (h : i.wellFormed = true) :
    decodeFields (encodeFields i) = .ok i := by
  cases i with
  | rsl8 | rsa8 | lsl8 | rot8 | macLo | mulLo | mixLo | muxLo | read | jmpr =>
    exact ite_sizeBit_zero
  | rsl16 | rsa16 | lsl16 | rot16 | macHi | mulHi | mixHi | muxHi | write =>
    exact ite_sizeBit_one
  | wait mask point =>
    exact congrArg₂ (fun m p => Except.ok (Instr.wait m p)) (maskField_wait mask point) (pairField_wait mask point)
  | init ra target => exact congrArg (fun u => Except.ok (Instr.init ra u)) (pairField_init ra target)
  | jmpi offset cb => exact congrArg (fun n => Except.ok (Instr.jmpi n cb)) (toInt_imm8Of_ofInt h _ _)
  | jali offset cb => exact congrArg (fun n => Except.ok (Instr.jali n cb)) (toInt_imm8Of_ofInt h _ _)
  | liHi imm rd => exact congrArg (fun b => Except.ok (Instr.liHi b rd)) (imm8Of_imm8Fields _ imm _)
  | liLo imm rd => exact congrArg (fun b => Except.ok (Instr.liLo b rd)) (imm8Of_imm8Fields _ imm _)
  | putDebug value | putIntrMask value => cases value <;> rfl
  | _ => rfl

/-! ## The row of an opcode and sub-op (R97, R98) -/

/-- The row of the encoding table that an opcode and a sub-op belong to; none for the six unassigned pairs. -/
def rowAt (op : BitVec 5) (sub : BitVec 2) : Option Row :=
  (decodeFields ⟨op, sub, 0, 0, 0⟩).toOption.map rowOf

/-- Two choices by one bit are of one row if their sides are. -/
theorem rowOf_ite {i j i' j' : Instr} {c : Bool} (hi : rowOf i = rowOf i') (hj : rowOf j = rowOf j') :
    (if c then Except.ok (ε := DecodeError) i else .ok j).toOption.map rowOf =
      (if c then Except.ok (ε := DecodeError) i' else .ok j').toOption.map rowOf := by
  cases c
  · exact congrArg some hj
  · exact congrArg some hi

/-- The row of what is decoded depends on opcode and sub-op alone, the low fields being operands: on each row of the
opcode map directly, and for either value of bit 9 where that bit selects the row. -/
theorem rowAt_of_fields (f : Fields) : (decodeFields f).toOption.map rowOf = rowAt f.op f.sub := by
  obtain ⟨op, sub, a, b, d⟩ := f
  unfold rowAt decodeFields
  dsimp only
  split
  any_goals rfl
  all_goals exact rowOf_ite rfl rfl

theorem rowAt_of_decodeWord {w : Word} {i : Instr} (h : decodeWord w = .ok i) :
    rowAt (fieldsOf w).op (fieldsOf w).sub = some (rowOf i) := by
  rw [← rowAt_of_fields, ← decodeWord, h]
  rfl

/-- A word whose pair has a row decodes to an instruction of that row. -/
theorem exists_decodeWord_of_rowAt {w : Word} {r : Row} (h : rowAt (fieldsOf w).op (fieldsOf w).sub = some r) :
    ∃ j, decodeWord w = .ok j ∧ rowOf j = r := by
  rw [← rowAt_of_fields, ← decodeWord] at h
  cases hd : decodeWord w with
  | ok j => rw [hd] at h; exact ⟨j, rfl, Option.some.inj h⟩
  | error e => rw [hd] at h; cases h

theorem decodeWord_error_iff (w : Word) :
    (∃ e, decodeWord w = .error e) ↔ rowAt (fieldsOf w).op (fieldsOf w).sub = none := by
  rw [← rowAt_of_fields, ← decodeWord]
  cases decodeWord w with
  | ok i => exact ⟨nofun, nofun⟩
  | error e => exact ⟨fun _ => rfl, fun _ => ⟨e, rfl⟩⟩

/-- Every instruction's row is the row of its own opcode and sub-op. -/
theorem rowAt_encodeFields (i : Instr) : rowAt (encodeFields i).op (encodeFields i).sub = some (rowOf i) := by
  obtain ⟨j, hdecode, hrow⟩ : ∃ j, decodeFields (encodeFields i) = .ok j ∧ rowOf j = rowOf i := by
    cases i with
    | jmpi | jali => exact ⟨_, rfl, rfl⟩
    | _ => exact ⟨_, decodeFields_encodeFields rfl, rfl⟩
  rw [← rowAt_of_fields, hdecode, ← hrow]
  rfl

/-- The mask of a row holds the whole opcode and none of the low fields, and the row's value is what the mask leaves of
its opcode and sub-op. -/
theorem mask_of_rowAt : ∀ (op : BitVec 5) (sub : BitVec 2), ∀ r ∈ rowAt op sub,
    0xFE00 &&& r.mask = r.mask ∧ r.mask.extractLsb' 11 5 = BitVec.allOnes 5 ∧
      wordOf ⟨op, sub, 0, 0, 0⟩ &&& r.mask = r.value := by
  decide

/-- Every sub-op of the opcode that agrees with a row's value under its mask has that row. -/
theorem rowAt_of_mask : ∀ (op : BitVec 5) (sub sub' : BitVec 2), ∀ r ∈ rowAt op sub,
    wordOf ⟨op, sub', 0, 0, 0⟩ &&& r.mask = r.value → rowAt op sub' = some r := by
  decide

/-- Under a mask that holds none of the low fields, a word is its opcode and sub-op. -/
theorem and_mask_eq_wordOf (w : Word) {mask : Word} (h : 0xFE00 &&& mask = mask) :
    w &&& mask = wordOf ⟨(fieldsOf w).op, (fieldsOf w).sub, 0, 0, 0⟩ &&& mask := by
  have hword := Laws.row_of_sub (fieldsOf w).op (fieldsOf w).sub (fieldsOf w).a (fieldsOf w).b (fieldsOf w).d
  rw [← hword, BitVec.and_assoc, h]
  exact congrArg (· &&& mask) (wordOf_fieldsOf w).symm

/-- A word is of an instruction's row exactly when it matches that row (R98). -/
theorem rowAt_eq_rowOf_iff (w : Word) (i : Instr) :
    rowAt (fieldsOf w).op (fieldsOf w).sub = some (rowOf i) ↔ w &&& (rowOf i).mask = (rowOf i).value := by
  constructor
  · intro h
    obtain ⟨hlow, -, hvalue⟩ := mask_of_rowAt _ _ _ h
    rw [and_mask_eq_wordOf w hlow, hvalue]
  · intro h
    have hi := rowAt_encodeFields i
    obtain ⟨hlow, hop, hvalue⟩ := mask_of_rowAt _ _ _ hi
    have hsame : (fieldsOf w).op = (encodeFields i).op := by
      have hrow := fieldsOf_wordOf ⟨(encodeFields i).op, (encodeFields i).sub, 0, 0, 0⟩
      calc (fieldsOf w).op = (rowOf i).value.extractLsb' 11 5 := extract_of_row 11 5 h hop
        _ = (wordOf ⟨(encodeFields i).op, (encodeFields i).sub, 0, 0, 0⟩).extractLsb' 11 5 :=
          (extract_of_row 11 5 hvalue hop).symm
        _ = (encodeFields i).op := congrArg Fields.op hrow
    rw [and_mask_eq_wordOf w hlow, hsame] at h
    rw [hsame]
    exact rowAt_of_mask _ _ _ _ hi h

/-- The six pairs that Table 6 leaves empty (R99). -/
theorem rowAt_eq_none_iff : ∀ (op : BitVec 5) (sub : BitVec 2), rowAt op sub = none ↔
    (op.toNat, sub.toNat) ∈ [(15, 3), (16, 3), (18, 3), (29, 1), (29, 2), (29, 3)] := by
  decide

/-- The words of the six unassigned pairs, as ranges (R99). -/
theorem rowAt_fieldsOf_eq_none_iff (w : Word) : rowAt (fieldsOf w).op (fieldsOf w).sub = none ↔
    (0x7E00 ≤ w.toNat ∧ w.toNat ≤ 0x7FFF) ∨ (0x8600 ≤ w.toNat ∧ w.toNat ≤ 0x87FF) ∨
      (0x9600 ≤ w.toNat ∧ w.toNat ≤ 0x97FF) ∨ (0xEA00 ≤ w.toNat ∧ w.toNat ≤ 0xEFFF) := by
  have hw := wordOf_toNat (fieldsOf w)
  rw [wordOf_fieldsOf] at hw
  have hsub := (fieldsOf w).sub.isLt
  have ha := (fieldsOf w).a.isLt
  have hb := (fieldsOf w).b.isLt
  have hd := (fieldsOf w).d.isLt
  simp only [rowAt_eq_none_iff, List.mem_cons, List.not_mem_nil, or_false, Prod.mk.injEq]
  omega

/-! ## What is decoded is well-formed (R95) -/

theorem decodesAs_jmpi : DecodesAs 0xA800 0xF800 fun w => .jmpi (fieldImm8 w).toInt (fieldD w) :=
  decodesAs_of_op 21 rfl fun w =>
    congrArg (fun b : Byte => Except.ok (Instr.jmpi b.toInt (fieldD w))) (imm8_of_fields w)

theorem decodesAs_jali : DecodesAs 0xB000 0xF800 fun w => .jali (fieldImm8 w).toInt (fieldD w) :=
  decodesAs_of_op 22 rfl fun w =>
    congrArg (fun b : Byte => Except.ok (Instr.jali b.toInt (fieldD w))) (imm8_of_fields w)

/-- Only the jumps by an offset can be ill-formed, and their offset is read from eight bits. -/
theorem wellFormed_of_decodeWord {w : Word} {i : Instr} (h : decodeWord w = .ok i) : i.wellFormed = true := by
  have hrow := (rowAt_eq_rowOf_iff w i).mp (rowAt_of_decodeWord h)
  cases i with
  | jmpi offset cb =>
    cases h.symm.trans (decodesAs_jmpi w hrow)
    exact offsetFits_toInt _
  | jali offset cb =>
    cases h.symm.trans (decodesAs_jali w hrow)
    exact offsetFits_toInt _
  | _ => rfl

end Sys2Proof

namespace Sys2Proof.Machine

/-! ## Flags of sums and differences (R120) -/

/-- A word result names flag 6 alone, so that flag 7 is kept. -/
theorem AluOut.flags_word (v : Word) (carry : Bool) : (⟨v, carry, none⟩ : AluOut).flags = flagOnly 6 carry := by
  funext i
  simp only [AluOut.flags, flagOnly, ite_self]

theorem addWords_flags (a b : Word) :
    (addWords a b).flags = flagOnly 6 (decide (2 ^ 16 ≤ a.toNat + b.toNat)) := by
  rw [← sum17_carry]
  exact AluOut.flags_word _ _

theorem subWords_flags (a b : Word) : (subWords a b).flags = flagOnly 6 (decide (a.toNat < b.toNat)) :=
  AluOut.flags_word _ _

theorem addLanes_flags (a b : Word) :
    (addLanes a b).flags = flags67 (decide (2 ^ 8 ≤ lowLane a + lowLane b))
      (decide (2 ^ 8 ≤ highLane a + highLane b)) := by
  simp only [lowLane_eq, highLane_eq, ← sum9_carry]
  rfl

theorem subLanes_flags (a b : Word) :
    (subLanes a b).flags = flags67 (decide (lowLane a < lowLane b)) (decide (highLane a < highLane b)) := by
  simp only [lowLane_eq, highLane_eq]
  rfl

theorem lowLane_imm3Lanes (k : BitVec 3) : lowLane (imm3Lanes k) = k.toNat := by
  rw [lowLane_eq, imm3Lanes_lo]

theorem highLane_imm3Lanes (k : BitVec 3) : highLane (imm3Lanes k) = k.toNat := by
  rw [highLane_eq, imm3Lanes_hi]

/-! ## Sums and differences complete (R121 to R124) -/

section
variable (s : State) (rd : RegNum) (a b : Word)

theorem State.addWords_completes : ∃ t, s.retireAlu rd (addWords a b) = .next t ∧
    DataEffect s t rd (BitVec.ofNat 16 (a.toNat + b.toNat))
      (flagOnly 6 (decide (2 ^ 16 ≤ a.toNat + b.toNat))) := by
  have h := s.retireAlu_completes rd (addWords a b)
  rwa [addWords_value, addWords_flags] at h

theorem State.subWords_completes : ∃ t, s.retireAlu rd (subWords a b) = .next t ∧
    DataEffect s t rd (BitVec.ofInt 16 (a.toNat - b.toNat)) (flagOnly 6 (decide (a.toNat < b.toNat))) := by
  have h := s.retireAlu_completes rd (subWords a b)
  rwa [subWords_value, subWords_flags] at h

theorem State.addLanes_completes : ∃ t, s.retireAlu rd (addLanes a b) = .next t ∧
    DataEffect s t rd (ofLanes (highLane a + highLane b) (lowLane a + lowLane b))
      (flags67 (decide (2 ^ 8 ≤ lowLane a + lowLane b)) (decide (2 ^ 8 ≤ highLane a + highLane b))) := by
  have h := s.retireAlu_completes rd (addLanes a b)
  rwa [addLanes_value, addLanes_flags] at h

theorem State.subLanes_completes : ∃ t, s.retireAlu rd (subLanes a b) = .next t ∧
    DataEffect s t rd (ofLanes (highLane a - highLane b) (lowLane a - lowLane b))
      (flags67 (decide (lowLane a < lowLane b)) (decide (highLane a < highLane b))) := by
  have h := s.retireAlu_completes rd (subLanes a b)
  rwa [subLanes_value, subLanes_flags] at h

end

/-! ## The thread's turn on an unassigned word (R99) -/

theorem State.runTurn_of_decode_error {s : State} {w : Word} {e : DecodeError} (hfetch : s.fetch = .ok w)
    (hdecode : decodeWord w = .error e) : s.runTurn = .next (s.raise [.illegalInstruction]) := by
  rw [State.runTurn, hfetch]
  simp only [hdecode]

/-! ## The statements -/

/-- Settles O1: the fields of the word are those of the instruction, and they decode to it. -/
theorem decodeOfEncodeIsTheInstruction : Obligations.DecodeOfEncodeIsTheInstruction := by
  intro i h
  rw [decodeWord, encodeWord, fieldsOf_wordOf]
  exact decodeFields_encodeFields h

/-- Settles O2: decoding to an instruction of a row, having that row at its opcode and sub-op, and matching the row
are one thing. -/
theorem decodingFollowsTheEncodingTable : Obligations.DecodingFollowsTheEncodingTable :=
  ⟨fun w i h => ⟨(rowAt_eq_rowOf_iff w i).mp (rowAt_of_decodeWord h), wellFormed_of_decodeWord h⟩,
    fun w i h => exists_decodeWord_of_rowAt ((rowAt_eq_rowOf_iff w i).mpr h)⟩

/-- Settles O4: the words without a row are those of the six pairs, and the turn of a thread that fetches one is the
raise alone. -/
theorem unassignedWordsRaiseIllegalInstruction : Obligations.UnassignedWordsRaiseIllegalInstruction := by
  refine ⟨fun w => (decodeWord_error_iff w).trans (rowAt_fieldsOf_eq_none_iff w), fun s e ha hpc hdecode => ?_⟩
  have hfetch := (s.fetch_eq_ok_iff _).mpr ⟨ha, hpc, rfl⟩
  exact ⟨_, State.runTurn_of_decode_error hfetch hdecode, s.raise_raised [.illegalInstruction]⟩

/-- Settles O10: the two rows of the encoding table, then the word sum and difference. -/
theorem wordAddAndSubtract : Obligations.WordAddAndSubtract :=
  ⟨decodesAs_of_sub 0 1 rfl rfl fun _ => rfl, decodesAs_of_sub 0 3 rfl rfl fun _ => rfl, fun s ra rb rd =>
    ⟨s.addWords_completes rd (s.reg ra) (s.reg rb), s.subWords_completes rd (s.reg ra) (s.reg rb)⟩⟩

/-- Settles O11: the two rows of the encoding table, then the sums and differences of the lanes. -/
theorem laneAddAndSubtract : Obligations.LaneAddAndSubtract :=
  ⟨decodesAs_of_sub 0 0 rfl rfl fun _ => rfl, decodesAs_of_sub 0 2 rfl rfl fun _ => rfl, fun s ra rb rd =>
    ⟨s.addLanes_completes rd (s.reg ra) (s.reg rb), s.subLanes_completes rd (s.reg ra) (s.reg rb)⟩⟩

/-- Settles O12: the four rows of the encoding table, then the sums and differences with the immediate as second
operand: as a word, or in each lane. -/
theorem addAndSubtractImmediate : Obligations.AddAndSubtractImmediate := by
  refine ⟨decodesAs_of_sub 28 0 rfl rfl fun _ => rfl, decodesAs_of_sub 28 1 rfl rfl fun _ => rfl,
    decodesAs_of_sub 28 2 rfl rfl fun _ => rfl, decodesAs_of_sub 28 3 rfl rfl fun _ => rfl, fun s ra k rd => ?_⟩
  have addLanes := s.addLanes_completes rd (s.reg ra) (imm3Lanes k)
  have addWords := s.addWords_completes rd (s.reg ra) (imm3Word k)
  have subLanes := s.subLanes_completes rd (s.reg ra) (imm3Lanes k)
  have subWords := s.subWords_completes rd (s.reg ra) (imm3Word k)
  rw [lowLane_imm3Lanes, highLane_imm3Lanes] at addLanes subLanes
  rw [imm3Word_toNat] at addWords subWords
  exact ⟨addLanes, addWords, subLanes, subWords⟩

end Sys2Proof.Machine
end

section
/-!
PROOFS. The averages and halved differences (spec/40_arithmetic.md R125 to R128).
-/

namespace Sys2Proof.Machine

/-! ## Flags of averages and halved differences (R120) -/

theorem avgLanes_flags (a b : Word) : (avgLanes a b).flags = flags67 false false := rfl

theorem avgWords_flags (a b : Word) : (avgWords a b).flags = flagOnly 6 false :=
  AluOut.flags_word _ _

theorem savgLanes_flags (a b : Word) :
    (savgLanes a b).flags = flags67 (decide (lowLane a < lowLane b)) (decide (highLane a < highLane b)) := by
  simp only [lowLane_eq, highLane_eq, ← borrow9_eq]
  rfl

theorem savgWords_flags (a b : Word) : (savgWords a b).flags = flagOnly 6 (decide (a.toNat < b.toNat)) := by
  rw [← borrow17_eq]
  exact AluOut.flags_word _ _

/-! ## Averages and halved differences complete (R125 to R128) -/

section
variable (s : State) (rd : RegNum) (a b : Word)

theorem State.avgLanes_completes : ∃ t, s.retireAlu rd (avgLanes a b) = .next t ∧
    DataEffect s t rd (ofLanes ((highLane a + highLane b) / 2) ((lowLane a + lowLane b) / 2))
      (flags67 false false) := by
  have h := s.retireAlu_completes rd (avgLanes a b)
  rwa [avgLanes_value, avgLanes_flags] at h

theorem State.avgWords_completes : ∃ t, s.retireAlu rd (avgWords a b) = .next t ∧
    DataEffect s t rd (BitVec.ofNat 16 ((a.toNat + b.toNat) / 2)) (flagOnly 6 false) := by
  have h := s.retireAlu_completes rd (avgWords a b)
  rwa [avgWords_value, avgWords_flags] at h

theorem State.savgLanes_completes : ∃ t, s.retireAlu rd (savgLanes a b) = .next t ∧
    DataEffect s t rd
      (ofLanes (((highLane a : Int) - highLane b) / 2) (((lowLane a : Int) - lowLane b) / 2))
      (flags67 (decide (lowLane a < lowLane b)) (decide (highLane a < highLane b))) := by
  have h := s.retireAlu_completes rd (savgLanes a b)
  rwa [savgLanes_value, savgLanes_flags] at h

theorem State.savgWords_completes : ∃ t, s.retireAlu rd (savgWords a b) = .next t ∧
    DataEffect s t rd (BitVec.ofInt 16 ((a.toNat - b.toNat : Int) / 2))
      (flagOnly 6 (decide (a.toNat < b.toNat))) := by
  have h := s.retireAlu_completes rd (savgWords a b)
  rwa [savgWords_value, savgWords_flags] at h

end

/-! ## The statement -/

/-- Settles O13: the four rows of the encoding table, then the means and the halved differences. -/
theorem averagesAndHalvedDifferences : Obligations.AveragesAndHalvedDifferences :=
  ⟨decodesAs_of_sub 1 0 rfl rfl fun _ => rfl, decodesAs_of_sub 1 1 rfl rfl fun _ => rfl,
    decodesAs_of_sub 1 2 rfl rfl fun _ => rfl, decodesAs_of_sub 1 3 rfl rfl fun _ => rfl, fun s ra rb rd =>
    ⟨s.avgLanes_completes rd (s.reg ra) (s.reg rb), s.avgWords_completes rd (s.reg ra) (s.reg rb),
      s.savgLanes_completes rd (s.reg ra) (s.reg rb), s.savgWords_completes rd (s.reg ra) (s.reg rb)⟩⟩

end Sys2Proof.Machine
end

section
/-!
PROOFS. The shifts and rotates (spec/41_shift.md R140 to R148).
-/

namespace Sys2Proof.Machine

/-! ## Rows whose size is bit 9 (R93) -/

/-- Bit 9 of a word is the lower bit of its sub-op, where the decoder finds the size. -/
theorem sizeBit_eq_of_extract {f : Fields} {bit : BitVec 1} (h : f.sub.extractLsb' 0 1 = bit) :
    sizeBit f = bit.getLsbD 0 := by
  rw [← h]
  simp [sizeBit]

section
variable (op : BitVec 5) (i8 i16 : RegNum → RegNum → RegNum → Instr) {v : Word} (ho : v.extractLsb' 11 5 = op)
  (hd : ∀ sub a b d, decodeFields ⟨op, sub, a, b, d⟩ =
    if sizeBit ⟨op, sub, a, b, d⟩ then .ok (i16 (regOf a) (regOf b) (regOf d))
    else .ok (i8 (regOf a) (regOf b) (regOf d)))
include ho hd

/-- Where bit 9 chooses between two instructions, the row with bit 9 clear is that of the first. -/
theorem decodesR3_of_size_zero (hs : v.extractLsb' 9 1 = 0) : DecodesR3 v 0xFA00 i8 :=
  decodesAs_of_size op 0 ho hs fun sub hsub _ =>
    (hd sub _ _ _).trans (if_neg (by rw [sizeBit_eq_of_extract hsub]; decide))

/-- Where bit 9 chooses between two instructions, the row with bit 9 set is that of the second. -/
theorem decodesR3_of_size_one (hs : v.extractLsb' 9 1 = 1) : DecodesR3 v 0xFA00 i16 :=
  decodesAs_of_size op 1 ho hs fun sub hsub _ =>
    (hd sub _ _ _).trans (if_pos (by rw [sizeBit_eq_of_extract hsub]; decide))

end

/-! ## Shifted values as exact numbers -/

theorem ushiftRight_eq_div {w : Nat} (x : BitVec w) (n : Nat) :
    x >>> n = BitVec.ofNat w (x.toNat / 2 ^ n) := by
  rw [← ushiftRight_toNat, BitVec.ofNat_toNat, BitVec.setWidth_eq]

/-- A byte operation that is `g` on numbers, cut to 8 bits, is `g` on each lane. -/
theorem onLanes_eq_ofLanes {f : Byte → Byte} {g : Nat → Int} (h : ∀ x, f x = BitVec.ofInt 8 (g x.toNat))
    (v : Word) : onLanes f v = ofLanes (g (highLane v)) (g (lowLane v)) := by
  have cut : ∀ x, ((f x).toNat : Int) = g x.toNat % 256 := by
    intro x
    rw [h, BitVec.toNat_ofInt]
    omega
  rw [highLane_eq, lowLane_eq]
  exact joinBytes_eq_ofLanes _ _ _ _ (cut _) (cut _)

/-! ## Shifts complete (R140) -/

section
variable (s : State) (ra rb rd : RegNum)

/-- A word shift writes the shifted word alone, the amount being the low four bits of RB. -/
theorem State.shiftWord_completes {f : Word → Nat → Word} {v : Word}
    (h : f (s.reg ra) ((s.reg rb).toNat % 16) = v) :
    ∃ t, s.shiftWord f ra rb rd = .next t ∧ DataEffect s t rd v noFlags := by
  rw [State.shiftWord, shiftAmount16_eq, h]
  exact s.retireReg_completes rd v

/-- A lane shift writes the two shifted lanes alone, the amount for both being the low three bits of RB. -/
theorem State.shiftLanes_completes {f : Byte → Nat → Byte} (g : Nat → Nat → Int)
    (h : ∀ x, ∀ n < 8, f x n = BitVec.ofInt 8 (g x.toNat n)) :
    ∃ t, s.shiftLanes f ra rb rd = .next t ∧
      DataEffect s t rd (ofLanes (g (highLane (s.reg ra)) ((s.reg rb).toNat % 8))
        (g (lowLane (s.reg ra)) ((s.reg rb).toNat % 8))) noFlags := by
  have hn : (s.reg rb).toNat % 8 < 8 := Nat.mod_lt _ (by decide)
  rw [State.shiftLanes, shiftAmount8_eq, onLanes_eq_ofLanes (g := (g · _)) fun x => h x _ hn]
  exact s.retireReg_completes rd _

end

/-! ## The statements -/

/-- Settles O14: the four rows of the encoding table with bit 9 set, then each shifted word as one number; a rotation
because the amount is below 16. -/
theorem wordShiftsAndRotate : Obligations.WordShiftsAndRotate := by
  refine ⟨decodesR3_of_size_one 2 .rsl8 .rsl16 rfl (fun _ _ _ _ => rfl) rfl,
    decodesR3_of_size_one 3 .rsa8 .rsa16 rfl (fun _ _ _ _ => rfl) rfl,
    decodesR3_of_size_one 4 .lsl8 .lsl16 rfl (fun _ _ _ _ => rfl) rfl,
    decodesR3_of_size_one 5 .rot8 .rot16 rfl (fun _ _ _ _ => rfl) rfl,
    fun s ra rb rd => ⟨?_, ?_, ?_, ?_⟩⟩
  · exact s.shiftWord_completes ra rb rd (ushiftRight_eq_div _ _)
  · exact s.shiftWord_completes ra rb rd (sshiftRight_eq _ _)
  · exact s.shiftWord_completes ra rb rd (shiftLeft_eq_mul _ _)
  · exact s.shiftWord_completes ra rb rd (rotateLeft_eq _ _ (Nat.mod_lt _ (by decide)))

/-- Settles O15: the four rows of the encoding table with bit 9 clear, then each shift of a byte as one number. -/
theorem laneShiftsAndRotate : Obligations.LaneShiftsAndRotate := by
  refine ⟨decodesR3_of_size_zero 2 .rsl8 .rsl16 rfl (fun _ _ _ _ => rfl) rfl,
    decodesR3_of_size_zero 3 .rsa8 .rsa16 rfl (fun _ _ _ _ => rfl) rfl,
    decodesR3_of_size_zero 4 .lsl8 .lsl16 rfl (fun _ _ _ _ => rfl) rfl,
    decodesR3_of_size_zero 5 .rot8 .rot16 rfl (fun _ _ _ _ => rfl) rfl,
    fun s ra rb rd => ⟨?_, ?_, ?_, ?_⟩⟩
  · exact s.shiftLanes_completes ra rb rd (fun x n => x / 2 ^ n) fun x n _ => by
      rw [ushiftRight_eq_div, ← BitVec.ofInt_natCast]
      norm_cast
  · exact s.shiftLanes_completes ra rb rd (fun x n => signedLane x / 2 ^ n) fun x n _ => by
      rw [sshiftRight_eq, signedLane_eq]
  · exact s.shiftLanes_completes ra rb rd (fun x n => x * 2 ^ n) fun x n _ => by
      rw [shiftLeft_eq_mul, ← BitVec.ofInt_natCast]
      norm_cast
  · exact s.shiftLanes_completes ra rb rd (fun x n => x * 2 ^ n + x / 2 ^ (8 - n)) fun x n hn => by
      rw [rotateLeft_eq x n hn, ← BitVec.ofInt_natCast]
      norm_cast

end Sys2Proof.Machine
end

section
/-!
PROOFS. The compares (spec/42_compare.md R150 to R162).
-/

namespace Sys2Proof.Machine

/-! ## Relations on numbers (R150) -/

/-- The relation a compare tests, on the numbers its operands stand for. -/
def Rel.onNat : Rel → Nat → Nat → Bool
  | .eq, a, b => decide (a = b)
  | .ne, a, b => decide (a ≠ b)
  | .gt, a, b => decide (b < a)
  | .ge, a, b => decide (b ≤ a)
  | .lt, a, b => decide (a < b)
  | .le, a, b => decide (a ≤ b)

/-- In the reading the model takes (D6), a compare of two values is that of their unsigned numbers. -/
theorem relHolds_cmpSigned {n : Nat} (rel : Rel) (a b : BitVec n) :
    relHolds Config.cmpSigned rel a b = rel.onNat a.toNat b.toNat := by
  cases rel with
  | eq => simp only [relHolds, Rel.onNat, BitVec.toNat_inj, beq_eq_decide]
  | ne => simp only [relHolds, Rel.onNat, ne_eq, decide_not, BitVec.toNat_inj, bne, beq_eq_decide]
  | gt | ge | lt | le => rfl

/-! ## Compares complete (R150) -/

section
variable (s : State) (rel : Rel) (ra rb : RegNum) (cb : FlagNum)

theorem State.compareWords_onNat : ∃ t, s.compareWords rel ra rb cb = .next t ∧
    FlagEffect s t (flagOnly cb (rel.onNat (s.reg ra).toNat (s.reg rb).toNat)) := by
  have h := s.compareWords_completes rel ra rb cb
  rwa [relHolds_cmpSigned] at h

theorem State.compareLanes_onNat : ∃ t, s.compareLanes rel ra rb cb = .next t ∧
    FlagEffect s t (flagPair cb (rel.onNat (lowLane (s.reg ra)) (lowLane (s.reg rb)))
      (rel.onNat (highLane (s.reg ra)) (highLane (s.reg rb)))) := by
  have h := s.compareLanes_completes rel ra rb cb
  rwa [relHolds_cmpSigned, relHolds_cmpSigned, ← lowLane_eq, ← lowLane_eq, ← highLane_eq, ← highLane_eq] at h

end

/-! ## The statements -/

/-- Settles O16: the six rows of the encoding table with size bit 1, then the word compare for each relation. -/
theorem wordCompares : Obligations.WordCompares := by
  refine ⟨decodesAs_of_sub 6 1 rfl rfl fun _ => rfl, decodesAs_of_sub 6 3 rfl rfl fun _ => rfl,
    decodesAs_of_sub 7 1 rfl rfl fun _ => rfl, decodesAs_of_sub 7 3 rfl rfl fun _ => rfl,
    decodesAs_of_sub 8 1 rfl rfl fun _ => rfl, decodesAs_of_sub 8 3 rfl rfl fun _ => rfl, fun s ra rb cb => ?_⟩
  have compares (rel : Rel) := s.compareWords_onNat rel ra rb cb
  exact ⟨compares .eq, compares .ne, compares .gt, compares .ge, compares .lt, compares .le⟩

/-- Settles O17: the six rows of the encoding table with size bit 0, then the lane compare for each relation. -/
theorem laneCompares : Obligations.LaneCompares := by
  refine ⟨decodesAs_of_sub 6 0 rfl rfl fun _ => rfl, decodesAs_of_sub 6 2 rfl rfl fun _ => rfl,
    decodesAs_of_sub 7 0 rfl rfl fun _ => rfl, decodesAs_of_sub 7 2 rfl rfl fun _ => rfl,
    decodesAs_of_sub 8 0 rfl rfl fun _ => rfl, decodesAs_of_sub 8 2 rfl rfl fun _ => rfl, fun s ra rb cb => ?_⟩
  have compares (rel : Rel) := s.compareLanes_onNat rel ra rb cb
  exact ⟨compares .eq, compares .ne, compares .gt, compares .ge, compares .lt, compares .le⟩

end Sys2Proof.Machine
end

section
/-!
PROOFS. The multiplies and multiply-accumulates (spec/43_multiply.md R165 to R169).
-/

namespace Sys2Proof.Machine

/-! ## Products in the reading the model takes (R165, D7) -/

theorem mulBytes_mulSigned_toNat (a b : Byte) :
    (mulBytes Config.mulSigned a b).toNat = a.toNat * b.toNat :=
  mulBytes_toNat a b

/-- The product of two bytes fits a word, so that a multiply loses no bit of it. -/
theorem byteProduct_lt (a b : Byte) : a.toNat * b.toNat < 2 ^ 16 := by
  rw [← mulBytes_mulSigned_toNat]
  exact BitVec.isLt _

theorem mulOut_value (a b : Byte) : (mulOut a b).value = BitVec.ofNat 16 (a.toNat * b.toNat) := by
  rw [← mulBytes_mulSigned_toNat, BitVec.ofNat_toNat, BitVec.setWidth_eq]
  rfl

theorem mulOut_flags (a b : Byte) : (mulOut a b).flags = flagOnly 6 false :=
  AluOut.flags_word _ _

/-! ## Multiplies complete (R166 to R169) -/

section
variable (s : State) (rd : RegNum) (a b : Byte)

theorem State.mulOut_completes : ∃ t, s.retireAlu rd (mulOut a b) = .next t ∧
    DataEffect s t rd (BitVec.ofNat 16 (a.toNat * b.toNat)) (flagOnly 6 false) := by
  have h := s.retireAlu_completes rd (mulOut a b)
  rwa [mulOut_value, mulOut_flags] at h

/-- An accumulate is the word sum of the old RD and the product. -/
theorem State.macOut_completes (acc : Word) : ∃ t, s.retireAlu rd (macOut a b acc) = .next t ∧
    DataEffect s t rd (BitVec.ofNat 16 (acc.toNat + a.toNat * b.toNat))
      (flagOnly 6 (decide (2 ^ 16 ≤ acc.toNat + a.toNat * b.toNat))) := by
  have h := s.addWords_completes rd acc (mulBytes Config.mulSigned a b)
  rwa [mulBytes_mulSigned_toNat] at h

end

/-! ## The statement -/

/-- Settles O18: the four rows of the encoding table, bit 9 choosing the byte; then the product of the lanes as that
of the bytes, alone or added to the old RD. -/
theorem multiplyAndAccumulate : Obligations.MultiplyAndAccumulate := by
  refine ⟨decodesR3_of_size_zero 9 .macLo .macHi rfl (fun _ _ _ _ => rfl) rfl,
    decodesR3_of_size_one 9 .macLo .macHi rfl (fun _ _ _ _ => rfl) rfl,
    decodesR3_of_size_zero 10 .mulLo .mulHi rfl (fun _ _ _ _ => rfl) rfl,
    decodesR3_of_size_one 10 .mulLo .mulHi rfl (fun _ _ _ _ => rfl) rfl, fun s ra rb rd => ?_⟩
  simp only [lowLane_eq, highLane_eq]
  exact ⟨s.macOut_completes rd _ _ _, s.macOut_completes rd _ _ _, s.mulOut_completes rd _ _,
    s.mulOut_completes rd _ _, byteProduct_lt _ _, byteProduct_lt _ _⟩

end Sys2Proof.Machine
end

section
/-!
PROOFS. The byte permutation, logic and load-immediate instructions (spec/44_permute_logic.md R175 to R188).
-/

namespace Sys2Proof.Machine

/-! ## Rows of opcode and bit 10, and of format I8 (R92, R186 to R188) -/

/-- Bit 10 of a word is the upper bit of its sub-op. -/
theorem bit10_of_fields (w : Word) : (w.extractLsb' 9 2).extractLsb' 1 1 = w.extractLsb' 10 1 := by
  apply BitVec.eq_of_toNat_eq
  simp only [BitVec.extractLsb'_toNat, Nat.shiftRight_eq_div_pow]
  omega

/-- A row that fixes opcode and bit 10 decodes as its fields do, whatever bit 9 is. -/
theorem decodesAs_of_bit10 {v : Word} {i : Word → Instr} (op : BitVec 5) (bit : BitVec 1)
    (ho : v.extractLsb' 11 5 = op) (hb : v.extractLsb' 10 1 = bit)
    (hd : ∀ sub : BitVec 2, sub.extractLsb' 1 1 = bit → ∀ w : Word, decodeFields
      ⟨op, sub, w.extractLsb' 6 3, w.extractLsb' 3 3, w.extractLsb' 0 3⟩ = .ok (i w)) :
    DecodesAs v 0xFC00 i := by
  intro w h
  have hsub : (w.extractLsb' 9 2).extractLsb' 1 1 = bit := by
    rw [bit10_of_fields, extract_of_row 10 1 h (by decide), hb]
  rw [decodeWord, fieldsOf, extract_of_row 11 5 h (by decide), ho]
  exact hd _ hsub w

/-- A sub-op with its upper bit set is 2 or 3, and SWAP is both. -/
theorem decodesR2_swap : DecodesR2 0x7400 0xFC00 .swap :=
  decodesAs_of_bit10 14 1 rfl rfl fun sub hsub w => by
    have upper : ∀ sub : BitVec 2, sub.extractLsb' 1 1 = 1 → sub = 2 ∨ sub = 3 := by decide
    rcases upper sub hsub with rfl | rfl
    · rfl
    · rfl

theorem decodesAs_liHi : DecodesAs 0xB800 0xF800 fun w => .liHi (fieldImm8 w) (fieldD w) :=
  decodesAs_of_op 23 rfl fun w =>
    congrArg (fun b => Except.ok (Instr.liHi b (fieldD w))) (imm8_of_fields w)

theorem decodesAs_liLo : DecodesAs 0xC000 0xF800 fun w => .liLo (fieldImm8 w) (fieldD w) :=
  decodesAs_of_op 24 rfl fun w =>
    congrArg (fun b => Except.ok (Instr.liLo b (fieldD w))) (imm8_of_fields w)

/-! ## Writing a word of two bytes (R6, R14) -/

/-- Two joined bytes are the lanes of the word, with nothing to cut. -/
theorem joinBytes_eq_ofLanes_toNat (h l : Byte) : joinBytes h l = ofLanes h.toNat l.toNat :=
  joinBytes_eq_ofLanes h l _ _ (by omega) (by omega)

/-- Every instruction that writes two bytes side by side writes RD alone, and no flag. -/
theorem State.joinBytes_completes (s : State) (rd : RegNum) (h l : Byte) :
    ∃ t, s.retireReg rd (joinBytes h l) = .next t ∧ DataEffect s t rd (ofLanes h.toNat l.toNat) noFlags := by
  rw [← joinBytes_eq_ofLanes_toNat]
  exact s.retireReg_completes rd _

/-! ## The complement as a number (R183) -/

/-- The one's complement of a word is what the word lacks of sixteen ones. -/
theorem not_eq_ofNat (x : Word) : ~~~x = BitVec.ofNat 16 (0xFFFF - x.toNat) := by
  rw [← BitVec.setWidth_eq (~~~x), ← BitVec.ofNat_toNat, BitVec.toNat_not]

/-! ## The statements -/

/-- Settles O19: the four rows of the encoding table, bit 9 choosing the placement; then the two bytes each placement
names. -/
theorem mixAndMuxPlaceBytes : Obligations.MixAndMuxPlaceBytes := by
  refine ⟨decodesR3_of_size_zero 11 .mixLo .mixHi rfl (fun _ _ _ _ => rfl) rfl,
    decodesR3_of_size_one 11 .mixLo .mixHi rfl (fun _ _ _ _ => rfl) rfl,
    decodesR3_of_size_zero 12 .muxLo .muxHi rfl (fun _ _ _ _ => rfl) rfl,
    decodesR3_of_size_one 12 .muxLo .muxHi rfl (fun _ _ _ _ => rfl) rfl, fun s ra rb rd => ?_⟩
  simp only [lowLane_eq, highLane_eq]
  exact ⟨s.joinBytes_completes rd (hiByte (s.reg rb)) (loByte (s.reg ra)),
    s.joinBytes_completes rd (hiByte (s.reg ra)) (loByte (s.reg rb)),
    s.joinBytes_completes rd (loByte (s.reg ra)) (hiByte (s.reg rb)),
    s.joinBytes_completes rd (loByte (s.reg rb)) (hiByte (s.reg ra))⟩

/-- Settles O20: the four rows of the encoding table; then the operation on the numbers of the words is that on the
words themselves. -/
theorem logicOperations : Obligations.LogicOperations := by
  refine ⟨decodesAs_of_sub 13 0 rfl rfl fun _ => rfl, decodesAs_of_sub 13 1 rfl rfl fun _ => rfl,
    decodesAs_of_sub 13 2 rfl rfl fun _ => rfl, decodesAs_of_sub 13 3 rfl rfl fun _ => rfl, fun s ra rb rd => ?_⟩
  simp only [BitVec.ofNat_and, BitVec.ofNat_or, BitVec.ofNat_xor, BitVec.ofNat_toNat, BitVec.setWidth_eq,
    ← not_eq_ofNat]
  exact ⟨s.retireReg_completes rd (s.reg ra &&& s.reg rb), s.retireReg_completes rd (s.reg ra ||| s.reg rb),
    s.retireReg_completes rd (s.reg ra ^^^ s.reg rb), s.retireReg_completes rd (~~~s.reg ra)⟩

/-- Settles O21: the two rows of the encoding table, then one byte of RA in both places. -/
theorem copyByteToBothHalves : Obligations.CopyByteToBothHalves := by
  refine ⟨decodesAs_of_sub 14 0 rfl rfl fun _ => rfl, decodesAs_of_sub 14 1 rfl rfl fun _ => rfl,
    fun s ra rd => ?_⟩
  simp only [lowLane_eq, highLane_eq]
  exact ⟨s.joinBytes_completes rd (loByte (s.reg ra)) (loByte (s.reg ra)),
    s.joinBytes_completes rd (hiByte (s.reg ra)) (hiByte (s.reg ra))⟩

/-- Settles O22: the three rows of the encoding table; then the bytes of RA exchanged, or the immediate beside the byte
of RD that stays. -/
theorem swapAndLoadImmediate : Obligations.SwapAndLoadImmediate := by
  refine ⟨decodesR2_swap, decodesAs_liHi, decodesAs_liLo, fun s ra rd imm => ?_⟩
  simp only [lowLane_eq, highLane_eq]
  exact ⟨s.joinBytes_completes rd (loByte (s.reg ra)) (hiByte (s.reg ra)),
    s.joinBytes_completes rd imm (loByte (s.reg rd)), s.joinBytes_completes rd (hiByte (s.reg rd)) imm⟩

end Sys2Proof.Machine
end

section
/-!
PROOFS. The executions of loads, video stores and INIT without a result (spec/45_load_store.md R195, R209;
spec/47_thread.md R237).
-/

namespace Sys2Proof.Machine

/-! ## Refusals (U1, U2, U5, U8) -/

theorem Thread.loadClash_self_eq_true {th : Thread} {r : RegNum} (w : Word) (hw : r ≠ 0 ∨ th.debug = true) :
    th.loadClash r r (some w) = true := by
  rw [← Bool.not_eq_false, Thread.loadClash_eq_false_iff]
  exact not_not_intro ⟨rfl, hw⟩

theorem loadExc_of_aligned {a : Word} (ha : IsAligned a) : loadExc a = [] := by
  rw [loadExc, (isOdd_eq_false_iff a).mpr ha]
  rfl

/-- A stepping load into its own address register, past the check of its address (R195, D15). -/
theorem State.load_refused {s : State} {r : RegNum} (w : Word) (ha : IsAligned (s.reg r))
    (hw : r ≠ 0 ∨ s.cur.debug = true) : s.load (some w) r r = .refused .loadIntoItsAddress := by
  simp only [State.load, loadExc_of_aligned ha, State.guarded_nil, Thread.loadClash_self_eq_true w hw, if_true]

/-- A selector above 2 is neither the one that cancels the store nor one that names a Video RAM bank (R209, D18). -/
theorem State.videoStore_refused {s : State} {rd : RegNum} (step : Option Word) (ra rb : RegNum)
    (hsel : 2 < (s.reg rd).toNat) : s.videoStore step ra rb rd = .refused .videoSelector := by
  have h0 : s.reg rd ≠ 0 := by bv_omega
  have h12 : ¬ (s.reg rd = 1 ∨ s.reg rd = 2) := by bv_omega
  simp only [State.videoStore, if_neg h0, if_neg h12]

/-- Whose the pending activation is does not matter: an INIT of a dead thread is refused beside any (R237). -/
theorem execInit_refused {s : State} {u : Tid} {a : Activation} (ra : RegNum) (hdead : s.active u = false)
    (hpending : s.activation = some a) : execInit ra u s = .refused .concurrentInit := by
  have hnone : initExc (s.active u) = [] := by rw [hdead]; rfl
  simp only [execInit, hnone, State.guarded_nil, hpending, Option.isSome_some, if_true]

/-! ## The statement -/

/-- Settles O39: the clash of a stepping load, the selector of a video store, the pending activation at an INIT. -/
theorem casesWithoutAResultAreRefused : Obligations.CasesWithoutAResultAreRefused := by
  refine ⟨fun s r ha hw => ⟨?_, ?_⟩, fun s ra rb rd hsel => ⟨?_, ?_, ?_⟩, fun s ra u a hdead hpending _ => ?_⟩
  · exact State.load_refused 2 ha hw
  · exact State.load_refused (-2) ha hw
  · exact State.videoStore_refused none ra rb hsel
  · exact State.videoStore_refused (some 1) ra rb hsel
  · exact State.videoStore_refused (some (-1)) ra rb hsel
  · exact execInit_refused ra hdead hpending

end Sys2Proof.Machine
end

section
/-!
PROOFS. The port input/output instructions (spec/46_io.md R215 to R217).
-/

namespace Sys2Proof.Machine

/-! ## READ on each of its paths (R216) -/

/-- A port read finds nothing in an empty input queue (R12, R82). -/
theorem State.portRead_of_empty {s : State} {p : Port} (h : s.inq[p] = []) : s.portRead p = none := by
  rw [State.portRead, h]

/-- A port read takes the oldest word of an input queue that holds one (R12, R82). -/
theorem State.portRead_of_cons {s : State} {p : Port} {v : Word} {rest : List Word} (h : s.inq[p] = v :: rest) :
    s.portRead p = some (v, { s with inq := s.inq.set p rest }) := by
  rw [State.portRead, h]

theorem exec_read (p : Port) (cb : FlagNum) (rd : RegNum) (s : State) :
    exec (.read p cb rd) s = execRead p cb rd s := rfl

/-- READ of an empty input queue only writes its flag (R216). -/
theorem exec_read_of_empty {s : State} {p : Port} (cb : FlagNum) (rd : RegNum) (h : s.inq[p] = []) :
    exec (.read p cb rd) s = s.retire fun th => th.writeFlag cb false := by
  rw [exec_read, execRead, State.portRead_of_empty h]

/-- READ of an input queue that holds a word is the removal of that word, then RD and the flag (R216). -/
theorem exec_read_of_cons {s : State} {p : Port} (cb : FlagNum) (rd : RegNum) {v : Word} {rest : List Word}
    (h : s.inq[p] = v :: rest) :
    exec (.read p cb rd) s =
      { s with inq := s.inq.set p rest }.retire fun th => (th.writeReg rd v).writeFlag cb true := by
  rw [exec_read, execRead, State.portRead_of_cons h]

/-! ## What a port instruction leaves of its thread -/

/-- A register and a flag written together leave what each write alone leaves (R9, R10). -/
theorem Thread.becomes_writeReg_writeFlag (th : Thread) (rd : RegNum) (v : Word) (cb : FlagNum) (b : Bool) :
    ThreadBecomes th ((th.writeReg rd v).writeFlag cb b).advance (regsWith th rd v) (flagsWith th (flagOnly cb b))
      (th.pc + 2) :=
  ⟨th.readReg_writeReg_eq rd v, (th.writeReg rd v).readFlag_writeFlag_eq cb b, rfl, SameControl.refl th⟩

/-- A flag written alone keeps every register (R10). -/
theorem Thread.becomes_writeFlag (th : Thread) (cb : FlagNum) (b : Bool) :
    ThreadBecomes th (th.writeFlag cb b).advance th.readReg (flagsWith th (flagOnly cb b)) (th.pc + 2) :=
  ⟨fun _ => rfl, th.readFlag_writeFlag_eq cb b, rfl, SameControl.refl th⟩

/-! ## The statements -/

/-- Settles O29: the row of the encoding table; then the empty queue, where one flag is written, and the queue that
loses its oldest word to RD. -/
theorem readTakesTheOldestWord : Obligations.ReadTakesTheOldestWord := by
  refine ⟨decodesR3_of_size_zero 17 .read .write rfl (fun _ _ _ _ => rfl) rfl,
    fun s p cb rd => ⟨fun hempty => ?_, fun v rest hcons => ?_⟩⟩
  · rw [Completes, exec_read_of_empty cb rd hempty]
    exact s.retireFlag_completes cb false
  · rw [Completes, exec_read_of_cons cb rd hcons]
    have hth := State.thread_updCur_of_eq (s := s) (s₁ := { s with inq := s.inq.set p rest })
      (fun th => ((th.writeReg rd v).writeFlag cb true).advance) rfl rfl
    refine ⟨_, State.retire_eq _ _, ?_, fun _ => rfl, fun q => getElem_set_fin s.inq p q rest, ?_⟩
    · rw [hth]
      rfl
    · rw [hth]
      exact s.cur.becomes_writeReg_writeFlag rd v cb true

/-- Settles O30: the row of the encoding table; then the output queue offered the word, and the flag that says whether
there was room. -/
theorem writeAppendsIfThereIsRoom : Obligations.WriteAppendsIfThereIsRoom := by
  refine ⟨decodesR3_of_size_one 17 .read .write rfl (fun _ _ _ _ => rfl) rfl, fun s p cb rd => ?_⟩
  have hth := State.thread_updCur_of_eq (s := s) (s₁ := s.portWrite p (s.reg rd))
    (fun th => (th.writeFlag cb (s.portHasRoom p)).advance) rfl rfl
  refine ⟨_, State.retire_eq _ _, ?_, fun _ => rfl, s.portWrite_appended p (s.reg rd), ?_⟩
  · rw [hth]
    rfl
  · rw [hth]
    exact s.cur.becomes_writeFlag cb (s.portHasRoom p)

end Sys2Proof.Machine
end

section
/-!
PROOFS. The clock cycle and the round robin (spec/70_reset_and_hazards.md R360, R365; spec/47_thread.md R232, R236):
cycles that pass, the halt, the activation an INIT leaves pending, and the fairness of the rotation.
-/

namespace Sys2Proof.Machine

/-! ## Cycles that pass (R360) -/

/-- The step of a thread that lets its cycle pass (R360). -/
theorem step_of_not_runnable {s : State} (h : s.beginCycle.runnable s.turn = false) :
    step s = .next s.beginCycle.rotate := by
  rw [step, State.turnStep, State.turn_beginCycle, h]
  rfl

theorem State.rotate_beginCycle (s : State) : s.beginCycle.rotate = { s.beginCycle with turn := s.turn + 1 } := by
  rw [State.rotate, State.turn_beginCycle, nextTurn]

/-- With no device move scheduled, a cycle starts as the last one ended. -/
theorem State.takeInputs_of_nil {s : State} (h : s.inputs = []) : s.takeInputs = s := by
  rw [State.takeInputs, h]
  exact congrArg (fun l => { s with inputs := l }) h.symm

/-! ## The halt (R232, R365) -/

/-- All of the machine but the turn and what the devices do is the same, and so is all that a host observes. -/
structure SameButDevices (s t : State) : Prop where
  threads : t.threads = s.threads
  tar : t.tar = s.tar
  activation : t.activation = s.activation
  mem : t.mem = s.mem
  vram : t.vram = s.vram
  wr : t.wr = s.wr
  ws : t.ws = s.ws
  freeTicks : t.freeTicks = s.freeTicks
  observed : t.observed = s.observed

theorem SameButDevices.refl (s : State) : SameButDevices s s := ⟨rfl, rfl, rfl, rfl, rfl, rfl, rfl, rfl, rfl⟩

theorem SameButDevices.trans {s t u : State} (h : SameButDevices s t) (h' : SameButDevices t u) :
    SameButDevices s u where
  threads := h'.threads.trans h.threads
  tar := h'.tar.trans h.tar
  activation := h'.activation.trans h.activation
  mem := h'.mem.trans h.mem
  vram := h'.vram.trans h.vram
  wr := h'.wr.trans h.wr
  ws := h'.ws.trans h.ws
  freeTicks := h'.freeTicks.trans h.freeTicks
  observed := h'.observed.trans h.observed

/-- What a host observes does not depend on the devices' moves at the start of a cycle. -/
theorem State.observed_beginCycle (s : State) : s.beginCycle.observed = s.observed := by
  obtain ⟨hthreads, hmem, hvram, -⟩ := s.beginCycle_same
  have hreceived : s.beginCycle.portReceived = s.portReceived := funext s.portReceived_beginCycle
  rw [State.observed, hthreads, hmem, hvram, hreceived, State.observed]

/-- With no activation pending, the start of a cycle is the devices' alone. -/
theorem sameButDevices_beginCycle {s : State} (h : s.activation = none) : SameButDevices s s.beginCycle := by
  obtain ⟨hthreads, hmem, hvram, hwr, hws, -, hticks⟩ := s.beginCycle_same
  rcases s.beginCycle_activation with ⟨a, hact, -⟩ | ⟨-, htar, hsame⟩
  · exact absurd (h.symm.trans hact) (by simp)
  · exact ⟨hthreads, htar, hsame, hmem, hvram, hwr, hws, hticks, s.observed_beginCycle⟩

theorem sameButDevices_rotate (s : State) : SameButDevices s s.rotate := ⟨rfl, rfl, rfl, rfl, rfl, rfl, rfl, rfl, rfl⟩

/-- A dead thread does not take its turn. -/
theorem State.not_runnable_of_dead {s : State} {u : Tid} (h : s.active u = false) : s.runnable u = false := by
  rw [State.runnable, h, Bool.false_and]

/-- After the halt every cycle passes (R232). -/
theorem step_of_halted {s : State} (htar : s.tar = 0) (hact : s.activation = none) :
    ∃ s', step s = .next s' ∧ SameButDevices s s' := by
  have hbegin := sameButDevices_beginCycle hact
  have hdead : s.beginCycle.active s.turn = false := by
    rw [State.active, hbegin.tar, htar]
    exact (mask_eq_zero_iff 0).mp rfl s.turn
  exact ⟨_, step_of_not_runnable (State.not_runnable_of_dead hdead), hbegin.trans (sameButDevices_rotate _)⟩

/-! ## Steps and runs -/

theorem runFor_succ_of_step {s s' : State} (n : Nat) (h : step s = .next s') : runFor (n + 1) s = runFor n s' := by
  rw [runFor, h]

theorem runFor_succ_eq_some {n : Nat} {s t : State} (h : runFor (n + 1) s = some t) :
    ∃ s', step s = .next s' ∧ runFor n s' = some t := by
  rw [runFor] at h
  cases hstep : step s with
  | next s' => rw [hstep] at h; exact ⟨s', rfl, h⟩
  | fault r => rw [hstep] at h; cases h
  | refused r => rw [hstep] at h; cases h

/-- After the halt a run of any length goes on, and only the devices move. -/
theorem runFor_of_halted (n : Nat) {s : State} (htar : s.tar = 0) (hact : s.activation = none) :
    ∃ t, runFor n s = some t ∧ SameButDevices s t := by
  induction n generalizing s with
  | zero => exact ⟨s, rfl, .refl s⟩
  | succ n ih =>
    obtain ⟨s', hstep, hsame⟩ := step_of_halted htar hact
    obtain ⟨t, hrun, hlater⟩ := ih (hsame.tar.trans htar) (hsame.activation.trans hact)
    exact ⟨t, (runFor_succ_of_step n hstep).trans hrun, hsame.trans hlater⟩

/-- A run has every shorter run as its beginning. -/
theorem runFor_shorter {n m : Nat} {s t : State} (hle : n ≤ m) (h : runFor m s = some t) :
    ∃ sₙ, runFor n s = some sₙ := by
  induction n generalizing m s with
  | zero => exact ⟨s, rfl⟩
  | succ n ih =>
    cases m with
    | zero => exact absurd hle (Nat.not_succ_le_zero n)
    | succ m =>
      obtain ⟨s', hstep, hrun⟩ := runFor_succ_eq_some h
      rw [runFor_succ_of_step n hstep]
      exact ih (Nat.le_of_succ_le_succ hle) hrun

/-- Each cycle is followed by that of the next thread (R360). -/
theorem step_turn {s s' : State} (h : step s = .next s') : s'.turn = nextTurn s.turn := by
  rcases step_executes h with rfl | rfl | ⟨i, t, -, -, hexec, rfl⟩
  · rw [State.rotate_turn, State.turn_beginCycle]
  · rw [State.rotate_turn, State.raise_turn, State.turn_beginCycle]
  · obtain ⟨-, -, -, -, -, -, -, -, hturn, -⟩ := t.boundary_same i
    rw [State.rotate_turn, hturn, exec_turn hexec, State.turn_beginCycle]

/-! ## The distance to a thread's cycle -/

/-- How many cycles pass before the one of thread `u`, from the cycle of thread `v` on. -/
def cyclesUntil (u v : Tid) : Nat := (u - v).val

theorem cyclesUntil_eq_zero_iff {u v : Tid} : cyclesUntil u v = 0 ↔ u = v := by
  revert u v; decide

theorem ne_of_cyclesUntil_pos {u v : Tid} (h : 0 < cyclesUntil u v) : u ≠ v :=
  fun e => Nat.ne_of_gt h (cyclesUntil_eq_zero_iff.mpr e)

/-- Each cycle of another thread brings thread `u`'s nearer by one. -/
theorem cyclesUntil_nextTurn {u v : Tid} (h : u ≠ v) : cyclesUntil u (nextTurn v) + 1 = cyclesUntil u v := by
  revert u v; decide

theorem cyclesUntil_after (u : Tid) : cyclesUntil u (u + 1) = 3 := by
  revert u; decide

/-! ## A thread between two of its cycles (R236, R360) -/

/-- An instruction of another thread leaves a runnable thread runnable. -/
theorem exec_runnable {i : Instr} {s t : State} {u : Tid} (h : exec i s = .next t) (hu : u ≠ s.turn)
    (hrun : s.runnable u = true) : t.runnable u = true := by
  obtain ⟨hactive, hstalled⟩ := (s.runnable_iff u).mp hrun
  rw [State.runnable_iff]
  cases exec_leads h with
  | ownStep hlocal =>
    obtain ⟨htar, -, hws, -⟩ := hlocal.shared
    rw [State.active, htar, State.stalled, hws]
    exact ⟨hactive, hstalled⟩
  | stall p row _ _ _ =>
    rw [State.stalled, State.ws_stallAt, State.setRow_turn, if_neg hu]
    exact ⟨hactive, hstalled⟩
  | release p _ =>
    rw [State.stalled, State.ws_release, State.stalledAt_of_runnable hrun p]
    exact ⟨hactive, hstalled⟩
  | kill _ =>
    rw [State.active_killed, hactive, bne_iff_ne.mpr hu, State.stalled, State.ws_killed]
    refine ⟨rfl, ?_⟩
    split
    · rfl
    · exact hstalled
  | start v a _ _ => exact ⟨hactive, hstalled⟩

theorem State.runnable_beginCycle {s : State} {u : Tid} (h : s.runnable u = true) : s.beginCycle.runnable u = true := by
  obtain ⟨hactive, hstalled⟩ := (s.runnable_iff u).mp h
  obtain ⟨-, -, -, -, hws, -⟩ := s.beginCycle_same
  refine (State.runnable_iff _ _).mpr ⟨(s.active_beginCycle u).mpr (.inl hactive), ?_⟩
  rw [State.stalled, hws]
  exact hstalled

/-- A runnable thread stays runnable in the cycles of the others (R360). -/
theorem step_runnable {s s' : State} {u : Tid} (h : step s = .next s') (hu : u ≠ s.turn)
    (hrun : s.runnable u = true) : s'.runnable u = true := by
  have hbegin := State.runnable_beginCycle hrun
  rcases step_executes h with rfl | rfl | ⟨i, t, -, -, hexec, rfl⟩
  · exact hbegin
  · exact hbegin
  · obtain ⟨htar, -, hws, -⟩ := t.boundary_same i
    have ht := exec_runnable hexec (by rw [State.turn_beginCycle]; exact hu) hbegin
    simpa only [State.runnable, State.active, State.stalled, State.rotate_tar, State.rotate_ws, htar, hws] using ht

/-! ## A pending activation (R236, D30) -/

/-- While an activation is pending no instruction replaces it. -/
theorem exec_activation {i : Instr} {s t : State} {a : Activation} (h : exec i s = .next t)
    (hact : s.activation = some a) : t.activation = some a := by
  cases exec_leads h with
  | ownStep hlocal =>
    obtain ⟨-, -, -, -, hsame, -⟩ := hlocal.shared
    exact hsame.trans hact
  | stall | release | kill => exact hact
  | start v b _ hnone => exact absurd (hnone.symm.trans hact) (by simp)

/-- A dead thread waits at no point (R227), so that no release and no KILL reaches it. -/
theorem State.Inv.not_stalled_of_dead {s : State} (hs : s.Inv) {u : Tid} (hdead : s.active u = false) :
    s.stalled u = false := by
  cases hst : s.stalled u with
  | false => rfl
  | true =>
    have hat : s.stalledAt (s.ws[u]).s u = true := by
      rw [State.stalledAt, beq_self_eq_true, Bool.and_true]
      exact hst
    obtain ⟨-, hthreads⟩ := hs.barriers (s.ws[u]).s
    exact absurd (hdead.symm.trans ((hthreads u).2 (.inr hat))) (by decide)

/-- While an activation is pending no instruction touches a dead thread. -/
theorem exec_deadThread {i : Instr} {s t : State} {a : Activation} {u : Tid} (hs : s.Inv)
    (hrun : s.runnable s.turn = true) (h : exec i s = .next t) (hact : s.activation = some a)
    (hdead : s.active u = false) : t.thread u = s.thread u := by
  have hu : u ≠ s.turn := by
    rintro rfl
    exact absurd (hdead.symm.trans ((s.runnable_iff _).mp hrun).1) (by decide)
  have hstalled := hs.not_stalled_of_dead hdead
  cases exec_leads h with
  | ownStep hlocal => exact hlocal.others u hu
  | stall => rfl
  | release p _ =>
    have hat : ¬ (s.stalledAt p u = true ∨ u = s.turn) := by
      rintro (hat | rfl)
      · exact absurd (hstalled.symm.trans (Bool.and_eq_true _ _ ▸ hat).1) (by decide)
      · exact hu rfl
    rw [State.thread_release, if_neg hat]
  | kill _ =>
    rw [State.thread_killed, State.awaits, hstalled, Bool.false_and]
    rfl
  | start v b _ hnone => exact absurd (hnone.symm.trans hact) (by simp)

/-- What a pending activation and its target are after a while: the same. -/
structure StillPending (a : Activation) (s t : State) : Prop where
  inv : t.Inv
  activation : t.activation = some a
  target : t.thread a.target = s.thread a.target

/-- A cycle that is not its initiator's leaves an activation pending and its target as it was. -/
theorem step_stillPending {s s' : State} {a : Activation} (hs : s.Inv) (hact : s.activation = some a)
    (hturn : a.initiator ≠ s.turn) (h : step s = .next s') : StillPending a s s' := by
  obtain ⟨hbegin, -⟩ := hs.beginCycle
  have hpending : s.beginCycle.activation = some a := by
    rcases s.beginCycle_activation with ⟨b, hb, hdue, -⟩ | ⟨-, -, hsame⟩
    · cases hact.symm.trans hb
      exact absurd hdue hturn
    · exact hsame.trans hact
  obtain ⟨hdead, -⟩ := hbegin.activation a hpending
  refine ⟨everyStepKeepsTheInvariant s s' hs h, ?_, ?_⟩
  · rcases step_executes h with rfl | rfl | ⟨i, t, -, -, hexec, rfl⟩
    · exact hpending
    · exact hpending
    · obtain ⟨-, -, -, -, -, -, -, hsame, -⟩ := t.boundary_same i
      rw [State.rotate_activation, hsame, exec_activation hexec hpending]
  · rw [← State.thread_beginCycle s]
    rcases step_cases h with ⟨-, rfl⟩ | ⟨hrun, t, hrunTurn, rfl⟩
    · rfl
    · have hne : a.target ≠ s.beginCycle.turn := by
        rw [State.turn_beginCycle]
        intro htarget
        rw [htarget] at hdead
        exact absurd (hdead.symm.trans ((State.runnable_iff _ _).mp hrun).1) (by decide)
      obtain ⟨w, -, ⟨e, -, rfl⟩ | ⟨i, t₁, -, hexec, rfl⟩⟩ := State.runTurn_cases hrunTurn
      · rw [State.thread_rotate, State.raise, State.thread_updCur, if_neg hne]
      · obtain ⟨-, -, -, -, -, -, -, -, -, -, hothers⟩ := t₁.boundary_same i
        rw [State.thread_rotate, hothers _ (by rw [exec_turn hexec]; exact hne)]
        rw [← State.turn_beginCycle] at hrun
        exact exec_deadThread hbegin hrun hexec hpending hdead

/-- Over a run that ends no later than its initiator's next cycle begins, an activation stays pending. -/
theorem runFor_stillPending {n : Nat} {s t : State} {a : Activation} (hs : s.Inv) (hact : s.activation = some a)
    (hn : n ≤ cyclesUntil a.initiator s.turn) (h : runFor n s = some t) :
    StillPending a s t ∧ cyclesUntil a.initiator t.turn + n = cyclesUntil a.initiator s.turn := by
  induction n generalizing s with
  | zero =>
    cases h
    exact ⟨⟨hs, hact, rfl⟩, rfl⟩
  | succ n ih =>
    obtain ⟨s', hstep, hrun⟩ := runFor_succ_eq_some h
    have hne : a.initiator ≠ s.turn := ne_of_cyclesUntil_pos (by omega)
    have hnear := cyclesUntil_nextTurn hne
    rw [← step_turn hstep] at hnear
    have hpending := step_stillPending hs hact hne hstep
    obtain ⟨hlater, hdistance⟩ := ih hpending.inv hpending.activation (by omega) hrun
    exact ⟨⟨hlater.inv, hlater.activation, hlater.target.trans hpending.target⟩, by omega⟩

/-- The target of a pending activation is dead in every cycle but its initiator's. -/
theorem State.Inv.target_dead_beginCycle {s : State} {a : Activation} (hs : s.Inv) (hact : s.activation = some a)
    (hturn : a.initiator ≠ s.turn) : s.beginCycle.active a.target = false := by
  obtain ⟨hdead, -⟩ := hs.activation a hact
  rw [← Bool.not_eq_true, State.active_beginCycle]
  rintro (hactive | ⟨b, hb, -, hdue⟩)
  · exact absurd (hdead.symm.trans hactive) (by decide)
  · cases hact.symm.trans hb
    exact hturn hdue

/-! ## Unending runs -/

theorem inv_of_unendingRun {σ : Nat → State} (h0 : (σ 0).Inv) (hstep : ∀ n, step (σ n) = .next (σ (n + 1)))
    (n : Nat) : (σ n).Inv := by
  induction n with
  | zero => exact h0
  | succ n ih => exact everyStepKeepsTheInvariant _ _ ih (hstep n)

/-- A runnable thread whose cycle it is takes its turn among the moves of the cycle. -/
theorem State.run_mem_cycleMoves {s : State} (h : s.runnable s.turn = true) : .run s.turn ∈ s.cycleMoves := by
  rw [State.cycleMoves, State.runnable_beginCycle h]
  exact List.mem_append_right _ (List.mem_singleton_self _)

/-- A runnable thread takes its turn when the rotation reaches it, by induction on the cycles until then. -/
theorem exists_run_mem_cycleMoves {σ : Nat → State} (hstep : ∀ n, step (σ n) = .next (σ (n + 1))) {t : Tid} {n : Nat}
    (h : (σ n).runnable t = true) : ∃ m, n ≤ m ∧ .run t ∈ (σ m).cycleMoves := by
  induction hd : cyclesUntil t (σ n).turn generalizing n with
  | zero =>
    have ht := cyclesUntil_eq_zero_iff.mp hd
    subst ht
    exact ⟨n, Nat.le_refl n, State.run_mem_cycleMoves h⟩
  | succ d ih =>
    have hne : t ≠ (σ n).turn := ne_of_cyclesUntil_pos (by omega)
    have hnear := cyclesUntil_nextTurn hne
    rw [← step_turn (hstep n)] at hnear
    obtain ⟨m, hm, hrun⟩ := ih (step_runnable (hstep n) hne h) (by omega)
    exact ⟨m, Nat.le_of_succ_le hm, hrun⟩

/-! ## The statements -/

/-- Settles O60: piece n is the moves of cycle n; the rotation reaches a runnable thread, which stays runnable until
then. -/
theorem roundRobinStepsEveryRunnableThread : Obligations.RoundRobinStepsEveryRunnableThread := by
  intro σ h0 hstep
  refine ⟨fun n => (σ n).cycleMoves, fun n => ?_, fun n t hrun => ?_⟩
  · exact FairState.run_cycleMoves (inv_of_unendingRun h0 hstep n) (hstep n)
  · exact exists_run_mem_cycleMoves hstep hrun

/-- Settles O36: the machine after the cycles, each of which passes, field by field. -/
theorem haltIsForEver : Obligations.HaltIsForEver := by
  intro n s htar hact
  obtain ⟨t, hrun, h⟩ := runFor_of_halted n htar hact
  exact ⟨t, hrun, h.threads, h.tar.trans htar, h.activation.trans hact, h.mem, h.vram, h.wr, h.ws, h.freeTicks,
    h.observed⟩

/-- Settles O40: the initiator's next cycle is three cycles away; until it begins the activation stays pending, and
with it the target completes. -/
theorem activationTakesOneMachineCycle : Obligations.ActivationTakesOneMachineCycle := by
  intro s s₃ a hs hact hturn hrun
  have hfar : cyclesUntil a.initiator s.turn = 3 := by rw [hturn, cyclesUntil_after]
  obtain ⟨hpending, hdistance⟩ := runFor_stillPending hs hact (by omega) hrun
  have hreached : a.initiator = s₃.turn := cyclesUntil_eq_zero_iff.mp (by omega)
  refine ⟨fun n hn => ?_, hreached.symm, hpending.target, ?_, ?_⟩
  · obtain ⟨sₙ, hrunₙ⟩ := runFor_shorter (Nat.le_of_lt hn) hrun
    obtain ⟨hpendingₙ, hdistanceₙ⟩ := runFor_stillPending hs hact (by omega) hrunₙ
    have hne : a.initiator ≠ sₙ.turn := ne_of_cyclesUntil_pos (by omega)
    exact ⟨sₙ, hrunₙ, hpendingₙ.inv.target_dead_beginCycle hpendingₙ.activation hne⟩
  · exact (s₃.active_beginCycle a.target).mpr (.inr ⟨a, hpending.activation, rfl, hreached⟩)
  · rcases s₃.beginCycle_activation with ⟨b, -, -, -, hnone⟩ | ⟨hnotDue, -, -⟩
    · exact hnone
    · exact absurd hreached (hnotDue a hpending.activation)

/-- Settles O6: the cycle passes; without device moves and a due activation its start changes nothing either. -/
theorem deadOrStalledThreadLetsItsCyclePass : Obligations.DeadOrStalledThreadLetsItsCyclePass := by
  refine ⟨fun s h => ?_, fun s h hinputs hnotDue => ?_⟩
  · rw [step_of_not_runnable h, State.rotate_beginCycle]
  · have hbegin : s.beginCycle = s := (State.beginCycle_of_noneDue hnotDue).trans (State.takeInputs_of_nil hinputs)
    rw [step_of_not_runnable (by rw [hbegin]; exact h), State.rotate_beginCycle, hbegin]

end Sys2Proof.Machine
end

section
/-!
PROOFS. WAIT, KILL and INIT (spec/47_thread.md R226 to R237).
-/

namespace Sys2Proof.Machine

/-! ## Rows of the encoding table (R95, R98) -/

/-- The number in bits 4:3 is read from the field of bits 5:3. -/
theorem pairField_of_fields (op : BitVec 5) (sub : BitVec 2) (w : Word) :
    pairField ⟨op, sub, w.extractLsb' 6 3, w.extractLsb' 3 3, w.extractLsb' 0 3⟩ = fieldPair w :=
  congrArg BitVec.toFin (pair_of_fields w)

theorem decodesAs_wait : DecodesAs 0x9000 0xFE00 fun w => .wait (fieldMask w) (fieldPair w) :=
  decodesAs_of_sub 18 0 rfl rfl fun w =>
    congrArg₂ (fun m p => Except.ok (Instr.wait m p)) (mask_of_fields w) (pairField_of_fields _ _ w)

theorem decodesAs_init : DecodesAs 0x9400 0xFE00 fun w => .init (fieldA w) (fieldPair w) :=
  decodesAs_of_sub 18 2 rfl rfl fun w =>
    congrArg (fun u => Except.ok (Instr.init (fieldA w) u)) (pairField_of_fields _ _ w)

/-! ## WAIT on each of its paths (R227) -/

theorem exec_wait (m : BitVec 4) (p : Point) (s : State) : exec (.wait m p) s = execWait m p s := rfl

theorem exec_init (ra : RegNum) (u : Tid) (s : State) : exec (.init ra u) s = execInit ra u s := rfl

section
variable {s : State} {m : BitVec 4} {p : Point}

/-- A WAIT raises nothing or ILLEGAL_WAIT. -/
theorem waitExc_cases (tar mask : BitVec 4) : waitExc tar mask = [] ∨ waitExc tar mask = [.illegalWait] := by
  rw [waitExc]
  split
  · exact .inl rfl
  · exact .inr rfl

/-- The mask of a barrier in progress, thread by thread. -/
theorem eq_barrierMask_iff :
    m = s.wr[p] ||| s.stalledMask p ↔ ∀ u : Tid, m.getLsbD u = ((s.wr[p]).getLsbD u || s.stalledAt p u) := by
  simp only [mask_eq_iff, getLsbD_barrierMask]

/-- A WAIT that names only active threads raises nothing. -/
theorem execWait_of_active (hactive : ∀ u : Tid, m.getLsbD u = true → s.active u = true) :
    execWait m p s =
      if m.getLsbD s.turn = false then .refused .waitWithoutSelf
      else if s.wr[p] = 0 then s.arriveFirst m p
      else if (s.wr[p]).getLsbD s.turn = false ∨ m ≠ s.wr[p] ||| s.stalledMask p then .refused .waitBarrierMismatch
      else s.arriveLater p := by
  rw [execWait, (waitExc_eq_nil_iff s.tar m).mpr hactive, State.guarded_nil]

/-- A WAIT where no barrier is in progress is a first arrival. -/
theorem execWait_first (hactive : ∀ u : Tid, m.getLsbD u = true → s.active u = true)
    (hself : m.getLsbD s.turn = true) (hrow : s.wr[p] = 0) : execWait m p s = s.arriveFirst m p := by
  rw [execWait_of_active hactive, if_neg (by rw [hself]; decide), if_pos hrow]

/-- A WAIT of an awaited thread with the mask of the barrier in progress is a later arrival. -/
theorem execWait_later (hactive : ∀ u : Tid, m.getLsbD u = true → s.active u = true)
    (hmask : ∀ u : Tid, m.getLsbD u = ((s.wr[p]).getLsbD u || s.stalledAt p u))
    (hawaited : (s.wr[p]).getLsbD s.turn = true) : execWait m p s = s.arriveLater p := by
  have hself : m.getLsbD s.turn = true := by rw [hmask, hawaited, Bool.true_or]
  have hrow : s.wr[p] ≠ 0 := fun h => by
    rw [(mask_eq_zero_iff _).mp h] at hawaited
    cases hawaited
  have hfits : ¬ ((s.wr[p]).getLsbD s.turn = false ∨ m ≠ s.wr[p] ||| s.stalledMask p) := by
    rintro (h | h)
    · rw [hawaited] at h
      cases h
    · exact h (eq_barrierMask_iff.mpr hmask)
  rw [execWait_of_active hactive, if_neg (by rw [hself]; decide), if_neg hrow, if_neg hfits]

/-- WAIT without its own thread in the mask (R227 case (i)). -/
theorem execWait_withoutSelf (hactive : ∀ u : Tid, m.getLsbD u = true → s.active u = true)
    (hself : m.getLsbD s.turn = false) : execWait m p s = .refused .waitWithoutSelf := by
  rw [execWait_of_active hactive, if_pos hself]

/-- WAIT that does not fit the barrier in progress (R227 case (ii)). -/
theorem execWait_misfit (hactive : ∀ u : Tid, m.getLsbD u = true → s.active u = true)
    (hself : m.getLsbD s.turn = true) (hrow : s.wr[p] ≠ 0)
    (hmisfit : (s.wr[p]).getLsbD s.turn = false ∨ m ≠ s.wr[p] ||| s.stalledMask p) :
    execWait m p s = .refused .waitBarrierMismatch := by
  rw [execWait_of_active hactive, if_neg (by rw [hself]; decide), if_neg hrow, if_pos hmisfit]

/-- WAIT that names a dead thread raises ILLEGAL_WAIT alone (R227, R301). -/
theorem execWait_raises {u : Tid} (hnamed : m.getLsbD u = true) (hdead : s.active u = false) :
    ∃ t, execWait m p s = .next t ∧ Raised s t 16 := by
  have hne : waitExc s.tar m ≠ [] := fun h =>
    absurd (hdead.symm.trans ((waitExc_eq_nil_iff s.tar m).mp h u hnamed)) (by decide)
  rw [execWait, (waitExc_cases s.tar m).resolve_left hne]
  exact s.guarded_raises _ (by simp)

theorem clearBit_ne_zero {u : Tid} {row : BitVec 4} (h : ∃ v : Tid, row.getLsbD v = true ∧ v ≠ u) :
    clearBit row u ≠ 0 := by
  obtain ⟨v, hv, hne⟩ := h
  exact fun h0 => hne ((clearBit_eq_zero_iff row u).mp h0 v hv)

end

section
variable (s : State) (p : Point) {m : BitVec 4}

theorem State.arriveFirst_alone (h : ∀ u : Tid, m.getLsbD u = true → u = s.turn) :
    s.arriveFirst m p = s.retire id := by
  rw [State.arriveFirst, if_pos ((clearBit_eq_zero_iff m s.turn).mpr h)]

theorem State.arriveFirst_stalls (h : ∃ u : Tid, m.getLsbD u = true ∧ u ≠ s.turn) :
    ∃ t, s.arriveFirst m p = .next t ∧ Stalls s t p (fun u => m.getLsbD u && u != s.turn) := by
  rw [State.arriveFirst, if_neg (clearBit_ne_zero h)]
  exact ⟨_, rfl, s.stalls p m⟩

theorem State.arriveLater_stalls (h : ∃ u : Tid, (s.wr[p]).getLsbD u = true ∧ u ≠ s.turn) :
    ∃ t, s.arriveLater p = .next t ∧ Stalls s t p (fun u => (s.wr[p]).getLsbD u && u != s.turn) := by
  rw [State.arriveLater, if_neg (clearBit_ne_zero h)]
  exact ⟨_, rfl, s.stalls p s.wr[p]⟩

theorem State.arriveLater_last (h : ∀ u : Tid, (s.wr[p]).getLsbD u = true → u = s.turn) :
    s.arriveLater p = .next (s.release p) := by
  rw [State.arriveLater, if_pos ((clearBit_eq_zero_iff _ s.turn).mpr h)]

end

/-! ## KILL (R230, R231) -/

/-- A thread that waits for the one that dies takes ILLEGAL_WAIT and is stalled no more. -/
theorem State.killed_of_waitsFor {s : State} {u : Tid} (h : WaitsFor s u s.turn) :
    s.killed.stalled u = false ∧ (s.killed.ws[u]).s = (s.ws[u]).s ∧
      ExceptionEntered u (s.thread u) (s.killed.thread u) 16 := by
  have hawaits := (s.awaits_eq_true_iff u s.turn).mpr h
  rw [State.stalled, State.ws_killed, State.thread_killed, hawaits]
  exact ⟨rfl, rfl, rfl⟩

/-- A thread that does not wait for the one that dies is left alone. -/
theorem State.killed_of_not_waitsFor {s : State} {u : Tid} (h : ¬ WaitsFor s u s.turn) :
    s.killed.ws[u] = s.ws[u] ∧ s.killed.thread u = s.thread u := by
  have hawaits : s.awaits u s.turn = false := by
    rw [← Bool.not_eq_true, State.awaits_eq_true_iff]
    exact h
  rw [State.ws_killed, State.thread_killed, hawaits]
  exact ⟨rfl, rfl⟩

/-- A thread that is not stalled waits for nobody. -/
theorem not_waitsFor_of_not_stalled {s : State} {n : Tid} (h : s.stalled n = false) (v : Tid) : ¬ WaitsFor s n v := by
  rintro ⟨hw, -⟩
  exact absurd (h.symm.trans hw) (by decide)

/-! ## INIT (R235, R236) -/

/-- INIT of an active thread raises INIT_THREAD alone (R235, R301). -/
theorem execInit_raises {s : State} {u : Tid} (ra : RegNum) (hactive : s.active u = true) :
    ∃ t, execInit ra u s = .next t ∧ Raised s t 8 := by
  rw [execInit, hactive]
  exact s.guarded_raises _ (es := [.initThread]) (by simp)

/-- INIT of a dead thread with no activation pending loads its pc and records the activation (R235). -/
theorem execInit_of_dead {s : State} {u : Tid} (ra : RegNum) (hdead : s.active u = false)
    (hnone : s.activation = none) :
    execInit ra u s = .next ((s.startThread u (s.reg ra)).updCur Thread.advance) := by
  rw [execInit, hdead, hnone]
  rfl

/-- The threads after an INIT of another thread: the target's pc loaded, that of the initiator stepped. -/
theorem State.thread_started {s : State} {u : Tid} (a : Word) (hu : u ≠ s.turn) (n : Tid) :
    ((s.startThread u a).updCur Thread.advance).thread n =
      if n = u then { s.thread u with pc := a }
      else if n = s.turn then { s.cur with pc := s.cur.pc + 2 } else s.thread n := by
  have hcur : (s.startThread u a).cur = s.cur := by
    rw [State.cur, State.startThread_turn, State.thread_startThread, if_neg (Ne.symm hu), State.cur]
  rw [State.thread_updCur, hcur, State.startThread_turn, State.thread_startThread]
  by_cases hn : n = u
  · subst hn
    rw [if_neg hu, if_pos rfl, if_pos rfl, Thread.jumpTo]
  · rw [if_neg hn, if_neg hn, Thread.advance]

/-! ## The statements -/

/-- Settles O31: the row of the encoding table; then a first arrival, alone and with others. -/
theorem firstArrivalAtABarrier : Obligations.FirstArrivalAtABarrier := by
  refine ⟨decodesAs_wait, fun s m p hactive hself hrow => ?_⟩
  simp only [Completes, exec_wait, execWait_first hactive hself hrow]
  refine ⟨fun halone => ?_, s.arriveFirst_stalls p⟩
  rw [s.arriveFirst_alone p halone]
  exact s.retireNothing_completes

/-- Settles O32: a later arrival that leaves others awaited. -/
theorem laterArrivalAtABarrierStalls : Obligations.LaterArrivalAtABarrierStalls := by
  intro s m p hactive hmask hawaited hothers
  rw [Completes, exec_wait, execWait_later hactive hmask hawaited]
  exact s.arriveLater_stalls p hothers

/-- Settles O33: a later arrival that leaves nobody awaited, and the fields of a release. -/
theorem lastArrivalReleasesTheBarrier : Obligations.LastArrivalReleasesTheBarrier := by
  intro s m p hactive hmask honly
  rw [Completes, exec_wait, execWait_later hactive hmask ((honly s.turn).mpr rfl),
    s.arriveLater_last p fun u => (honly u).mp]
  exact ⟨_, rfl, rfl, fun _ => rfl, s.wr_release p, s.ws_release p, s.thread_release p⟩

/-- Settles O34: the two refusals, a mask that is not the barrier's being one that differs from it in a thread. -/
theorem misfitWaitsHaveNoResult : Obligations.MisfitWaitsHaveNoResult := by
  refine fun s m p hactive => ⟨execWait_withoutSelf hactive, fun hself hrow hmisfit => ?_⟩
  refine execWait_misfit hactive hself hrow (hmisfit.imp id fun ⟨u, hu⟩ hmask => ?_)
  exact hu (eq_barrierMask_iff.mp hmask u)

/-- Settles O35: the row of the encoding table; then the machine after the KILL, field by field, the dying thread
being one that waits for nobody. -/
theorem killEndsTheThreadAndItsBarriers : Obligations.KillEndsTheThreadAndItsBarriers := by
  refine ⟨decodesAs_of_sub 18 1 rfl rfl fun _ => rfl, fun s hstalled => ⟨_, execKill_eq s, rfl, fun _ => rfl,
    s.active_killed, ?_, s.wr_killed, fun u => State.killed_of_waitsFor, fun u => State.killed_of_not_waitsFor⟩⟩
  obtain ⟨-, hthread⟩ := State.killed_of_not_waitsFor (not_waitsFor_of_not_stalled hstalled s.turn)
  exact hthread

/-- Settles O37: the row of the encoding table; then the threads after an INIT, whose target is not its initiator
because that is active. -/
theorem initLoadsThePcOfADeadThread : Obligations.InitLoadsThePcOfADeadThread := by
  refine ⟨decodesAs_init, fun s ra u hself hdead hnone => ?_⟩
  have hu : u ≠ s.turn := by
    rintro rfl
    exact absurd (hdead.symm.trans hself) (by decide)
  exact ⟨_, execInit_of_dead ra hdead hnone, rfl, fun _ => rfl, State.thread_started (s.reg ra) hu⟩

/-- Settles O38: the checks of WAIT and of INIT come before their effects. -/
theorem waitForDeadAndInitOfActiveRaise : Obligations.WaitForDeadAndInitOfActiveRaise :=
  ⟨fun _ _ _ _ hnamed hdead => execWait_raises hnamed hdead, fun _ ra _ hactive => execInit_raises ra hactive⟩

end Sys2Proof.Machine
end

section
/-!
PROOFS. The jumps (spec/48_jump.md R245 to R253) and the example words of the rules (spec/30_encoding.md R98).
-/

namespace Sys2Proof.Machine

/-! ## Rows of the encoding table (R93, R98) -/

/-- JMPR is the row of its opcode with bit 9 clear. -/
theorem decodesR2_jmpr : DecodesR2 0x9800 0xFA00 .jmpr :=
  decodesAs_of_size 19 0 rfl rfl fun _ hsub _ => if_neg (by rw [sizeBit_eq_of_extract hsub]; decide)

/-- JMP.SPR1 is the row of that opcode with bit 9 set. -/
theorem decodesAs_jmpSpr1 : DecodesAs 0x9A00 0xFA00 fun _ => .jmpSpr1 :=
  decodesAs_of_size 19 1 rfl rfl fun _ hsub _ => if_pos (by rw [sizeBit_eq_of_extract hsub]; decide)

/-! ## Jumps on each of their paths (R245) -/

/-- The jump's own address plus the offset, as one number cut to 16 bits (D20). -/
theorem relativeTarget_eq (pc : Word) (offset : Int) :
    relativeTarget pc offset = BitVec.ofInt 16 (pc.toNat + offset) := by
  rw [relativeTarget, BitVec.ofInt_add, BitVec.ofInt_natCast, BitVec.ofNat_toNat, BitVec.setWidth_eq]

section
variable {s : State} {cb : FlagNum} (link : Bool) {target : Word}

/-- An untaken jump does nothing but step on, whether or not it would link (D21). -/
theorem State.jump_untaken (target : Word) (h : s.cur.readFlag cb = false) :
    s.jump cb link target = s.retire id := by
  rw [State.jump, h, Config.linkOnUntaken, Bool.and_false]
  rfl

/-- A taken jump checks its target first. -/
theorem State.jump_taken (target : Word) (h : s.cur.readFlag cb = true) :
    s.jump cb link target = s.guarded (jumpExc target)
      (.next (s.updCur fun th => (if link then th.writeReg 7 (th.pc + 2) else th).jumpTo target)) := by
  rw [State.jump, h, if_pos rfl]

/-- The link register after a jump: R7 is always writable. -/
theorem Thread.readReg_link (th : Thread) (r : RegNum) :
    (if link then th.writeReg 7 (th.pc + 2) else th).readReg r =
      if link = true ∧ r = 7 then th.pc + 2 else th.readReg r := by
  cases link with
  | false => rfl
  | true =>
    have hw : th.writable 7 = true := rfl
    simp [Thread.readReg_writeReg, hw]

/-- A taken jump to an even address of program memory links if it is a linking form, and goes there. -/
theorem State.jump_goes (h : s.cur.readFlag cb = true) (ha : IsAligned target) (hpc : target.toNat < 0x8000) :
    ∃ t, s.jump cb link target = .next t ∧ OwnEffect s t s.cur
      (fun r => if link = true ∧ r = 7 then s.cur.pc + 2 else s.reg r) (flagsWith s.cur noFlags) target := by
  rw [State.jump_taken link target h, (jumpExc_eq_nil_iff target).mpr ⟨ha, hpc⟩, State.guarded_nil]
  refine ⟨_, rfl, onlyThread_updCur s _, sameMemory_updCur s _, ?_⟩
  rw [State.thread_updCur, if_pos rfl]
  refine ⟨s.cur.readReg_link link, fun i => ?_, rfl, ?_⟩
  · rw [Thread.readFlag_jumpTo, flagsWith_noFlags]
    split <;> rfl
  · split <;> exact SameControl.refl _

/-- A taken jump to any other address raises what its target's check finds. -/
theorem State.jump_raises (h : s.cur.readFlag cb = true) (hbad : ¬ (IsAligned target ∧ target.toNat < 0x8000)) :
    ∃ t, s.jump cb link target = .next t ∧ Raised s t (jumpBits target) := by
  rw [State.jump_taken link target h, ← excBits_jumpExc]
  exact s.guarded_raises _ (mt (jumpExc_eq_nil_iff target).mp hbad)

end

/-- An instruction that is a jump has the effect of one. -/
theorem jumpEffect_of_exec {i : Instr} {s : State} {cb : FlagNum} {link : Bool} {target : Word}
    (h : exec i s = s.jump cb link target) : JumpEffect i s cb link target := by
  simp only [JumpEffect, Completes, h]
  refine ⟨fun huntaken => ?_, fun htaken => State.jump_goes link htaken, fun htaken => State.jump_raises link htaken⟩
  rw [State.jump_untaken link target huntaken]
  exact s.retireNothing_completes

/-! ## The return from an interrupt (R253, R317) -/

theorem exec_jmpSpr1 (s : State) : exec .jmpSpr1 s = execJmpSpr1 s := rfl

/-- With the mask set JMP.SPR1 raises nothing (D22). -/
theorem execJmpSpr1_of_masked {s : State} (h : s.cur.imask = true) :
    execJmpSpr1 s = .next (s.updCur Thread.returnFromInterrupt) := by
  rw [execJmpSpr1, h]
  rfl

/-- With the mask clear JMP.SPR1 raises ILLEGAL_INSTRUCTION alone (D22). -/
theorem execJmpSpr1_raises {s : State} (h : s.cur.imask = false) :
    ∃ t, execJmpSpr1 s = .next t ∧ Raised s t 1 := by
  rw [execJmpSpr1, h]
  exact s.guarded_raises _ (es := [.illegalInstruction]) (by simp)

/-- The return changes the pc and the mask alone. -/
theorem State.returnFromInterrupt_ownEffect (s : State) :
    OwnEffect s (s.updCur Thread.returnFromInterrupt) { s.cur with imask := false } s.cur.readReg
      (flagsWith s.cur noFlags) s.cur.spr1 := by
  refine ⟨onlyThread_updCur s _, sameMemory_updCur s _, ?_⟩
  rw [State.thread_updCur, if_pos rfl]
  exact ⟨fun _ => rfl, fun i => (flagsWith_noFlags s.cur i).symm, rfl, SameControl.refl _⟩

/-! ## The statements -/

/-- Settles O41: the four rows of the encoding table; then each of the four instructions is a jump, two to the address
in RA and two to their own address plus the offset. -/
theorem jumpsCheckLinkAndGo : Obligations.JumpsCheckLinkAndGo := by
  refine ⟨decodesR2_jmpr, decodesAs_of_op 20 rfl fun _ => rfl, decodesAs_jmpi, decodesAs_jali,
    fun s ra cb => ⟨jumpEffect_of_exec rfl, jumpEffect_of_exec rfl⟩, fun s offset cb => ?_⟩
  rw [← relativeTarget_eq]
  exact ⟨jumpEffect_of_exec rfl, jumpEffect_of_exec rfl⟩

/-- Settles O42: the row of the encoding table; then the return with the mask set, and the exception without. -/
theorem returnFromInterrupt : Obligations.ReturnFromInterrupt :=
  ⟨decodesAs_jmpSpr1, fun s =>
    ⟨fun hmask => ⟨_, (exec_jmpSpr1 s).trans (execJmpSpr1_of_masked hmask), s.returnFromInterrupt_ownEffect⟩,
      execJmpSpr1_raises⟩⟩

/-- Settles O3: each of the ten words, by evaluating the decoder on it. -/
theorem exampleWordsDecode : Obligations.ExampleWordsDecode := by
  unfold Obligations.ExampleWordsDecode
  decide

end Sys2Proof.Machine
end

section
/-!
PROOFS. The system register instructions and NOP (spec/49_system.md R261 to R280).
-/

namespace Sys2Proof.Machine

/-! ## Rows of PUT.DEBUG and PUT.INTRMASK (R95) -/

/-- The bit in bit 3 is read from the field of bits 5:3. -/
theorem bitField_of_fields (op : BitVec 5) (sub : BitVec 2) (w : Word) :
    bitField ⟨op, sub, w.extractLsb' 6 3, w.extractLsb' 3 3, w.extractLsb' 0 3⟩ = fieldImm1 w := by
  simp [bitField, fieldImm1]

theorem decodesAs_putDebug : DecodesAs 0xDC00 0xFE00 fun w => .putDebug (fieldImm1 w) :=
  decodesAs_of_sub 27 2 rfl rfl fun w => congrArg (fun b => Except.ok (Instr.putDebug b)) (bitField_of_fields _ _ w)

theorem decodesAs_putIntrMask : DecodesAs 0xDE00 0xFE00 fun w => .putIntrMask (fieldImm1 w) :=
  decodesAs_of_sub 27 3 rfl rfl fun w => congrArg (fun b => Except.ok (Instr.putIntrMask b)) (bitField_of_fields _ _ w)

/-! ## Words with the rest 0 (R261, R265 to R267) -/

/-- A byte below a byte of 0 is the number of that byte. -/
theorem joinBytes_zero_toNat (b : Byte) : (joinBytes 0 b).toNat = b.toNat := by
  rw [joinBytes_toNat]
  exact Nat.zero_add _

theorem joinBytes_zero_eq_ofNat (b : Byte) : joinBytes 0 b = BitVec.ofNat 16 b.toNat := by
  rw [← joinBytes_zero_toNat, BitVec.ofNat_toNat, BitVec.setWidth_eq]

theorem joinBytes_zero_lt (b : Byte) : (joinBytes 0 b).toNat < 256 := by
  rw [joinBytes_zero_toNat]
  exact b.isLt

theorem getLsbD_joinBytes_zero (b : Byte) (i : Fin 8) : (joinBytes 0 b).getLsbD i = b.getLsbD i := by
  rw [BitVec.getLsbD, joinBytes_zero_toNat, BitVec.getLsbD]

/-- GET.FLAG's byte is FLAG as its bits read, bit 0 being 1 (R26). -/
theorem Thread.getLsbD_flagByte (th : Thread) (i : FlagNum) : th.flagByte.getLsbD i = th.readFlag i := by
  have one : ∀ i : FlagNum, (1#8).getLsbD i = (i == 0) := by decide
  rw [Thread.flagByte, BitVec.getLsbD_or, one, Bool.or_comm, Thread.readFlag]

/-- Four bits in a word of zeros. -/
theorem maskWord_lt (m : BitVec 4) : (m.zeroExtend 16).toNat < 16 := by
  rw [BitVec.toNat_setWidth_of_le (by decide)]
  exact m.isLt

theorem getLsbD_maskWord (m : BitVec 4) (u : Tid) : (m.zeroExtend 16).getLsbD u = m.getLsbD u := by
  have hu : u.val < 16 := by omega
  rw [BitVec.getLsbD_setWidth, decide_eq_true hu, Bool.true_and]

/-! ## The PUTs (R274, R276) -/

/-- PUT.FLAG makes every flag but bit 0 that of the lower byte (R274). -/
theorem Thread.readFlag_putFlags (th : Thread) (v : Word) (i : FlagNum) :
    (th.putFlags (loByte v)).readFlag i = flagsWith th (fun i => some (v.getLsbD i)) i := by
  have one : ∀ i : FlagNum, i ≠ 0 → (1#8).getLsbD i = false := by decide
  rw [flagsWith, Thread.readFlag, Thread.putFlags_flag]
  split
  · subst_vars
    rfl
  · rename_i hi
    have hlow : (loByte v).getLsbD i = v.getLsbD i := by simp [loByte]
    rw [beq_eq_false_iff_ne.mpr hi, BitVec.getLsbD_or, one i hi, hlow, Bool.or_false]
    rfl

/-- A thread after PUT.DEBUG, before its pc steps (R276). -/
def Thread.putDebug (th : Thread) (b : Bool) : Thread :=
  { th with debug := b, regs := if b then th.regs else th.regs.set 0 0 }

theorem execPutDebug_eq (b : Bool) (s : State) : execPutDebug b s = s.retire fun th => th.putDebug b := rfl

/-- PUT.DEBUG 0 clears R0, in debug mode or not (R276). -/
theorem Thread.readReg_putDebug (th : Thread) (b : Bool) (r : RegNum) :
    (th.putDebug b).readReg r = if r = 0 ∧ b = false then 0 else th.readReg r := by
  cases b with
  | true => simp [Thread.readReg, Thread.putDebug]
  | false =>
    simp only [and_true]
    exact getElem_set_fin th.regs 0 r 0

section
variable (s : State) (b : Bool)

theorem State.putFlags_completes (v : Word) :
    ∃ t, (s.retire fun th => th.putFlags (loByte v)) = .next t ∧ FlagEffect s t fun i => some (v.getLsbD i) :=
  s.retire_completes _ _ _ _ (fun _ => rfl) (s.cur.readFlag_putFlags v) rfl (SameControl.refl _)

theorem State.putSpr1_completes (v : Word) :
    ∃ t, (s.retire fun th => { th with spr1 := v }) = .next t ∧
      OwnEffect s t { s.cur with spr1 := v } s.cur.readReg (flagsWith s.cur noFlags) (s.cur.pc + 2) :=
  s.retire_completes _ _ _ _ (fun _ => rfl) (fun i => (flagsWith_noFlags s.cur i).symm) rfl (SameControl.refl _)

theorem State.putDebug_completes :
    ∃ t, (s.retire fun th => th.putDebug b) = .next t ∧
      OwnEffect s t { s.cur with debug := b } (fun r => if r = 0 ∧ b = false then 0 else s.reg r)
        (flagsWith s.cur noFlags) (s.cur.pc + 2) :=
  s.retire_completes _ _ _ _ (s.cur.readReg_putDebug b) (fun i => (flagsWith_noFlags s.cur i).symm) rfl
    (SameControl.refl _)

theorem State.putIntrMask_completes :
    ∃ t, (s.retire fun th => { th with imask := b }) = .next t ∧
      OwnEffect s t { s.cur with imask := b } s.cur.readReg (flagsWith s.cur noFlags) (s.cur.pc + 2) :=
  s.retire_completes _ _ _ _ (fun _ => rfl) (fun i => (flagsWith_noFlags s.cur i).symm) rfl (SameControl.refl _)

/-- GET.EXR clears EXR whether or not RD is written (R264). -/
theorem State.getExr_completes (rd : RegNum) :
    ∃ t, (s.retire fun th => { th.writeReg rd th.exr with exr := 0 }) = .next t ∧
      OwnEffect s t { s.cur with exr := 0 } (regsWith s.cur rd s.cur.exr) (flagsWith s.cur noFlags)
        (s.cur.pc + 2) :=
  s.retire_completes _ _ _ _ (s.cur.readReg_writeReg_eq rd s.cur.exr) (fun i => (flagsWith_noFlags s.cur i).symm) rfl
    (SameControl.refl _)

end

/-! ## The statements -/

/-- Settles O43: the six rows of the encoding table; then one register written, FLAG and TAR bit by bit. -/
theorem getsCopyTheirRegister : Obligations.GetsCopyTheirRegister := by
  refine ⟨decodesAs_of_sub 25 0 rfl rfl fun _ => rfl, decodesAs_of_sub 25 1 rfl rfl fun _ => rfl,
    decodesAs_of_sub 25 2 rfl rfl fun _ => rfl, decodesAs_of_sub 26 1 rfl rfl fun _ => rfl,
    decodesAs_of_sub 26 3 rfl rfl fun _ => rfl, decodesAs_of_sub 29 0 rfl rfl fun _ => rfl,
    fun s rd => ⟨⟨joinBytes 0 s.cur.flagByte, joinBytes_zero_lt _, fun i => ?_, s.retireReg_completes rd _⟩,
      s.retireReg_completes rd s.cur.spr1, s.retireReg_completes rd s.cur.spr2,
      ⟨s.tar.zeroExtend 16, maskWord_lt _, getLsbD_maskWord s.tar, s.retireReg_completes rd _⟩,
      s.retireReg_completes rd s.cur.intr, s.retireReg_completes rd (BitVec.ofNat 16 s.turn)⟩⟩
  rw [getLsbD_joinBytes_zero, Thread.getLsbD_flagByte]

/-- Settles O44: the row of the encoding table; then RD by the write rule, and EXR 0. -/
theorem getExrReadsAndClears : Obligations.GetExrReadsAndClears :=
  ⟨decodesAs_of_sub 25 3 rfl rfl fun _ => rfl, fun s rd => s.getExr_completes rd⟩

/-- Settles O45: the two rows of the encoding table; then the view of the rows as a number, and the waiting bits. -/
theorem getsOfTheWaitRegisters : Obligations.GetsOfTheWaitRegisters := by
  refine ⟨decodesAs_of_sub 26 0 rfl rfl fun _ => rfl, decodesAs_of_sub 26 2 rfl rfl fun _ => rfl, fun s rd => ⟨?_,
    (maskOf s.stalled).zeroExtend 16, maskWord_lt _, fun u => ?_, s.retireReg_completes rd _⟩⟩
  · rw [← joinBytes_zero_eq_ofNat]
    exact s.retireReg_completes rd _
  · rw [getLsbD_maskWord, getLsbD_maskOf]

/-- Settles O46: the four rows of the encoding table; then each register written. -/
theorem putsWriteTheirRegister : Obligations.PutsWriteTheirRegister :=
  ⟨decodesAs_of_sub 27 0 rfl rfl fun _ => rfl, decodesAs_of_sub 27 1 rfl rfl fun _ => rfl, decodesAs_putDebug,
    decodesAs_putIntrMask, fun s ra b => ⟨s.putFlags_completes (s.reg ra), s.putSpr1_completes (s.reg ra),
      s.putDebug_completes b, s.putIntrMask_completes b⟩⟩

/-- Settles O47: the row of the encoding table; then the step of the pc alone. -/
theorem nopDoesNothing : Obligations.NopDoesNothing :=
  ⟨decodesAs_of_op 31 rfl fun _ => rfl, fun s => ⟨_, s.retire_eq id, rfl⟩⟩

end Sys2Proof.Machine
end

section
/-!
PROOFS. The interrupt boundary (spec/60_exceptions.md R312 to R319).
-/

namespace Sys2Proof.Machine

section
variable {s : State} {i : Instr}

/-- A boundary is open exactly under conditions (c) to (f) of R312. -/
theorem State.boundaryOpen_iff : s.boundaryOpen i = true ↔
    s.runnable s.turn = true ∧ s.cur.imask = false ∧ ¬ HoldsOff i := by
  rw [← holdsOff_iff, State.boundaryOpen]
  simp [and_assoc]

/-- Without a request a boundary does nothing. -/
theorem State.boundary_of_noRequest (h : s.irq[s.turn] = none) : s.boundary i = s := by
  rw [State.boundary, h]

/-- A boundary that is not open leaves a request pending. -/
theorem State.boundary_of_closed (h : s.boundaryOpen i = false) : s.boundary i = s := by
  rw [State.boundary, h]
  cases s.irq[s.turn] <;> rfl

/-- At an open boundary the free choice decides about a request (D26, log 6). -/
theorem State.boundary_of_open {isr : Word} (hirq : s.irq[s.turn] = some isr) (h : s.boundaryOpen i = true) :
    s.boundary i =
      if Config.interruptTaken s.freeTicks then State.takeInterrupt { s with freeTicks := s.freeTicks + 1 } isr
      else { s with freeTicks := s.freeTicks + 1 } := by
  rw [State.boundary, hirq]
  exact if_pos h

/-- No interrupt is taken with an exception (R319). -/
theorem State.boundary_raise (es : List Exc) : (s.raise es).boundary i = s.raise es := by
  refine State.boundary_of_closed (Bool.eq_false_iff.mpr fun hopen => ?_)
  obtain ⟨-, hmask, -⟩ := State.boundaryOpen_iff.mp hopen
  exact absurd ((s.raise_imask es).symm.trans hmask) (by decide)

end

/-! ## The statement -/

/-- Settles O49: without a request, or with one of the conditions missing, nothing; else what the free choice says;
and a raise has set the mask. -/
theorem interruptBoundary : Obligations.InterruptBoundary := by
  refine fun s i => ⟨fun hclosed => ?_, fun isr hirq hrun hmask hfree => ?_, fun es => State.boundary_raise es⟩
  · rcases hclosed with hnone | hclosed
    · exact State.boundary_of_noRequest hnone
    · refine State.boundary_of_closed (Bool.eq_false_iff.mpr fun hopen => ?_)
      obtain ⟨hrun, hmask, hfree⟩ := State.boundaryOpen_iff.mp hopen
      rcases hclosed with h | h | h
      · exact absurd (h.symm.trans hrun) (by decide)
      · exact absurd (h.symm.trans hmask) (by decide)
      · exact hfree h
  · rw [State.boundary_of_open hirq (State.boundaryOpen_iff.mpr ⟨hrun, hmask, hfree⟩)]
    refine ⟨fun hleft => ?_, fun htaken => ?_⟩
    · rw [hleft]
      rfl
    · rw [htaken]
      rfl

end Sys2Proof.Machine
end
